-- ==== Sys2Proof/Word.lean ====
section
/-! DEFINITION. The word types of the block: bytes of the page buffer, 16-bit flash cells, 32-bit
registers and addresses, and the 64-bit command and response words (10_state.md R15, 20_memory.md R59,
30_encoding.md R80, R87). Every quantity is unsigned (00_scope.md R10). -/

namespace Sys2Proof

/-- One byte of `PBUF`, or half of a flash cell. -/
abbrev Byte := BitVec 8

/-- One half-word: a flash cell, or the operand `H`. -/
abbrev Half := BitVec 16

/-- One 32-bit word: an address, a key, the accumulator, a result value. -/
abbrev Word := BitVec 32

/-- One 64-bit word of the command port: a command or a response. -/
abbrev Packet := BitVec 64

end Sys2Proof
end

