-- ==== Sys2Proof/Config.lean ====
section
/-! DEFINITION. What an implementation fixes (the parameters of 00_scope.md section 3, R6 to R9, R16) and
the one source of values the spec leaves free (R9, 20_memory.md R64, R66, 10_state.md R43, 70 R181). -/

namespace Sys2Proof

/-- The parameters of the block. They are constants: no operation and no reset changes one (R16). A state
carries them in its field `cfg` because the form of `exec` has no other place for them (log entry 1), so a
statement about every state is a statement about every value of every parameter. -/
structure Config where
  /-- `ORIGIN`, the byte address of the first flash cell. -/
  origin : Nat
  /-- `PAGE_SIZE`, in bytes. -/
  pageSize : Nat
  /-- `TOTAL_SIZE`, in bytes. -/
  totalSize : Nat
  /-- `KEY1`, the first unlock key. -/
  key1 : Word
  /-- `KEY2`, the second unlock key. -/
  key2 : Word
  /-- `REFLECT_IN`. -/
  reflectIn : Bool
  /-- `REFLECT_OUT`. -/
  reflectOut : Bool
  /-- `FINAL_XOR`. -/
  finalXor : Word
  /-- `POLY`, without its `x^32` term. -/
  poly : Word
  /-- `CRC_INIT`, what a reset of the accumulator leaves in it. -/
  crcInit : Word
  /-- `KEY_LOCKOUT_STICKY`. -/
  keyLockoutSticky : Bool
  /-- `FLASH_RELIABLE`. -/
  flashReliable : Bool
  /-- `FCTL_BASE`, used by the register map of R89 only. -/
  fctlBase : Word
  /-- `CRCU_BASE`, used by the register map of R90 only. -/
  crcuBase : Word
  deriving DecidableEq, Repr

/-- The values the spec suggests (00_scope.md section 3, G1 to G6). The three knobs and `FLASH_RELIABLE`
have no suggested value: PRESUMED and DESIGN CHOICE, log entries 2 and 3. -/
def Config.suggested : Config where
  origin := 0x08000000
  pageSize := 1024
  totalSize := 65536
  key1 := 0x45670123#32
  key2 := 0xCDEF89AB#32
  reflectIn := false
  reflectOut := false
  finalXor := 0#32
  poly := 0x04C11DB7#32
  crcInit := 0xFFFFFFFF#32
  keyLockoutSticky := true
  flashReliable := true
  fctlBase := 0x40022000#32
  crcuBase := 0x40023000#32

/-- The free values ("draws" of the spec's glossary): nothing constrains them. A draw applies this to a
fresh number, which `State.draws` counts (log entry 6). -/
opaque Config.free : Nat → Word

end Sys2Proof
end

