-- ==== Sys2Proof/Machine/State.lean ====
section
/-! DEFINITION. The whole state of the block (10_state.md R15), the reasons a step can stop, and the state
after reset (R43). -/

namespace Sys2Proof.Machine

/-- Progress of the unlock key sequence (R18). -/
inductive KeySt where
  /-- `K0`: locked, no key accepted yet. -/
  | k0
  /-- `K1`: locked, first key accepted. -/
  | k1
  /-- `OPEN`: unlocked. -/
  | opened
  /-- `DEAD`: locked, no key is accepted until reset. -/
  | dead
  deriving DecidableEq, Repr

/-- The program or erase FCTL has started and not finished (R28). -/
inductive Pend where
  /-- Nothing is in flight. -/
  | none
  /-- `prog(addr, v)`: the cell at `addr` is being programmed with `v`. -/
  | prog (addr : Nat) (v : Half)
  /-- `erase(addr)`: the page `addr` points into is being erased. -/
  | erase (addr : Nat)
  deriving DecidableEq, Repr

/-- SEQ's position inside the current operation (R42), as far as a step can end there: between operations,
or at a `WaitNotBusy()` whose poll found the busy flag set. Every other position is passed within one step
(log entry 4). -/
inductive Pos where
  /-- Between operations. -/
  | idle
  /-- The first wait of `WRHW`, before programming is enabled. -/
  | wrhwFirst
  /-- The wait of `WRHW` after its flash write. -/
  | wrhwProgram
  /-- The first wait of the erase in `ERPG`. -/
  | erpgFirst
  /-- The wait of `ERPG` after the start bit is set. -/
  | erpgErase
  /-- The first wait of the erase in `WRPG`. -/
  | wrpgFirst
  /-- The wait of `WRPG` after the start bit is set. -/
  | wrpgErase
  /-- The wait of `WRPG` after programming is enabled. -/
  | wrpgEnable
  /-- The wait of `WRPG` after the write of cell `IDX`. -/
  | wrpgCell
  deriving DecidableEq, Repr

/-- What HOST may do to the block (70_reset_and_hazards.md R195). Reading the response or `PBUF` changes
nothing and needs no move. -/
inductive HostMove where
  /-- Present one command word (R93). -/
  | command (c : Packet)
  /-- Write byte `j` of the page buffer (R38). -/
  | pbufWrite (j : Nat) (b : Byte)
  /-- Do nothing while the block takes a step. -/
  | idle
  /-- The reset event (R180). -/
  | reset
  deriving DecidableEq, Repr

/-- A byte memory: the listed bytes, addresses strictly rising, none equal to what an unlisted address
reads as (`Memory.wf` of Machine/Ops.lean). -/
abbrev Memory := List Host.Cell

/-- Why a step can stop with a fault. The block itself has no exception (60_exceptions.md R155): both are
situations the spec gives no address or no statement for. -/
inductive Fault where
  /-- Raised by `step` when `RUN = 1` and SEQ is at no statement, or at one its latched operands exclude: a
  state no run reaches (R34 to R36, R42). Safe: nothing follows. -/
  | noStatement
  /-- Raised by `step` when HOST writes a byte `PBUF` does not have (R38: exactly `PAGE_SIZE` bytes). Safe:
  nothing follows. -/
  | pbufIndex
  deriving DecidableEq, Repr

/-- Why an operation or an access has no meaning. Each is a situation for which the spec says that a model
refuses. -/
inductive Refusal where
  /-- Raised by an arm of `exec` whose instruction has no meaning yet. Safe. -/
  | notModelled (mnemonic : String)
  /-- Raised by every operation and step when the configuration breaks a constraint of R6. Safe. -/
  | badConfig
  /-- Raised when an aligned operand, or an address given to FCTL, is not wholly inside the flash array
  (20_memory.md R58, R62, U8). Safe. -/
  | outOfRange
  /-- Raised by `PGCRC`, and by an access to the CRC unit's registers, while `CRCEN = 0` (R33, U7). Safe. -/
  | crcClockOff
  /-- Raised by `exec` at `RUN = 1`: HOST has no move to present a command then (R93, U1). Safe. -/
  | commandWhileRunning
  /-- Raised by setting the start bit unlocked with `CR.PER = 0` or `SR.BSY = 1` (R25, U10). Safe. -/
  | startNotReady
  /-- Raised by setting one of the two enable bits unlocked while the other is 1 (R25, D10, U10). Safe. -/
  | bothEnables
  /-- Raised by a flash write with `CR.PG = 1` and `SR.BSY = 1` (20_memory.md R61, U10). Safe. -/
  | flashWriteBusy
  /-- Raised by the register map of R89 and R90 for an access it does not give (a read of the key register,
  U9; a write of the status register; an address of no register). Safe. -/
  | registerAccess
  deriving DecidableEq, Repr

/-- The state. Fields down to `pbuf` are the spec's (R15); the rest are the model's own, said at each. -/
structure State where
  /-- `KEYST` (R18). -/
  keyst : KeySt
  /-- `CR.LOCK` (R21). -/
  crLock : Bool
  /-- `CR.PG` (R22). -/
  crPg : Bool
  /-- `CR.PER` (R23). -/
  crPer : Bool
  /-- `CR.STRT` (R24). -/
  crStrt : Bool
  /-- `SR.BSY` (R26). -/
  srBsy : Bool
  /-- `AR` (R27). -/
  ar : Word
  /-- `PEND` (R28). -/
  pend : Pend
  /-- `FLASH`, as bytes at their absolute addresses (R30, R53). -/
  flash : Memory
  /-- `CRCACC` (R31). -/
  crcacc : Word
  /-- `CRCEN` (R33). -/
  crcen : Bool
  /-- `RUN` (R34). -/
  run : Bool
  /-- SEQ's position (R42, R44). -/
  pos : Pos
  /-- `OPC` (R35). -/
  opc : BitVec 4
  /-- `A` (R35). -/
  a : Word
  /-- `H` (R35). -/
  h : Half
  /-- `IDX` (R36). -/
  idx : Nat
  /-- `OK` (R37). -/
  ok : Bool
  /-- `ERR` (R37). -/
  err : BitVec 4
  /-- `VAL` (R37). -/
  val : Word
  /-- `PBUF`, as bytes at their indices (R38). -/
  pbuf : Memory
  /-- The parameters, constant (R16; log entry 1). -/
  cfg : Config
  /-- What HOST does next, first move first (R195; log entry 7). -/
  host : List HostMove
  /-- FCTL's coming choices, one for each poll that finds the busy flag set: `true` when its completion step
  comes first (20_memory.md R69; log entry 5). -/
  moves : List Bool
  /-- FCTL's choice at every poll after those: `false` is the stuck peripheral (R191; log entry 5). -/
  movesRest : Bool
  /-- How many free values have been drawn (log entry 6). -/
  draws : Nat
  deriving DecidableEq, Repr

/-- The state right after reset, at power-up (R43). The values R43 calls unspecified are named in log
entries 8 and 9, the parameters in log entries 2 and 3, the environment in log entries 5 and 7. -/
def State.reset : State where
  keyst := .k0
  crLock := true
  crPg := false
  crPer := false
  crStrt := false
  srBsy := false
  ar := 0#32
  pend := .none
  flash := []
  crcacc := Config.suggested.crcInit
  crcen := false
  run := false
  pos := .idle
  opc := 0#4
  a := 0#32
  h := 0#16
  idx := 0
  ok := false
  err := 0#4
  val := 0#32
  pbuf := []
  cfg := Config.suggested
  host := []
  moves := []
  movesRest := true
  draws := 0

end Sys2Proof.Machine
end

