-- ==== Sys2Proof/Syntax.lean ====
section
/-! DEFINITION. The eleven operations of the block (00_scope.md R13, 30_encoding.md R82), one constructor per
row of the opcode table. There are no pseudo-operations (R92). -/

namespace Sys2Proof

/-- One operation with the operands its format uses (R81, R83). The page buffer of `RDPG` and `WRPG` and
the result of `PGCRC` are not encoded: they are always `PBUF` and `VAL`. -/
inductive Instr where
  /-- `initialize()` (R100). -/
  | init
  /-- `isLocked()` (R101). -/
  | islocked
  /-- `unlock()` (R102). -/
  | unlock
  /-- `lock()` (R103). -/
  | lock
  /-- `readHalfWord(address)` (R110). -/
  | rdhw (a : Word)
  /-- `writeHalfWord(address, value)` (R111). -/
  | wrhw (a : Word) (h : Half)
  /-- `erasePage(address)` (R121). -/
  | erpg (a : Word)
  /-- `readPage(address, PBUF)` (R122). -/
  | rdpg (a : Word)
  /-- `writePage(address, PBUF)` (R123). -/
  | wrpg (a : Word)
  /-- `calculatePageCRC(address, VAL)` (R141). -/
  | pgcrc (a : Word)
  /-- `reflectWord(value)` (R142). -/
  | refl (v : Word)
  deriving DecidableEq, Repr

/-- The mnemonic of R13. -/
def Instr.mnemonic : Instr → String
  | .init => "INIT"
  | .islocked => "ISLOCKED"
  | .unlock => "UNLOCK"
  | .lock => "LOCK"
  | .rdhw _ => "RDHW"
  | .wrhw _ _ => "WRHW"
  | .erpg _ => "ERPG"
  | .rdpg _ => "RDPG"
  | .wrpg _ => "WRPG"
  | .pgcrc _ => "PGCRC"
  | .refl _ => "REFL"

end Sys2Proof
end

