-- ==== Sys2Proof/WellFormed.lean ====
section
/-! DEFINITION. What is well formed: a configuration (00_scope.md R6) and a command word (30_encoding.md R81,
R84). An `Instr` has no check of its own: its operands have exactly the widths of the fields they stand in, so
every term of `Instr` is an operation of the block. -/

namespace Sys2Proof

/-- `PAGE_SIZE` is a power of two and at least 4 (R6). -/
def Config.pageSizeOk (c : Config) : Bool :=
  decide (c.pageSize = 2 ^ c.pageSize.log2) && decide (4 ≤ c.pageSize)

/-- `TOTAL_SIZE` is a non-zero multiple of `PAGE_SIZE` (R6). -/
def Config.totalSizeOk (c : Config) : Bool :=
  decide (0 < c.totalSize) && decide (c.totalSize % c.pageSize = 0)

/-- `ORIGIN` is page-aligned and no address of the region wraps (R6). -/
def Config.originOk (c : Config) : Bool :=
  decide (c.origin % c.pageSize = 0) && decide (c.origin + c.totalSize ≤ 2 ^ 32)

/-- The constraints of R6. A model refuses a configuration that breaks one. -/
def Config.wf (c : Config) : Bool :=
  c.pageSizeOk && c.totalSizeOk && c.originOk

/-- One row of the opcode map (R82): the bits that are fixed and their value. -/
structure OpcodeRow where
  mnemonic : String
  pattern : Packet
  mask : Packet
  deriving DecidableEq, Repr

/-- The opcode map of R82, with the masks of R81. -/
def opcodeRows : List OpcodeRow :=
  [ ⟨"INIT", 0x1000000000000000#64, 0xFFFFFFFFFFFFFFFF#64⟩,
    ⟨"ISLOCKED", 0x2000000000000000#64, 0xFFFFFFFFFFFFFFFF#64⟩,
    ⟨"UNLOCK", 0x3000000000000000#64, 0xFFFFFFFFFFFFFFFF#64⟩,
    ⟨"LOCK", 0x4000000000000000#64, 0xFFFFFFFFFFFFFFFF#64⟩,
    ⟨"RDHW", 0x5000000000000000#64, 0xFFFFFFFF00000000#64⟩,
    ⟨"WRHW", 0x6000000000000000#64, 0xFFFF000000000000#64⟩,
    ⟨"ERPG", 0x7000000000000000#64, 0xFFFFFFFF00000000#64⟩,
    ⟨"RDPG", 0x8000000000000000#64, 0xFFFFFFFF00000000#64⟩,
    ⟨"WRPG", 0x9000000000000000#64, 0xFFFFFFFF00000000#64⟩,
    ⟨"PGCRC", 0xA000000000000000#64, 0xFFFFFFFF00000000#64⟩,
    ⟨"REFL", 0xB000000000000000#64, 0xFFFFFFFF00000000#64⟩ ]

/-- A word is an instance of a row if and only if `c AND mask = match` (R81). -/
def OpcodeRow.matchesWord (r : OpcodeRow) (c : Packet) : Bool :=
  c &&& r.mask == r.pattern

/-- A command word is legal when it is an instance of a row (R81, R85). -/
def legalWord (c : Packet) : Bool :=
  opcodeRows.any (·.matchesWord c)

end Sys2Proof
end

