-- ==== Sys2Proof/Machine/Operands.lean ====
section
/-! DEFINITION. Operand checks and address arithmetic: the geometry of the flash array (20_memory.md R51), the
alignment and range checks of the address operand (R56 to R58), the byte order of a cell (R53), and the
assembly of cells and CRC words (R54, R55). The block has one addressing mode, the absolute byte address
in `A` (R52, 30_encoding.md R83). -/

namespace Sys2Proof.Machine

/-- `cell(a)`: the index in `FLASH[]` of the cell at byte address `a` (R51). -/
def cellIndex (c : Config) (a : Nat) : Nat := (a - c.origin) / 2

/-- `page(a)`: the number of the page byte address `a` lies in (R51). -/
def pageIndex (c : Config) (a : Nat) : Nat := (a - c.origin) / c.pageSize

/-- `pagebase(a)`: the first address of that page (R51). -/
def pageBase (c : Config) (a : Nat) : Nat := c.origin + pageIndex c a * c.pageSize

/-- How many cells a page has, `PAGE_SIZE/2` (R51). -/
def pageCells (c : Config) : Nat := c.pageSize / 2

/-- How many 32-bit words a page has for the CRC, `PAGE_SIZE/4` (R55). -/
def pageWords (c : Config) : Nat := c.pageSize / 4

/-- An access of `n` bytes at `a` lies wholly inside the flash array (R58). -/
def inFlash (c : Config) (a n : Nat) : Bool :=
  decide (c.origin ≤ a) && decide (a + n ≤ c.origin + c.totalSize)

/-- The alignment check of a word operation: `A[0] = 0` (R56). -/
def halfAligned (a : Word) : Bool := !a.getLsbD 0

/-- The alignment check of a page operation: `A mod PAGE_SIZE = 0` (R57). -/
def pageAligned (c : Config) (a : Word) : Bool := decide (a.toNat % c.pageSize = 0)

/-- The byte of a cell at its even address: bits `[7:0]` (R53). -/
def lowByte (h : Half) : Byte := h.extractLsb' 0 8

/-- The byte of a cell at its odd address: bits `[15:8]` (R53). -/
def highByte (h : Half) : Byte := h.extractLsb' 8 8

/-- A cell, or a value to program, from its two bytes, low byte first (R53, R54). -/
def halfOf (lo hi : Byte) : Half := lo.setWidth 16 ||| (hi.setWidth 16 <<< 8)

/-- A 32-bit word from two cells, the lower address in the low half (R55). -/
def wordOf (h0 h1 : Half) : Word := h0.setWidth 32 ||| (h1.setWidth 32 <<< 16)

end Sys2Proof.Machine
end

