-- ==== Sys2Proof/Machine/Flags.lean ====
section
/-! DEFINITION. FCTL's registers and flags: the key register (10_state.md R17, R19), setting and clearing the
bits of the control register (R20 to R25), the address register (R27), and the error codes of the response
(30_encoding.md R88). -/

namespace Sys2Proof.Machine

/-- `lockout()` (R19). -/
def lockout (s : State) : State :=
  { s with crLock := true, keyst := if s.cfg.keyLockoutSticky then .dead else .k0 }

/-- `KeyWrite(v)`: a write of the key register (R19). -/
def keyWrite (v : Word) (s : State) : State :=
  match s.keyst with
  | .k0 => if v = s.cfg.key1 then { s with keyst := .k1 } else lockout s
  | .k1 => if v = s.cfg.key2 then { s with keyst := .opened, crLock := false } else lockout s
  | .opened => lockout s
  | .dead => s

/-- `SetCR(LOCK)`: not gated by the lock, idempotent (R25). -/
def setLock (s : State) : State :=
  { s with crLock := true, keyst := if s.keyst = .dead then .dead else .k0 }

/-- `SetCR(PG)`: ignored while locked (R25); with `CR.PER = 1` both enables would be set, which the spec
refuses (D10, U10; DEDUCED, log entry 13). -/
def setPg (s : State) : Host.Outcome State Fault Refusal :=
  if s.crLock then .next s
  else if s.crPer then .refused .bothEnables
  else .next { s with crPg := true }

/-- `ClrCR(PG)`, ignored while locked (R25). -/
def clrPg (s : State) : State :=
  if s.crLock then s else { s with crPg := false }

/-- `SetCR(PER)`: ignored while locked (R25); with `CR.PG = 1` both enables would be set, which the spec
refuses (D10, U10; DEDUCED, log entry 13). -/
def setPer (s : State) : Host.Outcome State Fault Refusal :=
  if s.crLock then .next s
  else if s.crPg then .refused .bothEnables
  else .next { s with crPer := true }

/-- `ClrCR(PER)`, ignored while locked (R25). -/
def clrPer (s : State) : State :=
  if s.crLock then s else { s with crPer := false }

/-- `AR <- v`, whether or not the controller is locked (R27). -/
def writeAr (v : Word) (s : State) : State := { s with ar := v }

/-- `SetCR(STRT)`: ignored while locked; starts the erase of the page `AR` points into; refused where the
spec gives it no meaning (R25, 20_memory.md R62). -/
def setStrt (s : State) : Host.Outcome State Fault Refusal :=
  if s.crLock then .next s
  else if s.crPer && !s.srBsy then
    if inFlash s.cfg s.ar.toNat 1 then
      .next { s with crStrt := true, pend := .erase s.ar.toNat, srBsy := true }
    else .refused .outOfRange
  else .refused .startNotReady

/-- The error codes of R88. -/
inductive ErrCode where
  /-- `E_ALIGN_HW` (R158). -/
  | alignHw
  /-- `E_ALIGN_PAGE` (R159). -/
  | alignPage
  /-- `E_UNLOCK` (R160). -/
  | unlock
  /-- `E_WRITE_VERIFY` (R161). -/
  | writeVerify
  /-- `E_ERASE_VERIFY` (R162). -/
  | eraseVerify
  /-- `E_ILLEGAL_CMD` (R163). -/
  | illegalCmd
  deriving DecidableEq, Repr

/-- The number of an error code in `ERR` (R88). -/
def errBits : ErrCode → BitVec 4
  | .alignHw => 0x1#4
  | .alignPage => 0x2#4
  | .unlock => 0x3#4
  | .writeVerify => 0x4#4
  | .eraseVerify => 0x5#4
  | .illegalCmd => 0x6#4

end Sys2Proof.Machine
end

