-- ==== Sys2Proof/Machine/Ops.lean ====
section
/-! DEFINITION. The shared operations: byte memories in their canonical form, the start and the end of an
operation (R83, R93, R166), free values, FCTL's program and erase (R60 to R66), and the one barrier
`WaitNotBusy()` (R70). -/

namespace Sys2Proof.Machine

/-! ### Byte memories -/

/-- What an unlisted address reads as, in `FLASH` and in `PBUF`: the erased pattern's byte (log entry 9). -/
def unlistedByte : Byte := 0xFF#8

/-- The canonical form: addresses strictly rising, no entry equal to what an unlisted address reads as. -/
abbrev Memory.wf (m : Memory) : Prop :=
  m.Pairwise (fun x y => x.1 < y.1) ∧ ∀ x ∈ m, x.2 ≠ unlistedByte

/-- Reading one byte. -/
def readByte : Memory → Nat → Byte
  | [], _ => unlistedByte
  | (k, v) :: m, a => if k = a then v else readByte m a

/-- An entry in front of a memory, left out where the byte is what an unlisted address reads as. -/
def consByte (a : Nat) (b : Byte) (m : Memory) : Memory :=
  if b = unlistedByte then m else (a, b) :: m

/-- A memory without the entries at one address. -/
def dropByte (m : Memory) (a : Nat) : Memory := m.filter fun x => decide (x.1 ≠ a)

/-- An entry at its place in the rising order. -/
def insertByte : Memory → Nat → Byte → Memory
  | [], a, b => consByte a b []
  | x :: m, a, b => if a < x.1 then consByte a b (x :: m) else x :: insertByte m a b

/-- Writing one byte, keeping the canonical form. -/
def writeByte (m : Memory) (a : Nat) (b : Byte) : Memory := insertByte (dropByte m a) a b

/-- The 16-bit cell at byte address `a`, low byte first (R53). -/
def readHalf (m : Memory) (a : Nat) : Half := halfOf (readByte m a) (readByte m (a + 1))

/-- Writing a 16-bit cell at byte address `a`, low byte first (R53). -/
def writeHalf (m : Memory) (a : Nat) (h : Half) : Memory :=
  writeByte (writeByte m a (lowByte h)) (a + 1) (highByte h)

/-! ### Free values -/

/-- A draw of 16 bits, and the state with the draw counted. -/
def drawHalf (s : State) : Half × State :=
  ((Config.free s.draws).setWidth 16, { s with draws := s.draws + 1 })

/-- A draw of 8 bits, and the state with the draw counted. -/
def drawByte (s : State) : Byte × State :=
  ((Config.free s.draws).setWidth 8, { s with draws := s.draws + 1 })

/-! ### The start and the end of an operation -/

/-- The block accepts a command: it latches the operands, sets `RUN` and runs the operation (R83, R93). A
configuration that breaks R6 is refused, and HOST presents no command while `RUN = 1`. -/
def accept (opc : BitVec 4) (a : Word) (h : Half) (body : State → Host.Outcome State Fault Refusal)
    (s : State) : Host.Outcome State Fault Refusal :=
  if !s.cfg.wf then .refused .badConfig
  else if s.run then .refused .commandWhileRunning
  else body { s with run := true, opc := opc, a := a, h := h }

/-- The next statement of an operation, after one that may be refused: a stop ends the operation there. -/
def andThen (o : Host.Outcome State Fault Refusal) (rest : State → Host.Outcome State Fault Refusal) :
    Host.Outcome State Fault Refusal :=
  match o with
  | .next t => rest t
  | .fault r => .fault r
  | .refused r => .refused r

/-- `done v`: the operation ends with success (R166). -/
def doneOp (v : Word) (s : State) : State :=
  { s with ok := true, err := 0#4, val := v, run := false, pos := .idle }

/-- `fail E`: the operation ends with an error; the block's one form of an exception (R155, R166). -/
def failOp (e : ErrCode) (s : State) : State :=
  { s with ok := false, err := errBits e, val := 0#32, run := false, pos := .idle }

/-- The response word of the last finished operation (R87). -/
def responseWord (s : State) : Packet :=
  0#27 ++ BitVec.ofBool s.ok ++ s.err ++ s.val

/-- The frame of a word operation: the alignment check, then the range check, then the access (R56, R58,
R165). -/
def wordOp (a : Word) (body : State → Host.Outcome State Fault Refusal) (s : State) :
    Host.Outcome State Fault Refusal :=
  if !halfAligned a then .next (failOp .alignHw s)
  else if !inFlash s.cfg a.toNat 2 then .refused .outOfRange
  else body s

/-- The frame of a page operation: the alignment check, then the range check, then the page (R57, R58,
R165). -/
def pageOp (a : Word) (body : State → Host.Outcome State Fault Refusal) (s : State) :
    Host.Outcome State Fault Refusal :=
  if !pageAligned s.cfg a then .next (failOp .alignPage s)
  else if !inFlash s.cfg a.toNat s.cfg.pageSize then .refused .outOfRange
  else body s

/-! ### Flash read, program and erase -/

/-- `FLASH[i]`: cell `i` of the array (R30; DEDUCED, log entry 17). -/
def flashCell (s : State) (i : Nat) : Half := readHalf s.flash (s.cfg.origin + 2 * i)

/-- `FlashRead16(a)`: the cell at `a`; while the busy flag is set, a free value (R60, R66). -/
def flashRead16 (a : Nat) (s : State) : Half × State :=
  if s.srBsy then drawHalf s else (readHalf s.flash a, s)

/-- `FlashWrite16(a, v)`: starts a program operation, is ignored with `CR.PG = 0`, and has no meaning while
busy (R61). -/
def flashWrite16 (a : Nat) (v : Half) (s : State) : Host.Outcome State Fault Refusal :=
  if s.crPg && !s.srBsy then .next { s with pend := .prog a v, srBsy := true }
  else if !s.crPg then .next s
  else .refused .flashWriteBusy

/-- `ProgramResult(old, v)`: `old AND v`, or a free value where the flash may fail (R64; DEDUCED, log entry
11). -/
def programResult (old v : Half) (s : State) : Half × State :=
  if s.cfg.flashReliable then (old &&& v, s) else drawHalf s

/-- `EraseResult(old)`: all ones, or a free value where the flash may fail (R64). -/
def eraseResult (s : State) : Half × State :=
  if s.cfg.flashReliable then (0xFFFF#16, s) else drawHalf s

/-- Writes `n` cells from address `a` upward, each with a value `f` gives. -/
def fillCells (f : State → Half × State) : Nat → Nat → State → State
  | 0, _, s => s
  | n + 1, a, s =>
    fillCells f n (a + 2) { (f s).2 with flash := writeHalf (f s).2.flash a (f s).1 }

/-- FCTL's completion step, enabled when something is in flight: a program changes its one cell (R63), an
erase every cell of the page (R65). -/
def fctlComplete (s : State) : State :=
  match s.pend with
  | .none => s
  | .prog a v =>
    { (programResult (readHalf s.flash a) v s).2 with
      flash := writeHalf s.flash a (programResult (readHalf s.flash a) v s).1
      pend := .none
      srBsy := false }
  | .erase a =>
    { fillCells eraseResult (pageCells s.cfg) (pageBase s.cfg a) s with
      pend := .none
      srBsy := false
      crStrt := false }

/-- FCTL's choice at this poll (R69): the first of `moves`, or `movesRest` when there is none. -/
def fctlReady (s : State) : Bool :=
  match s.moves with
  | [] => s.movesRest
  | m :: _ => m

/-- The choice at this poll is used up. -/
def usePoll (s : State) : State := { s with moves := s.moves.tail }

/-- `WaitNotBusy()`, standing at position `p`, then the rest of the operation (R70). With the busy flag clear
it returns at once. With it set, either FCTL's completion step comes first and the wait returns, or the
poll finds the flag set and SEQ stays where it is, to poll again in the next step: there is no other exit
(R191, D14). -/
def waitNotBusy (p : Pos) (rest : State → Host.Outcome State Fault Refusal) (s : State) :
    Host.Outcome State Fault Refusal :=
  if !s.srBsy then rest s
  else if fctlReady s && !decide (s.pend = .none) then rest (fctlComplete (usePoll s))
  else .next { usePoll s with pos := p }

end Sys2Proof.Machine
end

