-- ==== Sys2Proof/Machine/PageIo.lean ====
section
/-! DEFINITION. Page input and output `ERPG`, `RDPG`, `WRPG` (42_page_io.md R120 to R124). The page's base is
the latch `A` and the cell number the loop index `IDX` (R35, R36). -/

namespace Sys2Proof.Machine

/-- The address of cell `IDX` of the page at `A`. -/
def cellAddr (s : State) : Nat := s.a.toNat + 2 * s.idx

/-- The next cell. After the last, `IDX` is the loop's bound (R42; DEDUCED, log entry 10). -/
def nextIdx (s : State) : State := { s with idx := s.idx + 1 }

/-- The loop starts at its first value. -/
def startIdx (s : State) : State := { s with idx := 0 }

/-- How many cells are left, cell `IDX` among them. -/
def cellsLeft (s : State) : Nat := pageCells s.cfg - s.idx

/-- The scan of `ErasePageBody`: upward, until a cell is not `0xFFFF` (R121). Its first answer says that every
cell scanned was erased. -/
def eraseScan : Nat → State → Bool × State
  | 0, s => (true, s)
  | n + 1, s =>
    if (flashRead16 (cellAddr s) s).1 = 0xFFFF#16 then
      eraseScan n (nextIdx (flashRead16 (cellAddr s) s).2)
    else (false, (flashRead16 (cellAddr s) s).2)

/-- `ErasePageBody` after its second wait: disable erasing, scan the page, fail or go on (R121). -/
def eraseVerify (rest : State → Host.Outcome State Fault Refusal) (s : State) :
    Host.Outcome State Fault Refusal :=
  let r := eraseScan (pageCells s.cfg) (startIdx (clrPer s))
  if r.1 then rest r.2 else .next (failOp .eraseVerify r.2)

/-- `ErasePageBody` after its first wait: enable erasing, write the address register, start, wait (R121). -/
def eraseStart (p : Pos) (rest : State → Host.Outcome State Fault Refusal) (s : State) :
    Host.Outcome State Fault Refusal :=
  andThen (setPer s) fun t =>
    andThen (setStrt (writeAr t.a t)) (waitNotBusy p (eraseVerify rest))

/-- The end of `ERPG` (R121). -/
def erpgEnd (s : State) : Host.Outcome State Fault Refusal := .next (doneOp 0#32 s)

/-- `ERPG`: erase the page at `A` and verify it (R121). -/
def execErpg (a : Word) (s : State) : Host.Outcome State Fault Refusal :=
  accept 0x7#4 a 0#16 (pageOp a (waitNotBusy .erpgFirst (eraseStart .erpgErase erpgEnd))) s

/-- The loop of `RDPG`: each cell into two bytes of the buffer, low byte first (R122, R54). -/
def rdpgCells : Nat → State → State
  | 0, s => s
  | n + 1, s =>
    let r := flashRead16 (cellAddr s) s
    rdpgCells n (nextIdx { r.2 with pbuf := writeHalf r.2.pbuf (2 * s.idx) r.1 })

/-- `RDPG`: the page at `A` into the page buffer, without a wait (R122). -/
def execRdpg (a : Word) (s : State) : Host.Outcome State Fault Refusal :=
  accept 0x8#4 a 0#16
    (pageOp a fun s => .next (doneOp 0#32 (rdpgCells (pageCells s.cfg) (startIdx s)))) s

/-- The value `WRPG` writes to cell `IDX`: two bytes of the buffer, low byte first (R123, R54). -/
def pbufCell (s : State) : Half := readHalf s.pbuf (2 * s.idx)

/-- `WRPG` after the wait for cell `IDX`: read back and compare; abort on the first mismatch (R123, R124). -/
def wrpgVerify (rest : State → Host.Outcome State Fault Refusal) (s : State) :
    Host.Outcome State Fault Refusal :=
  let r := flashRead16 (cellAddr s) s
  if r.1 = pbufCell s then rest (nextIdx r.2) else .next (failOp .writeVerify (clrPg r.2))

/-- The loop of `WRPG` over the cells that are left: write, wait, verify; after the last, disable programming
and end (R123). -/
def wrpgCells : Nat → State → Host.Outcome State Fault Refusal
  | 0, s => .next (doneOp 0#32 (clrPg s))
  | n + 1, s =>
    andThen (flashWrite16 (cellAddr s) (pbufCell s) s)
      (waitNotBusy .wrpgCell (wrpgVerify (wrpgCells n)))

/-- `WRPG` after the wait that follows enabling programming: the loop from the first cell (R123). -/
def wrpgLoop (s : State) : Host.Outcome State Fault Refusal :=
  wrpgCells (pageCells s.cfg) (startIdx s)

/-- `WRPG` after its erase: enable programming, then wait (R123, C3). -/
def wrpgEnable (s : State) : Host.Outcome State Fault Refusal :=
  andThen (setPg s) (waitNotBusy .wrpgEnable wrpgLoop)

/-- `WRPG`: erase the page at `A`, program it from the buffer, verify each cell (R123). -/
def execWrpg (a : Word) (s : State) : Host.Outcome State Fault Refusal :=
  accept 0x9#4 a 0#16 (pageOp a (waitNotBusy .wrpgFirst (eraseStart .wrpgErase wrpgEnable))) s

end Sys2Proof.Machine
end

