-- ==== Sys2Proof/Machine/Crc.lean ====
section
/-! DEFINITION. The CRC engine (43_crc.md): the accumulator unit (R135 to R137), the pure functions (R138,
R139), the conditioning (R140, R143), `PGCRC` (R141), `REFL` (R142), and the byte-wise definition that R145
says it equals. -/

namespace Sys2Proof.Machine

/-- One shift-left step, reducing by the polynomial when the bit shifted out is 1 (R135; PRESUMED by the spec,
log entry 18). -/
def crcShift (poly c : Word) : Word :=
  if c.getLsbD 31 then (c <<< 1) ^^^ poly else c <<< 1

/-- `n` shift-left steps. -/
def crcShifts (poly : Word) : Nat → Word → Word
  | 0, c => c
  | n + 1, c => crcShifts poly n (crcShift poly c)

/-- `crcstep(acc, x)`: the word into the accumulator, then 32 steps (R135). -/
def crcStep (poly acc x : Word) : Word := crcShifts poly 32 (acc ^^^ x)

/-- `CrcReset()` (R136). -/
def crcReset (s : State) : State := { s with crcacc := s.cfg.crcInit }

/-- `CrcWrite(x)` (R135). -/
def crcWrite (x : Word) (s : State) : State := { s with crcacc := crcStep s.cfg.poly s.crcacc x }

/-- `CrcRead()` (R137). -/
def crcRead (s : State) : Word := s.crcacc

/-- One stage of the staged bit reversal: swap neighbouring groups of `k` bits, `mask` selecting the lower
group of each pair (R138). -/
def swapGroups (k : Nat) (mask v : Word) : Word :=
  ((v >>> k) &&& mask) ||| ((v &&& mask) <<< k)

/-- `reflect32(v)` in the staged form of the spec (R138). -/
def reflect32 (v : Word) : Word :=
  swapGroups 16 0x0000FFFF#32 (swapGroups 8 0x00FF00FF#32 (swapGroups 4 0x0F0F0F0F#32
    (swapGroups 2 0x33333333#32 (swapGroups 1 0x55555555#32 v))))

/-- `bswap16(h) = h[7:0] :: h[15:8]` (R139). -/
def bswap16 (h : Half) : Half := h.extractLsb' 0 8 ++ h.extractLsb' 8 8

/-- `condin(h0, h1)`: what the accumulator is fed for one word of the page (R140). -/
def condIn (reflectIn : Bool) (h0 h1 : Half) : Word :=
  if reflectIn then reflect32 (wordOf h0 h1)
  else ((bswap16 h0).setWidth 32 <<< 16) ||| (bswap16 h1).setWidth 32

/-- `condout(r)`: the result from the accumulator (R143). -/
def condOut (reflectOut : Bool) (finalXor r : Word) : Word :=
  (if reflectOut then reflect32 r else r) ^^^ finalXor

/-- The address of the lower half of word `IDX` of the page at `A`. -/
def crcAddr (s : State) : Nat := s.a.toNat + 4 * s.idx

/-- The loop of `PGCRC`: two cells, lower address first, conditioned and written to the data register
(R141). -/
def crcWords : Nat → State → State
  | 0, s => s
  | n + 1, s =>
    let r0 := flashRead16 (crcAddr s) s
    let r1 := flashRead16 (crcAddr s + 2) r0.2
    crcWords n (nextIdx (crcWrite (condIn s.cfg.reflectIn r0.1 r1.1) r1.2))

/-- The end of `PGCRC`: read, condition, reset the unit again, answer (R141). -/
def endPgcrc (s : State) : State :=
  doneOp (condOut s.cfg.reflectOut s.cfg.finalXor (crcRead s)) (crcReset s)

/-- `PGCRC`: the CRC of the page at `A`; refused while the CRC unit has no clock (R141, R33). -/
def execPgcrc (a : Word) (s : State) : Host.Outcome State Fault Refusal :=
  accept 0xA#4 a 0#16
    (pageOp a fun s =>
      if !s.crcen then .refused .crcClockOff
      else .next (endPgcrc (crcWords (pageWords s.cfg) (startIdx (crcReset s))))) s

/-- `REFL`: bit reversal of the operand (R142). -/
def execRefl (v : Word) (s : State) : Host.Outcome State Fault Refusal :=
  accept 0xB#4 v 0#16 (fun s => .next (doneOp (reflect32 v) s)) s

/-! ### The byte-wise CRC of R145 -/

/-- `rev8`: the bits of a byte reversed (R140). -/
def rev8 (b : Byte) : Byte := b.reverse

/-- One byte of the byte-wise CRC: into the top byte, then 8 steps (R145). -/
def crcByte (poly : Word) (reflectIn : Bool) (c : Word) (b : Byte) : Word :=
  crcShifts poly 8 (c ^^^ ((if reflectIn then rev8 b else b).setWidth 32 <<< 24))

/-- The byte-wise CRC of a list of bytes, in order (R145). -/
def bytewiseCrc (cfg : Config) (bs : List Byte) : Word :=
  condOut cfg.reflectOut cfg.finalXor (bs.foldl (crcByte cfg.poly cfg.reflectIn) cfg.crcInit)

/-- The bytes of the page at `a`, in address order (R145). -/
def pageBytes (s : State) (a : Nat) : List Byte :=
  (List.range s.cfg.pageSize).map fun j => readByte s.flash (a + j)

end Sys2Proof.Machine
end

