-- ==== Sys2Proof/Machine/Lock.lean ====
section
/-! DEFINITION. The lock state operations `INIT`, `ISLOCKED`, `UNLOCK`, `LOCK` (40_lock.md R100 to R103). -/

namespace Sys2Proof.Machine

/-- The two key writes, with no access between them (R102, R184). -/
def writeKeys (s : State) : State := keyWrite s.cfg.key2 (keyWrite s.cfg.key1 s)

/-- The check after the two key writes (R102). -/
def endUnlock (s : State) : State :=
  if s.crLock then failOp .unlock s else doneOp 0#32 s

/-- `INIT`: enable the CRC clock, write the keys, check the lock bit (R100). -/
def execInit (s : State) : Host.Outcome State Fault Refusal :=
  accept 0x1#4 0#32 0#16 (fun s => .next (endUnlock (writeKeys { s with crcen := true }))) s

/-- `ISLOCKED`: the lock bit, read afresh (R101). -/
def execIslocked (s : State) : Host.Outcome State Fault Refusal :=
  accept 0x2#4 0#32 0#16 (fun s => .next (doneOp ((BitVec.ofBool s.crLock).setWidth 32) s)) s

/-- `UNLOCK`: write the keys, check the lock bit (R102). -/
def execUnlock (s : State) : Host.Outcome State Fault Refusal :=
  accept 0x3#4 0#32 0#16 (fun s => .next (endUnlock (writeKeys s))) s

/-- `LOCK`: set the lock bit, no read-back (R103). -/
def execLock (s : State) : Host.Outcome State Fault Refusal :=
  accept 0x4#4 0#32 0#16 (fun s => .next (doneOp 0#32 (setLock s))) s

end Sys2Proof.Machine
end

