-- ==== Sys2Proof/Machine/WordIo.lean ====
section
/-! DEFINITION. Word input and output `RDHW`, `WRHW` (41_word_io.md R110, R111). -/

namespace Sys2Proof.Machine

/-- `RDHW`: one read of the cell at `A`, without a wait (R110). -/
def execRdhw (a : Word) (s : State) : Host.Outcome State Fault Refusal :=
  accept 0x5#4 a 0#16
    (wordOp a fun s =>
      .next (doneOp ((flashRead16 a.toNat s).1.setWidth 32) (flashRead16 a.toNat s).2)) s

/-- `WRHW` after its second wait: clear programming, read back and compare (R111). -/
def wrhwVerify (s : State) : Host.Outcome State Fault Refusal :=
  let r := flashRead16 s.a.toNat (clrPg s)
  .next (if r.1 = s.h then doneOp 0#32 r.2 else failOp .writeVerify r.2)

/-- `WRHW` after its first wait: enable programming, write the cell, wait (R111). -/
def wrhwWrite (s : State) : Host.Outcome State Fault Refusal :=
  andThen (setPg s) fun t =>
    andThen (flashWrite16 t.a.toNat t.h t) (waitNotBusy .wrhwProgram wrhwVerify)

/-- `WRHW`: wait, enable, write, wait, disable, read back and compare (R111). -/
def execWrhw (a : Word) (h : Half) (s : State) : Host.Outcome State Fault Refusal :=
  accept 0x6#4 a h (wordOp a (waitNotBusy .wrhwFirst wrhwWrite)) s

end Sys2Proof.Machine
end

