-- ==== Sys2Proof/Machine/Dispatch.lean ====
section
/-! DEFINITION. One arm per operation, each a direct call of its meaning. -/

namespace Sys2Proof.Machine

def exec (i : Instr) (s : State) : Host.Outcome State Fault Refusal :=
  match i with
  | .init => Sys2Proof.Machine.execInit s
  | .islocked => Sys2Proof.Machine.execIslocked s
  | .unlock => Sys2Proof.Machine.execUnlock s
  | .lock => Sys2Proof.Machine.execLock s
  | .rdhw a => Sys2Proof.Machine.execRdhw a s
  | .wrhw a h => Sys2Proof.Machine.execWrhw a h s
  | .erpg a => Sys2Proof.Machine.execErpg a s
  | .rdpg a => Sys2Proof.Machine.execRdpg a s
  | .wrpg a => Sys2Proof.Machine.execWrpg a s
  | .pgcrc a => Sys2Proof.Machine.execPgcrc a s
  | .refl v => Sys2Proof.Machine.execRefl v s

end Sys2Proof.Machine
end

