-- ==== Sys2Proof/Decode.lean ====
section
/-! DEFINITION. Decoding, total on every 64-bit word (30_encoding.md R94), and encoding, its inverse. -/

namespace Sys2Proof

/-- `CMD[63:60]`, the opcode (R80). -/
def cmdOpc (c : Packet) : BitVec 4 := c.extractLsb' 60 4

/-- `CMD[59:48]`, the reserved field (R80). -/
def cmdRsv (c : Packet) : BitVec 12 := c.extractLsb' 48 12

/-- `CMD[47:32]`, the half-word operand (R80). -/
def cmdH (c : Packet) : Half := c.extractLsb' 32 16

/-- `CMD[31:0]`, the 32-bit operand (R80). -/
def cmdA (c : Packet) : Word := c.extractLsb' 0 32

/-- Why a command word is illegal (R84, R85). -/
inductive Illegal where
  /-- `RSV` is not zero. -/
  | reservedField
  /-- The opcode is `0x0` or `0xC` to `0xF`. -/
  | reservedOpcode
  /-- An operand field the format does not use is not zero. -/
  | unusedField
  deriving DecidableEq, Repr

/-- Format `N`: no operand, so `H` and `A` are zero (R81). -/
def decodeN (c : Packet) (i : Instr) : Except Illegal Instr :=
  if cmdH c = 0#16 ∧ cmdA c = 0#32 then .ok i else .error .unusedField

/-- Formats `A` and `V`: `A` is the operand, `H` is zero (R81). -/
def decodeA (c : Packet) (i : Word → Instr) : Except Illegal Instr :=
  if cmdH c = 0#16 then .ok (i (cmdA c)) else .error .unusedField

/-- The decoder of R94. -/
def decode (c : Packet) : Except Illegal Instr :=
  if cmdRsv c ≠ 0#12 then .error .reservedField
  else match (cmdOpc c).toNat with
    | 1 => decodeN c .init
    | 2 => decodeN c .islocked
    | 3 => decodeN c .unlock
    | 4 => decodeN c .lock
    | 5 => decodeA c .rdhw
    | 6 => .ok (.wrhw (cmdA c) (cmdH c))
    | 7 => decodeA c .erpg
    | 8 => decodeA c .rdpg
    | 9 => decodeA c .wrpg
    | 10 => decodeA c .pgcrc
    | 11 => decodeA c .refl
    | _ => .error .reservedOpcode

/-- The opcode of an operation (R82). -/
def Instr.opcode : Instr → BitVec 4
  | .init => 0x1#4
  | .islocked => 0x2#4
  | .unlock => 0x3#4
  | .lock => 0x4#4
  | .rdhw _ => 0x5#4
  | .wrhw _ _ => 0x6#4
  | .erpg _ => 0x7#4
  | .rdpg _ => 0x8#4
  | .wrpg _ => 0x9#4
  | .pgcrc _ => 0xA#4
  | .refl _ => 0xB#4

/-- The operand `A` of an operation, zero where its format has none (R81). -/
def Instr.operandA : Instr → Word
  | .init => 0#32
  | .islocked => 0#32
  | .unlock => 0#32
  | .lock => 0#32
  | .rdhw a => a
  | .wrhw a _ => a
  | .erpg a => a
  | .rdpg a => a
  | .wrpg a => a
  | .pgcrc a => a
  | .refl v => v

/-- The operand `H` of an operation, zero in every format but `AH` (R81). -/
def Instr.operandH : Instr → Half
  | .init => 0#16
  | .islocked => 0#16
  | .unlock => 0#16
  | .lock => 0#16
  | .rdhw _ => 0#16
  | .wrhw _ h => h
  | .erpg _ => 0#16
  | .rdpg _ => 0#16
  | .wrpg _ => 0#16
  | .pgcrc _ => 0#16
  | .refl _ => 0#16

/-- Encoding: `c = (OPC << 60) OR (H << 32) OR A`, `RSV` zero (R94). -/
def encode (i : Instr) : Packet :=
  i.opcode ++ 0#12 ++ i.operandH ++ i.operandA

/-- What the decoder reads from an instruction whose bits are `w`. A command is one 64-bit word (R80), so
the table's numbering of the bits is the word's own. -/
def decodeTableWord (nbits w : Nat) : Option Instr :=
  if nbits ≤ 64 then
    match decode (BitVec.ofNat 64 w) with
    | .ok i => some i
    | .error _ => none
  else none

end Sys2Proof
end

