-- ==== Sys2Proof/Machine/Reset.lean ====
section
/-! DEFINITION. The reset event (10_state.md R43, 70_reset_and_hazards.md R180, R181): the registers take
their reset values, what R43 calls unspecified is drawn anew, `FLASH` is kept but for the cells of a program
or erase in flight, which are drawn. -/

namespace Sys2Proof.Machine

/-- The cells that the program or erase in flight was changing are left with free values (R181). -/
def resetFlash (s : State) : State :=
  match s.pend with
  | .none => s
  | .prog a _ => fillCells drawHalf 1 a s
  | .erase a => fillCells drawHalf (pageCells s.cfg) (pageBase s.cfg a) s

/-- `n` bytes of the page buffer from index `j` upward are drawn (R43). -/
def drawPbuf : Nat → Nat → State → State
  | 0, _, s => s
  | n + 1, j, s =>
    drawPbuf n (j + 1) { (drawByte s).2 with pbuf := writeByte (drawByte s).2.pbuf j (drawByte s).1 }

/-- The registers after reset: the values of R43, and a free value of the register's width where R43 says
unspecified (DEDUCED, log entry 19). -/
def resetRegs (s : State) : State :=
  { s with
    keyst := .k0
    crLock := true
    crPg := false
    crPer := false
    crStrt := false
    srBsy := false
    pend := .none
    crcacc := s.cfg.crcInit
    crcen := false
    run := false
    pos := .idle
    ar := Config.free s.draws
    opc := (Config.free (s.draws + 1)).setWidth 4
    a := Config.free (s.draws + 2)
    h := (Config.free (s.draws + 3)).setWidth 16
    idx := (Config.free (s.draws + 4)).toNat % (pageCells s.cfg + 1)
    ok := (Config.free (s.draws + 5)).getLsbD 0
    err := (Config.free (s.draws + 6)).setWidth 4
    val := Config.free (s.draws + 7)
    draws := s.draws + 8 }

/-- The reset event. No response is produced for an operation it interrupts (R181). -/
def resetEvent (s : State) : State :=
  drawPbuf s.cfg.pageSize 0 (resetRegs (resetFlash s))

end Sys2Proof.Machine
end

