-- ==== Sys2Proof/Machine/Port.lean ====
section
/-! DEFINITION. What a step does around an operation: HOST's moves at the command port and the page buffer
(30_encoding.md R93, 20_memory.md R72, 70_reset_and_hazards.md R195), an illegal command (R85), and SEQ going
on with an operation whose last poll found the busy flag set (R42, R70). -/

namespace Sys2Proof.Machine

/-- An illegal command: accepted like any other, nothing touched, ends at once (R85, R163). -/
def illegalCommand (c : Packet) (s : State) : Host.Outcome State Fault Refusal :=
  accept (cmdOpc c) (cmdA c) (cmdH c) (fun s => .next (failOp .illegalCmd s)) s

/-- The rest of the operation SEQ is in, from the wait it stands at (R42). -/
def resumeAt : Pos → State → Host.Outcome State Fault Refusal
  | .idle, _ => .fault .noStatement
  | .wrhwFirst, s => waitNotBusy .wrhwFirst wrhwWrite s
  | .wrhwProgram, s => waitNotBusy .wrhwProgram wrhwVerify s
  | .erpgFirst, s => waitNotBusy .erpgFirst (eraseStart .erpgErase erpgEnd) s
  | .erpgErase, s => waitNotBusy .erpgErase (eraseVerify erpgEnd) s
  | .wrpgFirst, s => waitNotBusy .wrpgFirst (eraseStart .wrpgErase wrpgEnable) s
  | .wrpgErase, s => waitNotBusy .wrpgErase (eraseVerify wrpgEnable) s
  | .wrpgEnable, s => waitNotBusy .wrpgEnable wrpgLoop s
  | .wrpgCell, s => waitNotBusy .wrpgCell (wrpgVerify (wrpgCells (cellsLeft s - 1))) s

/-- The latched operands are ones with which SEQ can stand at this position: an operation that waits has
passed its alignment and range checks, and a loop waits only below its bound (R36, R165; DESIGN CHOICE, log
entry 14). -/
def latchesFit (s : State) : Bool :=
  match s.pos with
  | .idle => false
  | .wrhwFirst => halfAligned s.a && inFlash s.cfg s.a.toNat 2
  | .wrhwProgram => halfAligned s.a && inFlash s.cfg s.a.toNat 2
  | .erpgFirst => pageAligned s.cfg s.a && inFlash s.cfg s.a.toNat s.cfg.pageSize
  | .erpgErase => pageAligned s.cfg s.a && inFlash s.cfg s.a.toNat s.cfg.pageSize
  | .wrpgFirst => pageAligned s.cfg s.a && inFlash s.cfg s.a.toNat s.cfg.pageSize
  | .wrpgErase => pageAligned s.cfg s.a && inFlash s.cfg s.a.toNat s.cfg.pageSize
  | .wrpgEnable => pageAligned s.cfg s.a && inFlash s.cfg s.a.toNat s.cfg.pageSize
  | .wrpgCell =>
    pageAligned s.cfg s.a && inFlash s.cfg s.a.toNat s.cfg.pageSize && decide (s.idx < pageCells s.cfg)

/-- SEQ goes on while `RUN = 1`; an idle block stays as it is (R180: it executes nothing until HOST presents
a command). -/
def advance (s : State) : Host.Outcome State Fault Refusal :=
  if !s.run then .next s
  else if latchesFit s then resumeAt s.pos s
  else .fault .noStatement

/-- HOST writes one byte of the page buffer (R38, R72); a byte it does not have is a fault (DESIGN CHOICE, log
entry 15). -/
def hostPbufWrite (j : Nat) (b : Byte) (s : State) : Host.Outcome State Fault Refusal :=
  if j < s.cfg.pageSize then .next { s with pbuf := writeByte s.pbuf j b } else .fault .pbufIndex

/-- HOST's first move is used up. -/
def useMove (s : State) : State := { s with host := s.host.tail }

/-- The command word the next step takes from the command port: HOST's first move, when it presents a
command and `RUN = 0` (R93). -/
def portCommand (s : State) : Option Packet :=
  if !s.cfg.wf || s.run then none
  else match s.host with
    | .command c :: _ => some c
    | _ => none

/-- A step that takes no command: HOST's reset, at any time; HOST's write of the page buffer, while `RUN = 0`;
else SEQ goes on. A command or a write that HOST has next waits while `RUN = 1` (R93, R195; DEDUCED, log entry
15). -/
def stepWithoutCommand (s : State) : Host.Outcome State Fault Refusal :=
  if !s.cfg.wf then .refused .badConfig
  else match s.host with
    | .reset :: _ => .next (resetEvent (useMove s))
    | .idle :: _ => advance (useMove s)
    | .pbufWrite j b :: _ => if s.run then advance s else hostPbufWrite j b (useMove s)
    | .command _ :: _ => advance s
    | [] => advance s

/-- HOST presents the command word `c` to an idle block, before its other moves (R93). A command is
presented from outside the machine: nothing of the block holds it (log entry 7). -/
def presentCommand (c : Packet) (s : State) : State :=
  { s with run := false, pos := .idle, host := .command c :: s.host }

end Sys2Proof.Machine
end

