-- ==== Sys2Proof/Machine/Step.lean ====
section
/-! DEFINITION. One step of the machine: the block takes the command HOST presents and executes it
(30_encoding.md R93, R94), or does what it does when there is none to take. -/

namespace Sys2Proof.Machine

/-- One step. The operation is the unit of execution (00_scope.md R3): a step runs a command to its end, or to
a poll that finds the busy flag set, from where the next step goes on. -/
def step (s : State) : Host.Outcome State Fault Refusal :=
  match portCommand s with
  | some c =>
    match decode c with
    | .ok i => exec i (useMove s)
    | .error _ => illegalCommand c (useMove s)
  | none => stepWithoutCommand s

/-- The state with the command whose bits are `w` presented at the command port, so that the next step
executes it. A command is one 64-bit word (R80). -/
def State.withFetchWord (s : State) (_nbits w : Nat) : State :=
  presentCommand (BitVec.ofNat 64 w) s

end Sys2Proof.Machine
end

