-- ==== Sys2Proof/Machine/Asm.lean ====
section
/-! DEFINITION. The assembler of 30_encoding.md R91, R92: mnemonics with their operands in the document's order,
the two directives for what HOST does between commands, and the text of a line. What R91 leaves open of the
text is in log entry 12. -/

namespace Sys2Proof.Machine

/-- One line of a command stream. -/
inductive AsmLine where
  /-- A mnemonic and its operands. -/
  | op (mnemonic : String) (args : List Nat)
  /-- `.pbuf`: HOST writes the bytes to `PBUF[0], PBUF[1], ...`. -/
  | pbuf (bytes : List Nat)
  /-- `.fill`: HOST writes the byte to every byte of the buffer. -/
  | fill (byte : Nat)
  deriving DecidableEq, Repr

/-- A 32-bit operand; a value that does not fit is rejected, not truncated (R91). -/
def asmWord (n : Nat) : Option Word := if n < 2 ^ 32 then some (BitVec.ofNat 32 n) else none

/-- A 16-bit operand. -/
def asmHalf (n : Nat) : Option Half := if n < 2 ^ 16 then some (BitVec.ofNat 16 n) else none

/-- A byte. -/
def asmByte (n : Nat) : Option Byte := if n < 2 ^ 8 then some (BitVec.ofNat 8 n) else none

/-- One operation (R91); there are no pseudo-operations (R92). -/
def asmOp (m : String) (args : List Nat) : Option Instr :=
  match args with
  | [] =>
    if m = "INIT" then some .init
    else if m = "ISLOCKED" then some .islocked
    else if m = "UNLOCK" then some .unlock
    else if m = "LOCK" then some .lock
    else none
  | [n] =>
    if m = "RDHW" then (asmWord n).map .rdhw
    else if m = "ERPG" then (asmWord n).map .erpg
    else if m = "RDPG" then (asmWord n).map .rdpg
    else if m = "WRPG" then (asmWord n).map .wrpg
    else if m = "PGCRC" then (asmWord n).map .pgcrc
    else if m = "REFL" then (asmWord n).map .refl
    else none
  | [n, k] =>
    if m = "WRHW" then (asmWord n).bind fun a => (asmHalf k).map fun h => .wrhw a h
    else none
  | _ => none

/-- The operands of an operation in the order of the document's argument lists (R91). -/
def asmArgs : Instr → List Nat
  | .init => []
  | .islocked => []
  | .unlock => []
  | .lock => []
  | .rdhw a => [a.toNat]
  | .wrhw a h => [a.toNat, h.toNat]
  | .erpg a => [a.toNat]
  | .rdpg a => [a.toNat]
  | .wrpg a => [a.toNat]
  | .pgcrc a => [a.toNat]
  | .refl v => [v.toNat]

/-- HOST's writes of the bytes from index `j` upward. -/
def asmPbuf : Nat → List Nat → Option (List HostMove)
  | _, [] => some []
  | j, n :: ns =>
    (asmByte n).bind fun b => (asmPbuf (j + 1) ns).map fun rest => .pbufWrite j b :: rest

/-- What HOST does for one line. A `.pbuf` of any count but `PAGE_SIZE` is an error (R91). -/
def asmLine (c : Config) : AsmLine → Option (List HostMove)
  | .op m args => (asmOp m args).map fun i => [.command (encode i)]
  | .pbuf bytes => if bytes.length = c.pageSize then asmPbuf 0 bytes else none
  | .fill byte => asmPbuf 0 (List.replicate c.pageSize byte)

/-! ### The text of a line -/

/-- Blanks between the parts of a line. -/
def isBlank (c : Char) : Bool := c == ' ' || c == '\t'

/-- Characters without the blanks at both ends. -/
def trimBlanks (cs : List Char) : List Char :=
  ((cs.dropWhile isBlank).reverse.dropWhile isBlank).reverse

/-- The operands between commas. -/
def splitCommas : List Char → List (List Char)
  | [] => [[]]
  | c :: cs =>
    match splitCommas cs with
    | [] => [[c]]
    | f :: fs => if c = ',' then [] :: f :: fs else (c :: f) :: fs

/-- A decimal or hexadecimal digit. -/
def digitValue (c : Char) : Option Nat :=
  if '0'.toNat ≤ c.toNat ∧ c.toNat ≤ '9'.toNat then some (c.toNat - '0'.toNat)
  else if 'a'.toNat ≤ c.toNat ∧ c.toNat ≤ 'f'.toNat then some (c.toNat - 'a'.toNat + 10)
  else if 'A'.toNat ≤ c.toNat ∧ c.toNat ≤ 'F'.toNat then some (c.toNat - 'A'.toNat + 10)
  else none

/-- The digits of a number after those that gave `acc`; an underscore is a separator only (00_scope.md R10).
R10 does not say where it may stand: it is skipped anywhere after `0x` or in a decimal number, first, last
and doubled too, however short the number is (DESIGN CHOICE, log entry 12). -/
def digitsValue (base : Nat) : Nat → List Char → Option Nat
  | acc, [] => some acc
  | acc, c :: cs =>
    if c = '_' then digitsValue base acc cs
    else (digitValue c).bind fun d =>
      if d < base then digitsValue base (acc * base + d) cs else none

/-- A number: hexadecimal after `0x`, else decimal (00_scope.md R10), with at least one digit. -/
def asmNumber (cs : List Char) : Option Nat :=
  match cs with
  | '0' :: 'x' :: ds => if ds.any (· != '_') then digitsValue 16 0 ds else none
  | ds => if ds.any (· != '_') then digitsValue 10 0 ds else none

/-- The numbers of a list of operands. -/
def asmNumbers : List (List Char) → Option (List Nat)
  | [] => some []
  | f :: fs => (asmNumber (trimBlanks f)).bind fun n => (asmNumbers fs).map fun ns => n :: ns

/-- The operands of a line: none, or numbers separated by commas (R91). -/
def asmOperands (cs : List Char) : Option (List Nat) :=
  if (trimBlanks cs).isEmpty then some [] else asmNumbers (splitCommas cs)

/-- A line without its comment, which starts at `;` (R91), and without the blanks around it. -/
def asmBody (cs : List Char) : List Char := trimBlanks (cs.takeWhile (· != ';'))

/-- The line that a text is: its first word is a mnemonic or one of the two directives (R91). -/
def asmWords (cs : List Char) : Option AsmLine :=
  let word := cs.takeWhile fun c => !isBlank c
  (asmOperands (cs.dropWhile fun c => !isBlank c)).bind fun args =>
    if word = ['.', 'p', 'b', 'u', 'f'] then some (.pbuf args)
    else if word = ['.', 'f', 'i', 'l', 'l'] then
      match args with
      | [n] => some (.fill n)
      | _ => none
    else some (.op (String.ofList word) args)

/-- What HOST does for a command stream, one line after another; a line that holds nothing but a comment is
nothing, and one error rejects the stream (R91). -/
def asmSource (c : Config) : List (List Char) → Option (List HostMove)
  | [] => some []
  | l :: ls =>
    if (asmBody l).isEmpty then asmSource c ls
    else (asmWords (asmBody l)).bind fun line => (asmLine c line).bind fun moves =>
      (asmSource c ls).map fun rest => moves ++ rest

end Sys2Proof.Machine
end

