-- ==== Sys2Proof/Machine/RegMap.lean ====
section
/-! DEFINITION. The optional memory-mapped view of FCTL and CRCU (30_encoding.md R89, R90). No operation goes
through it: the spec's rules name registers and bits, never numbers (PRESUMED, log entry 16). -/

namespace Sys2Proof.Machine

/-- The registers that have an address. -/
inductive RegName where
  | keyr
  | sr
  | cr
  | ar
  | crcDr
  | crcCr
  deriving DecidableEq, Repr

/-- The address of a register (R89, R90). The sum is one of 32 bits: the bases have no constraint, and for a
base so high that it would not fit it wraps (DESIGN CHOICE, log entry 16). -/
def regAddr (c : Config) : RegName → Word
  | .keyr => c.fctlBase + 0x04#32
  | .sr => c.fctlBase + 0x0C#32
  | .cr => c.fctlBase + 0x10#32
  | .ar => c.fctlBase + 0x14#32
  | .crcDr => c.crcuBase + 0x00#32
  | .crcCr => c.crcuBase + 0x08#32

/-- The status register: `[0]` `BSY`, the other bits zero (R89). -/
def srWord (s : State) : Word := (BitVec.ofBool s.srBsy).setWidth 32

/-- The control register: `[0]` `PG`, `[1]` `PER`, `[6]` `STRT`, `[7]` `LOCK`, the other bits zero (R89). -/
def crWord (s : State) : Word :=
  (BitVec.ofBool s.crLock ++ BitVec.ofBool s.crStrt ++ 0#4 ++ BitVec.ofBool s.crPer
    ++ BitVec.ofBool s.crPg).setWidth 32

/-- A read of a register: no side effect (20_memory.md R67). `KEYR` and `AR` are write only (R17, U9). -/
def regRead (r : RegName) (s : State) : Except Refusal Word :=
  match r with
  | .keyr => .error .registerAccess
  | .sr => .ok (srWord s)
  | .cr => .ok (crWord s)
  | .ar => .error .registerAccess
  | .crcDr => if s.crcen then .ok (crcRead s) else .error .crcClockOff
  | .crcCr => if s.crcen then .ok 0#32 else .error .crcClockOff

/-- A 32-bit write of a register. `SR` is read only; `CR` is written one bit at a time (`regSetBit`,
`regClrBit`). -/
def regWrite (r : RegName) (v : Word) (s : State) : Host.Outcome State Fault Refusal :=
  match r with
  | .keyr => .next (keyWrite v s)
  | .sr => .refused .registerAccess
  | .cr => .refused .registerAccess
  | .ar => .next (writeAr v s)
  | .crcDr => if s.crcen then .next (crcWrite v s) else .refused .crcClockOff
  | .crcCr =>
    if s.crcen then .next (if v.getLsbD 0 then crcReset s else s) else .refused .crcClockOff

/-- Setting the bit of `CR` with that number (R25, R89). -/
def regSetBit (bit : Nat) (s : State) : Host.Outcome State Fault Refusal :=
  match bit with
  | 0 => setPg s
  | 1 => setPer s
  | 6 => setStrt s
  | 7 => .next (setLock s)
  | _ => .refused .registerAccess

/-- Clearing the bit of `CR` with that number: `ClrCR(LOCK)` and `ClrCR(STRT)` do not exist (R25). -/
def regClrBit (bit : Nat) (s : State) : Host.Outcome State Fault Refusal :=
  match bit with
  | 0 => .next (clrPg s)
  | 1 => .next (clrPer s)
  | _ => .refused .registerAccess

end Sys2Proof.Machine
end

