-- ==== Sys2Proof/Safety.lean ====
section
/-! DEFINITION. What claims about the block speak of: a block that accepts a command, FCTL's coming behaviour,
the idle state of 10_state.md R40, and the invariant of every run. -/

namespace Sys2Proof.Machine

/-- The block accepts a command: its configuration meets R6 and it is not running (R93). -/
def Accepting (s : State) : Prop := s.cfg.wf = true ∧ s.run = false

/-- FCTL completes before every poll SEQ makes from here on. With it an operation ends in the step that
starts it; it says nothing about time (R192). -/
def Prompt (s : State) : Prop := s.movesRest = true ∧ ∀ m ∈ s.moves, m = true

/-- Weak fairness (R69): only finitely many polls come before a completion step that is enabled. -/
def Fair (s : State) : Prop := s.movesRest = true

/-- FCTL never takes its completion step: the stuck peripheral of R191. -/
def Stuck (s : State) : Prop := s.movesRest = false ∧ ∀ m ∈ s.moves, m = false

/-- The idle state of R40, for the registers of FCTL and CRCU. -/
structure IdleRegs (s : State) : Prop where
  bsy : s.srBsy = false
  pend : s.pend = .none
  pg : s.crPg = false
  per : s.crPer = false
  strt : s.crStrt = false
  acc : s.crcacc = s.cfg.crcInit

/-- The latched operand is the address of a cell of the array. -/
def CellOperand (s : State) : Prop :=
  halfAligned s.a = true ∧ inFlash s.cfg s.a.toNat 2 = true

/-- The latched operand is the address of a page of the array. -/
def PageOperand (s : State) : Prop :=
  pageAligned s.cfg s.a = true ∧ inFlash s.cfg s.a.toNat s.cfg.pageSize = true

/-- What holds at the position where SEQ waits, for each position a run can wait at. The latch `OPC` is that of
the operation SEQ is in (R35). -/
def WaitsFor (s : State) : Prop :=
  match s.pos with
  | .wrhwProgram =>
    CellOperand s ∧ s.pend = .prog s.a.toNat s.h ∧ s.crPg = true ∧ s.crPer = false ∧ s.opc = 0x6#4
  | .erpgErase =>
    PageOperand s ∧ s.pend = .erase s.a.toNat ∧ s.ar = s.a ∧ s.crPg = false ∧ s.crPer = true ∧
      s.opc = 0x7#4
  | .wrpgErase =>
    PageOperand s ∧ s.pend = .erase s.a.toNat ∧ s.ar = s.a ∧ s.crPg = false ∧ s.crPer = true ∧
      s.opc = 0x9#4
  | .wrpgCell =>
    PageOperand s ∧ s.idx < pageCells s.cfg ∧ s.pend = .prog (cellAddr s) (pbufCell s) ∧
      s.crPg = true ∧ s.crPer = false ∧ s.opc = 0x9#4
  | _ => False

/-- The invariant of every run. -/
structure Inv (s : State) : Prop where
  /-- The configuration meets R6. -/
  config : s.cfg.wf = true
  /-- `CR.LOCK = 0` if and only if `KEYST = OPEN` (R18). -/
  lock : s.crLock = false ↔ s.keyst = .opened
  /-- `DEAD` is reachable only when the lock-out is sticky (R18). -/
  dead : s.keyst = .dead → s.cfg.keyLockoutSticky = true
  /-- `SR.BSY = 1` if and only if something is in flight (R29). -/
  busy : s.srBsy = true ↔ s.pend ≠ .none
  /-- `CR.STRT = 1` if and only if an erase is in flight (R29). -/
  start : s.crStrt = true ↔ ∃ a, s.pend = .erase a
  /-- Between operations the block is idle (R40). -/
  idle : s.run = false → IdleRegs s ∧ s.pos = .idle
  /-- A running operation waits, unlocked, for what it started. -/
  running : s.run = true → WaitsFor s ∧ s.crLock = false ∧ s.crcacc = s.cfg.crcInit
  /-- The loop index is in its range (R15, R36). -/
  index : s.idx ≤ pageCells s.cfg
  /-- `FLASH` is in canonical form. -/
  flashWf : Memory.wf s.flash
  /-- `FLASH` holds bytes of the region only (R50). -/
  flashIn : ∀ x ∈ s.flash, inFlash s.cfg x.1 1 = true
  /-- `PBUF` is in canonical form. -/
  pbufWf : Memory.wf s.pbuf
  /-- `PBUF` has exactly `PAGE_SIZE` bytes (R38). -/
  pbufIn : ∀ x ∈ s.pbuf, x.1 < s.cfg.pageSize

/-- How an operation ends that the block accepted in `s` and that succeeded with the value `v`: operands
latched (R35, R83), response written and `RUN` cleared (R166), everything else as in `s`. -/
def succeeded (i : Instr) (v : Word) (s : State) : State :=
  { s with
    opc := i.opcode, a := i.operandA, h := i.operandH
    run := false, pos := .idle, ok := true, err := 0#4, val := v }

/-- How an operation ends that the block accepted in `s` and that failed with the error `e` (R166). -/
def failed (i : Instr) (e : ErrCode) (s : State) : State :=
  { s with
    opc := i.opcode, a := i.operandA, h := i.operandH
    run := false, pos := .idle, ok := false, err := errBits e, val := 0#32 }

/-- The error codes each operation can produce (R157 to R163). -/
def errorsOf : Instr → List ErrCode
  | .init => [.unlock]
  | .islocked => []
  | .unlock => [.unlock]
  | .lock => []
  | .rdhw _ => [.alignHw]
  | .wrhw _ _ => [.alignHw, .writeVerify]
  | .erpg _ => [.alignPage, .eraseVerify]
  | .rdpg _ => [.alignPage]
  | .wrpg _ => [.alignPage, .eraseVerify, .writeVerify]
  | .pgcrc _ => [.alignPage]
  | .refl _ => []

/-- How many bytes of the flash array an operation addresses from its operand `A` on (R58); 0 where the
operand is no address. -/
def bytesAddressed (c : Config) : Instr → Nat
  | .init => 0
  | .islocked => 0
  | .unlock => 0
  | .lock => 0
  | .rdhw _ => 2
  | .wrhw _ _ => 2
  | .erpg _ => c.pageSize
  | .rdpg _ => c.pageSize
  | .wrpg _ => c.pageSize
  | .pgcrc _ => c.pageSize
  | .refl _ => 0

/-- What a claim compares memories by: every byte outside `n` bytes from `a` reads as before. -/
def SameOutside (m m' : Memory) (a n : Nat) : Prop :=
  ∀ x, (x < a ∨ a + n ≤ x) → readByte m' x = readByte m x

/-- SEQ goes on with the operation in progress in this step: `RUN = 1`, and HOST's move is not the reset. -/
def GoesOn (s t : State) : Prop :=
  s.run = true ∧ s.host.head? ≠ some .reset ∧ step s = .next t

/-- HOST's moves after such a step: a move that does nothing is used up, a command or a write of the buffer
waits (log entries 7 and 15). -/
def hostAfter (s : State) : List HostMove :=
  if s.host.head? = some .idle then s.host.tail else s.host

/-- How many bytes from the latch `A` on an operation that waits may change: the cell of `WRHW`, the page of
`ERPG` and `WRPG`. -/
def bytesInFlight (s : State) : Nat := if s.opc = 0x6#4 then 2 else s.cfg.pageSize

/-- What a finished operation's response fulfils (R37, R87, R88). -/
def ResponseOk (s : State) : Prop :=
  (s.ok = true ↔ s.err = 0#4) ∧ (s.ok = false → s.val = 0#32) ∧ s.err.toNat ≤ 6

/-- What programming a cell that holds `old` leaves, the draw being number `d` where the flash may fail
(R64). -/
def programmed (c : Config) (d : Nat) (old v : Half) : Half :=
  if c.flashReliable then old &&& v else (Config.free d).setWidth 16

/-- What erasing a cell leaves, the draw being number `d` where the flash may fail (R64). -/
def erased (c : Config) (d : Nat) : Half :=
  if c.flashReliable then 0xFFFF#16 else (Config.free d).setWidth 16

/-- The count of free values after FCTL has changed `n` cells. -/
def drawsAfter (s : State) (n : Nat) : Nat :=
  if s.cfg.flashReliable then s.draws else s.draws + n

/-- The first number below `n` that is bad, or `n` where none is. -/
def firstBad (bad : Nat → Bool) : Nat → Nat
  | 0 => 0
  | n + 1 => if firstBad bad n < n then firstBad bad n else if bad n then n else n + 1

/-- FCTL's choice at the poll number `i` from here on (R69; log entry 5). -/
def pollReady (s : State) (i : Nat) : Bool := s.moves.getD i s.movesRest

/-- The value `WRPG` writes to the cell `i` cells above cell `IDX`: two bytes of the buffer, low byte first
(R123, R54). -/
def cellValue (s : State) (i : Nat) : Half := readHalf s.pbuf (2 * (s.idx + i))

/-- What the program of that cell leaves in it, one program coming after the other from cell `IDX` on (R63,
R64). -/
def cellResult (s : State) (i : Nat) : Half :=
  programmed s.cfg (s.draws + i) (readHalf s.flash (s.a.toNat + 2 * (s.idx + i))) (cellValue s i)

/-- What the loop of `WRPG` over the `n` cells from cell `IDX` on answers, programming being enabled: it waits
at the first cell before whose poll FCTL does not complete; or it fails at the first cell whose program leaves
another value than the buffer's, whichever comes first; or it succeeds. The cells above the one where it stands
are as before (R123, R124, R70). -/
def WritesCells (n : Nat) (s : State) (o : Host.Outcome State Fault Refusal) : Prop :=
  let k := firstBad (fun i => cellResult s i != cellValue s i) n
  let w := firstBad (fun i => !pollReady s i) n
  let written := if w ≤ k then w else k + 1
  ∃ m, SameOutside s.flash m (s.a.toNat + 2 * s.idx) (2 * written) ∧
    (∀ i, i < written → readHalf m (s.a.toNat + 2 * (s.idx + i)) = cellResult s i) ∧
    o = .next (
      if w ≤ k ∧ w < n then { s with
        flash := m, idx := s.idx + w, pos := .wrpgCell, srBsy := true
        pend := .prog (s.a.toNat + 2 * (s.idx + w)) (cellValue s w)
        moves := s.moves.drop (w + 1), draws := drawsAfter s w }
      else if k < n then failOp .writeVerify { s with
        flash := m, idx := s.idx + k, crPg := false
        moves := s.moves.drop (k + 1), draws := drawsAfter s (k + 1) }
      else doneOp 0#32 { s with
        flash := m, idx := s.idx + n, crPg := false
        moves := s.moves.drop n, draws := drawsAfter s n })

end Sys2Proof.Machine
end

