-- ==== Sys2Proof/Certificates/Slice0/Obligations.lean ====
section
/-! DEFINITION. The statements about the block, each a rule of the spec or derived from its rules. `succeeded`
and `failed` (Safety.lean) are the whole end state of an operation, so a statement that ends in one of them
says what the operation changes and that it changes nothing else. -/

open Sys2Proof Sys2Proof.Machine

/-! ### Commands, decoding and encoding -/

/-- R93, R94: a command word that decodes to an operation, presented to an accepting block, makes the step the
execution of that operation, with HOST's move used up. That HOST's coming moves stand in the state is the
model's choice (log entry 7). -/
def Obligations.StepRunsTheDecodedCommand : Prop :=
  ∀ (s : State) (c : Packet) (rest : List HostMove) (i : Instr),
    Accepting s → s.host = .command c :: rest → decode c = .ok i →
      step s = exec i { s with host := rest }

/-- R85, R163: a command word that is an instance of no row of the opcode map ends at once with
`E_ILLEGAL_CMD`; nothing but the response and the latches changes. HOST's moves in the state are the model's
choice (log entry 7). -/
def Obligations.IllegalCommandTouchesNothing : Prop :=
  ∀ (s : State) (c : Packet) (rest : List HostMove),
    Accepting s → s.host = .command c :: rest → legalWord c = false →
      step s = .next { s with
        host := rest, opc := cmdOpc c, a := cmdA c, h := cmdH c
        ok := false, err := 0x6#4, val := 0#32, pos := .idle }

/-- R94: decode after encode is the identity on operations, encode after decode on legal words. -/
def Obligations.DecodeAndEncodeAreInverse : Prop :=
  (∀ i : Instr, decode (encode i) = .ok i) ∧
    ∀ (c : Packet) (i : Instr), decode c = .ok i → encode i = c

/-- R81, R82: a word decodes to an operation exactly when it is an instance of that operation's row of the
opcode map (`c AND mask = match`) and of no other row; it is illegal exactly when it is an instance of none. -/
def Obligations.DecodeFollowsTheOpcodeMap : Prop :=
  ∀ c : Packet,
    (∀ i, decode c = .ok i →
      (opcodeRows.filter (·.matchesWord c)).map OpcodeRow.mnemonic = [i.mnemonic]) ∧
    (∀ e, decode c = .error e → legalWord c = false)

/-- R82: words of the spec's encoding examples decode to the operations they stand for, and reserved ones are
refused by name. -/
def Obligations.WordsOfTheSpecDecode : Prop :=
  decode 0x1000000000000000#64 = .ok .init ∧
  decode 0x500000000800FFFE#64 = .ok (.rdhw 0x0800FFFE#32) ∧
  decode 0x6000A55A08000400#64 = .ok (.wrhw 0x08000400#32 0xA55A#16) ∧
  decode 0x9000000008000000#64 = .ok (.wrpg 0x08000000#32) ∧
  decode 0xB0000000FFFFFFFF#64 = .ok (.refl 0xFFFFFFFF#32) ∧
  decode 0xC000000000000000#64 = .error .reservedOpcode ∧
  decode 0x2001000000000000#64 = .error .reservedField ∧
  decode 0x5000000108000000#64 = .error .unusedField

/-- R91: the assembler's line for an operation gives that operation; there is no other mnemonic. -/
def Obligations.AssemblerInvertsMnemonics : Prop :=
  (∀ i : Instr, asmOp i.mnemonic (asmArgs i) = some i) ∧
    ∀ (m : String) (args : List Nat) (i : Instr),
      asmOp m args = some i → m = i.mnemonic ∧ args = asmArgs i

/-- R93, U1: HOST has no move to present a command while an operation runs. What the model does in such a state
is its own (log entries 7 and 15): `exec` refuses, and a step leaves a command that HOST has next where it
is. -/
def Obligations.NoCommandWhileRunning : Prop :=
  (∀ (i : Instr) (s : State), s.cfg.wf = true → s.run = true →
    exec i s = .refused .commandWhileRunning) ∧
  ∀ (s t : State) (c : Packet) (rest : List HostMove),
    s.run = true → s.host = .command c :: rest → step s = .next t → t.host = s.host

/-- R6: a configuration that breaks a constraint is refused. -/
def Obligations.BadConfigurationIsRefused : Prop :=
  ∀ s : State, s.cfg.wf = false →
    step s = .refused .badConfig ∧ ∀ i : Instr, exec i s = .refused .badConfig

/-! ### Reset, HOST and the idle block -/

/-- R43, R180: what `State.reset` holds where the spec gives a value (`CRC_INIT` being the configuration's).
That the controller is locked after reset is log entry 18. -/
def Obligations.ResetHoldsTheStatedValues : Prop :=
  State.reset.crLock = true ∧ State.reset.keyst = .k0 ∧ State.reset.crPg = false ∧
  State.reset.crPer = false ∧ State.reset.crStrt = false ∧ State.reset.srBsy = false ∧
  State.reset.pend = .none ∧ State.reset.crcacc = State.reset.cfg.crcInit ∧
  State.reset.crcen = false ∧ State.reset.run = false

/-- R43, R180: the reset event, in any state and while an operation runs too, leaves the stated values,
keeps `FLASH` where nothing is in flight, and changes no parameter. That the reset is a move of HOST in the
state is the model's choice (log entry 7); that the controller is locked after it is log entry 18. -/
def Obligations.ResetEventLeavesTheStatedValues : Prop :=
  ∀ (s : State) (rest : List HostMove), s.cfg.wf = true → s.host = .reset :: rest →
    ∃ t, step s = .next t ∧
      t.crLock = true ∧ t.keyst = .k0 ∧ t.crPg = false ∧ t.crPer = false ∧ t.crStrt = false ∧
      t.srBsy = false ∧ t.pend = .none ∧ t.crcacc = s.cfg.crcInit ∧ t.crcen = false ∧
      t.run = false ∧ t.cfg = s.cfg ∧ (s.pend = .none → t.flash = s.flash)

/-- R181: a reset that interrupts a program or an erase keeps every cell that was not being changed. That
the reset is a move of HOST in the state is the model's choice (log entry 7). -/
def Obligations.ResetKeepsCellsNotInFlight : Prop :=
  ∀ (s t : State) (rest : List HostMove), s.cfg.wf = true → s.host = .reset :: rest →
    step s = .next t →
      (∀ a v, s.pend = .prog a v → SameOutside s.flash t.flash a 2) ∧
      (∀ a, s.pend = .erase a → SameOutside s.flash t.flash (pageBase s.cfg a) s.cfg.pageSize)

/-- R38, R72: while no operation runs HOST writes any byte of the page buffer and nothing else; a byte the
buffer does not have stops the step (the fault is the model's: the spec gives HOST no such byte). HOST's
moves and that fault are log entries 7 and 15. -/
def Obligations.HostWritesTheBuffer : Prop :=
  ∀ (s : State) (j : Nat) (b : Byte) (rest : List HostMove),
    Accepting s → s.host = .pbufWrite j b :: rest →
      (j < s.cfg.pageSize → ∃ p, step s = .next { s with host := rest, pbuf := p } ∧
        readByte p j = b ∧ ∀ x, x ≠ j → readByte p x = readByte s.pbuf x) ∧
      (s.cfg.pageSize ≤ j → step s = .fault .pbufIndex)

/-- R180: the block executes nothing until HOST presents a command: a step in which HOST has no move changes
nothing, and one in which HOST's move does nothing only uses it up. HOST's moves in the state are the model's choice
(log entry 7). -/
def Obligations.IdleBlockExecutesNothing : Prop :=
  ∀ s : State, Accepting s →
    (s.host = [] → step s = .next s) ∧
    ∀ rest, s.host = .idle :: rest → step s = .next { s with host := rest }

/-! ### Invariants -/

/-- The invariant holds at reset. It speaks of values the model chose too (log entries 8 and 9): the loop index
and the empty memories. -/
def Obligations.InvariantHoldsAtReset : Prop := Inv State.reset

/-- Every step, HOST's moves and the reset event included, keeps the invariant. That a running operation waits
unlocked, for what it started, follows from its sequence (R111, R121, R123) with the requests that a locked
controller ignores (R105; log entry 18); what an unlisted address of the canonical memories reads as is log entry
9. -/
def Obligations.EveryStepKeepsTheInvariant : Prop :=
  ∀ s t : State, Inv s → step s = .next t → Inv t

/-- Every step keeps both memories in canonical form, in every state. What an unlisted address reads as is
the model's choice (log entry 9). -/
def Obligations.EveryStepKeepsMemoriesCanonical : Prop :=
  ∀ s t : State, Memory.wf s.flash → Memory.wf s.pbuf → step s = .next t →
    Memory.wf t.flash ∧ Memory.wf t.pbuf

/-- R16, R144: no operation, no move of HOST and no reset changes a parameter. -/
def Obligations.NoStepChangesAParameter : Prop :=
  ∀ s t : State, step s = .next t → t.cfg = s.cfg

/-- R18: `CR.LOCK = 0` if and only if `KEYST = OPEN`, after reset and across every step. -/
def Obligations.LockBitMatchesTheKeyState : Prop :=
  (State.reset.crLock = false ↔ State.reset.keyst = .opened) ∧
  ∀ s t : State, (s.crLock = false ↔ s.keyst = .opened) → step s = .next t →
    (t.crLock = false ↔ t.keyst = .opened)

/-- R29: the busy flag is set exactly while something is in flight, the start bit exactly while an erase is:
across every step, with no other premise. -/
def Obligations.BusyFlagMatchesTheOperationInFlight : Prop :=
  ∀ s t : State,
    ((s.srBsy = true ↔ s.pend ≠ .none) ∧ (s.crStrt = true ↔ ∃ a, s.pend = .erase a)) →
    step s = .next t →
    ((t.srBsy = true ↔ t.pend ≠ .none) ∧ (t.crStrt = true ↔ ∃ a, t.pend = .erase a))

/-- R40: the idle invariant holds after reset and whenever a step ends with `RUN = 0`. -/
def Obligations.IdleBetweenOperations : Prop :=
  IdleRegs State.reset ∧
  ∀ s t : State, Inv s → step s = .next t → t.run = false → IdleRegs t

/-- R58, R33, R155: in every state of the invariant a step answers a next state, but where HOST writes a
byte the buffer does not have, an aligned operand is not inside the array, or `PGCRC` finds its clock off.
The first is the model's own stop (log entry 15). -/
def Obligations.StepsStopOnlyWhereTheSpecRefuses : Prop :=
  ∀ s : State, Inv s →
    (∃ t, step s = .next t) ∨
    (∃ j b rest, s.host = .pbufWrite j b :: rest ∧ s.cfg.pageSize ≤ j ∧ step s = .fault .pbufIndex) ∨
    (∃ c rest i, s.host = .command c :: rest ∧ decode c = .ok i ∧
      ((step s = .refused .outOfRange ∧
          inFlash s.cfg i.operandA.toNat (bytesAddressed s.cfg i) = false) ∨
       (step s = .refused .crcClockOff ∧ s.crcen = false ∧ ∃ a, i = .pgcrc a)))

/-- R69, R70: with a fair FCTL an operation that waits ends within one step more than the polls FCTL lets
pass. The fairness is a premise: without it the operation need not end (`StuckOperationNeverEnds`). FCTL's
choices in the state are the model's choice (log entry 5). -/
def Obligations.FairOperationEnds : Prop :=
  ∀ s : State, Inv s → s.run = true → s.host = [] → Fair s →
    ∃ k t, k ≤ s.moves.length + 1 ∧ Host.Core.run core k s = .next t ∧ t.run = false

/-- R191, R168: if FCTL never completes, the operation in progress never ends: after any number of steps it
still runs, busy, with the flash array as it was and no response written. FCTL's choices in the state are
the model's choice (log entry 5). -/
def Obligations.StuckOperationNeverEnds : Prop :=
  ∀ (s : State) (k : Nat), Inv s → s.run = true → s.host = [] → Stuck s →
    ∃ t, Host.Core.run core k s = .next t ∧ t.run = true ∧ t.srBsy = true ∧ t.flash = s.flash ∧
      responseWord t = responseWord s

/-! ### The lock -/

/-- R19: what a write of the key register does in each state of the key sequence, and that it changes
nothing else. -/
def Obligations.KeyWriteFollowsTheSequence : Prop :=
  ∀ (v : Word) (s : State),
    (s.keyst = .k0 → v = s.cfg.key1 → keyWrite v s = { s with keyst := .k1 }) ∧
    (s.keyst = .k1 → v = s.cfg.key2 → keyWrite v s = { s with keyst := .opened, crLock := false }) ∧
    ((s.keyst = .k0 ∧ v ≠ s.cfg.key1) ∨ (s.keyst = .k1 ∧ v ≠ s.cfg.key2) ∨ s.keyst = .opened →
      keyWrite v s =
        { s with crLock := true, keyst := if s.cfg.keyLockoutSticky then .dead else .k0 }) ∧
    (s.keyst = .dead → keyWrite v s = s)

/-- R25, R62: what setting and clearing each bit of the control register does. That setting both enable bits is
refused is U10's and D10's treatment, which R25's pseudocode does not show (log entry 13); that a locked
controller ignores the writes is marked by the spec as general knowledge (log entry 18). -/
def Obligations.ControlBitsObeyTheLock : Prop :=
  ∀ s : State,
    setLock s = { s with crLock := true, keyst := if s.keyst = .dead then .dead else .k0 } ∧
    (s.crLock = true →
      setPg s = .next s ∧ clrPg s = s ∧ setPer s = .next s ∧ clrPer s = s ∧ setStrt s = .next s) ∧
    (s.crLock = false →
      clrPg s = { s with crPg := false } ∧ clrPer s = { s with crPer := false } ∧
      (s.crPer = false → setPg s = .next { s with crPg := true }) ∧
      (s.crPer = true → setPg s = .refused .bothEnables) ∧
      (s.crPg = false → setPer s = .next { s with crPer := true }) ∧
      (s.crPg = true → setPer s = .refused .bothEnables)) ∧
    (s.crLock = false → s.crPer = true → s.srBsy = false →
      (inFlash s.cfg s.ar.toNat 1 = true →
        setStrt s = .next { s with crStrt := true, pend := .erase s.ar.toNat, srBsy := true }) ∧
      (inFlash s.cfg s.ar.toNat 1 = false → setStrt s = .refused .outOfRange)) ∧
    (s.crLock = false → (s.crPer = false ∨ s.srBsy = true) → setStrt s = .refused .startNotReady)

/-- R100, R102: from `K0` the two key writes of `INIT` and of `UNLOCK` unlock the controller; `INIT` enables
the CRC clock too; nothing else changes. -/
def Obligations.KeysOpenALockedController : Prop :=
  ∀ s : State, Accepting s → s.keyst = .k0 →
    exec .init s =
      .next (succeeded .init 0#32 { s with crcen := true, crLock := false, keyst := .opened }) ∧
    exec .unlock s = .next (succeeded .unlock 0#32 { s with crLock := false, keyst := .opened })

/-- R102, R185: unlocking an unlocked controller locks it, and the operation fails with `E_UNLOCK`; from `DEAD`
nothing changes; from `K1` the sequence is violated too. -/
def Obligations.KeysDoNotOpenOtherwise : Prop :=
  ∀ s : State, Accepting s →
    (s.keyst = .opened →
      let k : KeySt := if s.cfg.keyLockoutSticky then .dead
        else if s.cfg.key1 = s.cfg.key2 then .k1 else .k0
      exec .init s =
        .next (failed .init .unlock { s with crcen := true, crLock := true, keyst := k }) ∧
      exec .unlock s = .next (failed .unlock .unlock { s with crLock := true, keyst := k })) ∧
    (s.keyst = .dead → s.crLock = true →
      exec .init s = .next (failed .init .unlock { s with crcen := true }) ∧
      exec .unlock s = .next (failed .unlock .unlock s)) ∧
    (s.keyst = .k1 →
      let k : KeySt := if s.cfg.keyLockoutSticky then .dead else .k0
      exec .init s =
        .next (failed .init .unlock { s with crcen := true, crLock := true, keyst := k }) ∧
      exec .unlock s = .next (failed .unlock .unlock { s with crLock := true, keyst := k }))

/-- R101, R103: `ISLOCKED` answers the lock bit and changes nothing; `LOCK` sets the lock bit and leaves
`DEAD` as it is. -/
def Obligations.LockAndItsQuery : Prop :=
  ∀ s : State, Accepting s →
    exec .islocked s = .next (succeeded .islocked (if s.crLock then 1#32 else 0#32) s) ∧
    exec .lock s = .next (succeeded .lock 0#32
      { s with crLock := true, keyst := if s.keyst = .dead then .dead else .k0 })

/-- R18, R180: once `DEAD`, the controller stays locked until reset. -/
def Obligations.DeadEndsOnlyAtReset : Prop :=
  ∀ s t : State, s.keyst = .dead → s.crLock = true → s.host.head? ≠ some .reset →
    step s = .next t → t.keyst = .dead ∧ t.crLock = true

/-- R104, R21: no operation but `INIT`, `UNLOCK` and `LOCK` moves the key state or the lock bit, in the step that
starts it or in one in which an operation goes on. -/
def Obligations.OnlyKeyOperationsMoveTheLock : Prop :=
  (∀ (i : Instr) (s t : State), i ≠ .init → i ≠ .unlock → i ≠ .lock → exec i s = .next t →
    t.keyst = s.keyst ∧ t.crLock = s.crLock) ∧
  ∀ s t : State, GoesOn s t → t.keyst = s.keyst ∧ t.crLock = s.crLock

/-- R105, R171: while the controller is locked no step changes the flash array, whatever command or move of
HOST it carries out. That a locked controller ignores its requests is log entry 18. -/
def Obligations.LockedFlashNeverChanges : Prop :=
  ∀ s t : State, Inv s → s.crLock = true → step s = .next t → t.flash = s.flash

/-! ### Operand checks -/

/-- R112: after `RDHW` or `WRHW` with an odd operand, in range or not, nothing but the response and the
latches has changed. -/
def Obligations.OddWordOperandsTouchNothing : Prop :=
  ∀ (s : State) (a : Word) (h : Half), Accepting s → a.toNat % 2 = 1 →
    exec (.rdhw a) s = .next (failed (.rdhw a) .alignHw s) ∧
    exec (.wrhw a h) s = .next (failed (.wrhw a h) .alignHw s)

/-- R125: after a page operation with an operand that is no multiple of `PAGE_SIZE`, in range or not, nothing
but the response and the latches has changed. -/
def Obligations.UnalignedPageOperandsTouchNothing : Prop :=
  ∀ (s : State) (a : Word), Accepting s → a.toNat % s.cfg.pageSize ≠ 0 →
    exec (.erpg a) s = .next (failed (.erpg a) .alignPage s) ∧
    exec (.rdpg a) s = .next (failed (.rdpg a) .alignPage s) ∧
    exec (.wrpg a) s = .next (failed (.wrpg a) .alignPage s) ∧
    exec (.pgcrc a) s = .next (failed (.pgcrc a) .alignPage s)

/-- R58: an aligned operand whose access is not wholly inside the flash array is refused. -/
def Obligations.OutOfRangeOperandsAreRefused : Prop :=
  ∀ (s : State) (a : Word) (h : Half), Accepting s →
    (a.toNat % 2 = 0 →
      ¬ (s.cfg.origin ≤ a.toNat ∧ a.toNat + 2 ≤ s.cfg.origin + s.cfg.totalSize) →
      exec (.rdhw a) s = .refused .outOfRange ∧ exec (.wrhw a h) s = .refused .outOfRange) ∧
    (a.toNat % s.cfg.pageSize = 0 →
      ¬ (s.cfg.origin ≤ a.toNat ∧
        a.toNat + s.cfg.pageSize ≤ s.cfg.origin + s.cfg.totalSize) →
      exec (.erpg a) s = .refused .outOfRange ∧ exec (.rdpg a) s = .refused .outOfRange ∧
      exec (.wrpg a) s = .refused .outOfRange ∧ exec (.pgcrc a) s = .refused .outOfRange)

/-! ### Words -/

/-- R53: the byte at the even address is the low byte of its cell, the byte at the odd address the high one;
a cell that is written reads back. -/
def Obligations.CellsAreLittleEndian : Prop :=
  ∀ (m : Memory) (a : Nat) (h : Half),
    (readHalf m a).extractLsb' 0 8 = readByte m a ∧
    (readHalf m a).extractLsb' 8 8 = readByte m (a + 1) ∧
    readHalf (writeHalf m a h) a = h ∧ SameOutside m (writeHalf m a h) a 2

/-- R110: `RDHW` answers the cell, widened with zeros, and changes nothing. -/
def Obligations.RdhwAnswersTheCell : Prop :=
  ∀ (s : State) (a : Word), Accepting s → s.srBsy = false → a.toNat % 2 = 0 →
    inFlash s.cfg a.toNat 2 = true →
    exec (.rdhw a) s = .next (succeeded (.rdhw a) ((readHalf s.flash a.toNat).setWidth 32) s)

/-- R111, R63, R64: unlocked, `WRHW` leaves the program's result in the cell, no other byte changed, and
succeeds exactly when the result is the value written: in the step that starts it, where FCTL completes before
the first poll, and in the step that goes on from its wait, where FCTL completes there. The result is
`old AND H` on a reliable flash and a free value on one that may fail. FCTL's choices, the free value, the
`AND` for a cell that is not erased and HOST's moves are log entries 5, 6, 11 and 7. -/
def Obligations.WrhwProgramsTheCell : Prop :=
  (∀ (s : State) (a : Word) (h : Half), Accepting s → s.srBsy = false → s.crLock = false →
    s.crPer = false → fctlReady s = true → a.toNat % 2 = 0 → inFlash s.cfg a.toNat 2 = true →
    let r := programmed s.cfg s.draws (readHalf s.flash a.toNat) h
    ∃ m, readHalf m a.toNat = r ∧ SameOutside s.flash m a.toNat 2 ∧
      let u : State := { s with
        flash := m, crPg := false, pend := .none, moves := s.moves.tail, draws := drawsAfter s 1 }
      exec (.wrhw a h) s =
        .next (if r = h then succeeded (.wrhw a h) 0#32 u else failed (.wrhw a h) .writeVerify u)) ∧
  ∀ s : State, Inv s → s.run = true → s.pos = .wrhwProgram → s.host.head? ≠ some .reset →
    fctlReady s = true →
    let r := programmed s.cfg s.draws (readHalf s.flash s.a.toNat) s.h
    ∃ m, readHalf m s.a.toNat = r ∧ SameOutside s.flash m s.a.toNat 2 ∧
      let u : State := { s with
        flash := m, crPg := false, srBsy := false, pend := .none, moves := s.moves.tail
        draws := drawsAfter s 1, host := hostAfter s }
      step s = .next (if r = s.h then succeeded (.wrhw s.a s.h) 0#32 u
        else failed (.wrhw s.a s.h) .writeVerify u)

/-- R105, R111: locked, `WRHW` changes no cell and succeeds exactly when the cell holds the value already. That
a locked controller ignores its requests is log entry 18. -/
def Obligations.WrhwLockedOnlyCompares : Prop :=
  ∀ (s : State) (a : Word) (h : Half), Accepting s → s.srBsy = false → s.crPg = false →
    s.crLock = true → a.toNat % 2 = 0 → inFlash s.cfg a.toNat 2 = true →
    exec (.wrhw a h) s =
      .next (if readHalf s.flash a.toNat = h then succeeded (.wrhw a h) 0#32 s
        else failed (.wrhw a h) .writeVerify s)

/-- R61, R62, R70, R191: unlocked, with FCTL not completing before the first poll, `WRHW` has started its program,
`ERPG` and `WRPG` the erase of their page, and the operation waits: no response, `RUN = 1`, busy, the flash array as
it was; and every later poll before which FCTL does not complete leaves an operation that waits, at whatever wait,
as it is. FCTL's choices and HOST's moves in the state are the model's choice (log entries 5 and 7). -/
def Obligations.OperationsWaitForFctl : Prop :=
  (∀ (s : State) (a : Word) (h : Half), Accepting s → s.srBsy = false → s.crLock = false →
    s.crPer = false → fctlReady s = false → a.toNat % 2 = 0 → inFlash s.cfg a.toNat 2 = true →
    exec (.wrhw a h) s = .next { s with
      run := true, pos := .wrhwProgram, opc := 0x6#4, a := a, h := h
      crPg := true, srBsy := true, pend := .prog a.toNat h, moves := s.moves.tail }) ∧
  (∀ (s : State) (a : Word), Accepting s → s.srBsy = false → s.crLock = false →
    s.crPg = false → fctlReady s = false → a.toNat % s.cfg.pageSize = 0 →
    inFlash s.cfg a.toNat s.cfg.pageSize = true →
    let u : State := { s with
      run := true, a := a, h := 0#16, ar := a, crPer := true, crStrt := true, srBsy := true
      pend := .erase a.toNat, moves := s.moves.tail }
    exec (.erpg a) s = .next { u with pos := .erpgErase, opc := 0x7#4 } ∧
    exec (.wrpg a) s = .next { u with pos := .wrpgErase, opc := 0x9#4 }) ∧
  ∀ s : State, Inv s → s.run = true → s.host.head? ≠ some .reset → fctlReady s = false →
    step s = .next { s with moves := s.moves.tail, host := hostAfter s }

/-! ### Pages -/

/-- R121, R64, R65: unlocked, `ERPG` leaves in each cell of the page what its erase gives, no other byte changed,
and succeeds exactly when every cell is `0xFFFF`, else fails with `E_ERASE_VERIFY` at the first that is not: in the
step that starts it, where FCTL completes before the first poll, and in the step that goes on from its wait, where
FCTL completes there. On a reliable flash every byte of the page is `0xFF`. FCTL's choices, the free values, the
loop index at the end and HOST's moves are log entries 5, 6, 10 and 7. -/
def Obligations.ErpgErasesThePage : Prop :=
  (∀ (s : State) (a : Word), Accepting s → s.srBsy = false → s.crLock = false → s.crPg = false →
    fctlReady s = true → a.toNat % s.cfg.pageSize = 0 →
    inFlash s.cfg a.toNat s.cfg.pageSize = true →
    let n := pageCells s.cfg
    let j := firstBad (fun i => erased s.cfg (s.draws + i) != 0xFFFF#16) n
    ∃ m, (∀ i, i < n → readHalf m (a.toNat + 2 * i) = erased s.cfg (s.draws + i)) ∧
      SameOutside s.flash m a.toNat s.cfg.pageSize ∧
      (s.cfg.flashReliable = true →
        j = n ∧ ∀ x, x < s.cfg.pageSize → readByte m (a.toNat + x) = 0xFF#8) ∧
      let u : State := { s with
        flash := m, crPer := false, crStrt := false, ar := a, pend := .none
        idx := j, moves := s.moves.tail, draws := drawsAfter s n }
      exec (.erpg a) s =
        .next (if j = n then succeeded (.erpg a) 0#32 u else failed (.erpg a) .eraseVerify u)) ∧
  ∀ s : State, Inv s → s.run = true → s.pos = .erpgErase → s.host.head? ≠ some .reset →
    fctlReady s = true →
    let n := pageCells s.cfg
    let j := firstBad (fun i => erased s.cfg (s.draws + i) != 0xFFFF#16) n
    ∃ m, (∀ i, i < n → readHalf m (s.a.toNat + 2 * i) = erased s.cfg (s.draws + i)) ∧
      SameOutside s.flash m s.a.toNat s.cfg.pageSize ∧
      let u : State := { s with
        flash := m, crPer := false, crStrt := false, srBsy := false, pend := .none
        idx := j, moves := s.moves.tail, draws := drawsAfter s n, host := hostAfter s }
      step s = .next (if j = n then { succeeded (.erpg s.a) 0#32 u with h := s.h }
        else { failed (.erpg s.a) .eraseVerify u with h := s.h })

/-- R121, R165, R105: locked, `ERPG` writes the address register and changes no cell; it succeeds exactly when the
page is erased already, and else fails at its first cell that is not `0xFFFF`. The loop index at the end is the
model's reading (log entry 10). That a locked controller ignores its requests is log entry 18. -/
def Obligations.ErpgLockedOnlyScans : Prop :=
  ∀ (s : State) (a : Word), Accepting s → s.srBsy = false → s.crLock = true →
    a.toNat % s.cfg.pageSize = 0 → inFlash s.cfg a.toNat s.cfg.pageSize = true →
    let n := pageCells s.cfg
    let j := firstBad (fun i => readHalf s.flash (a.toNat + 2 * i) != 0xFFFF#16) n
    (j = n ↔ ∀ x, x < s.cfg.pageSize → readByte s.flash (a.toNat + x) = 0xFF#8) ∧
    exec (.erpg a) s = .next (
      if j = n then succeeded (.erpg a) 0#32 { s with ar := a, idx := n }
      else failed (.erpg a) .eraseVerify { s with ar := a, idx := j })

/-- R126: if `ERPG` ends with `OK = 1`, in the step that starts it or after any number of polls, every byte of
the page is `0xFF`, reliable or not, locked or not. -/
def Obligations.ErpgSuccessMeansErased : Prop :=
  ∀ (s t u : State) (a : Word) (k : Nat), Inv s → exec (.erpg a) s = .next t → t.host = [] →
    Host.Core.run core k t = .next u → u.run = false → u.ok = true →
    ∀ x, x < s.cfg.pageSize → readByte u.flash (a.toNat + x) = 0xFF#8

/-- R122, R54: `RDPG` leaves in the buffer the bytes of the page in address order, changes nothing else, and
succeeds. The loop index at the end is the model's reading (log entry 10). -/
def Obligations.RdpgReadsThePage : Prop :=
  ∀ (s : State) (a : Word), Accepting s → s.srBsy = false → a.toNat % s.cfg.pageSize = 0 →
    inFlash s.cfg a.toNat s.cfg.pageSize = true →
    ∃ p, (∀ x, x < s.cfg.pageSize → readByte p x = readByte s.flash (a.toNat + x)) ∧
      (∀ x, s.cfg.pageSize ≤ x → readByte p x = readByte s.pbuf x) ∧
      exec (.rdpg a) s = .next (succeeded (.rdpg a) 0#32 { s with
        pbuf := p, idx := pageCells s.cfg })

/-- R123, R127, R64, R70: unlocked, `WRPG` goes as its erase, its programs and FCTL's polls go.

The first clause says where it ends with FCTL completing before every poll. If the erase leaves a cell that is
not `0xFFFF`, it fails with `E_ERASE_VERIFY` at the first. Else, if a program leaves a cell that differs from
the buffer, it fails with `E_WRITE_VERIFY` at the first, with the cells above it erased. Else it succeeds, and
the page holds the buffer. On a reliable flash it always succeeds. No byte outside the page changes.

The other clauses say the same of every choice of FCTL and of each wait: what the step answers in which the
operation starts and FCTL completes the erase, in which it goes on from the wait for the erase and FCTL completes
it, and in which it goes on from the wait for a cell. If the erase leaves a cell that is not `0xFFFF`, it fails with
`E_ERASE_VERIFY` at the first, and else `WritesCells` says how its cells go.

FCTL's choices, the free values, the loop index at the end, the `AND` for a cell that is not erased, which only a
state that no run reaches has here, and HOST's moves are log entries 5, 6, 10, 11 and 7. -/
def Obligations.WrpgWritesThePage : Prop :=
  (∀ (s : State) (a : Word), Accepting s → s.srBsy = false → s.crLock = false → s.crPg = false →
    Prompt s → a.toNat % s.cfg.pageSize = 0 → inFlash s.cfg a.toNat s.cfg.pageSize = true →
    let n := pageCells s.cfg
    let e (i : Nat) := erased s.cfg (s.draws + i)
    let v (i : Nat) := readHalf s.pbuf (2 * i)
    let p (i : Nat) := programmed s.cfg (s.draws + n + i) 0xFFFF#16 (v i)
    let j := firstBad (fun i => e i != 0xFFFF#16) n
    let k := firstBad (fun i => p i != v i) n
    let u (m : Memory) (idx programs : Nat) : State := { s with
      flash := m, crPg := false, crPer := false, crStrt := false, ar := a, pend := .none
      idx := idx, moves := s.moves.drop (1 + programs), draws := drawsAfter s (n + programs) }
    (s.cfg.flashReliable = true → j = n ∧ k = n) ∧
    ∃ m, SameOutside s.flash m a.toNat s.cfg.pageSize ∧
      if j < n then
        (∀ i, i < n → readHalf m (a.toNat + 2 * i) = e i) ∧
        exec (.wrpg a) s = .next (failed (.wrpg a) .eraseVerify (u m j 0))
      else if k < n then
        (∀ i, i ≤ k → readHalf m (a.toNat + 2 * i) = p i) ∧
        (∀ i, k < i → i < n → readHalf m (a.toNat + 2 * i) = 0xFFFF#16) ∧
        exec (.wrpg a) s = .next (failed (.wrpg a) .writeVerify (u m k (k + 1)))
      else
        (∀ x, x < s.cfg.pageSize → readByte m (a.toNat + x) = readByte s.pbuf x) ∧
        exec (.wrpg a) s = .next (succeeded (.wrpg a) 0#32 (u m n n))) ∧
  (∀ (s : State) (a : Word), Accepting s → s.srBsy = false → s.crLock = false → s.crPg = false →
    fctlReady s = true → a.toNat % s.cfg.pageSize = 0 →
    inFlash s.cfg a.toNat s.cfg.pageSize = true →
    let n := pageCells s.cfg
    let j := firstBad (fun i => erased s.cfg (s.draws + i) != 0xFFFF#16) n
    ∃ m, (∀ i, i < n → readHalf m (a.toNat + 2 * i) = erased s.cfg (s.draws + i)) ∧
      SameOutside s.flash m a.toNat s.cfg.pageSize ∧
      let u : State := { s with
        flash := m, crPer := false, crStrt := false, ar := a, pend := .none
        moves := s.moves.tail, draws := drawsAfter s n }
      if j < n then exec (.wrpg a) s = .next (failed (.wrpg a) .eraseVerify { u with idx := j })
      else WritesCells n
        { u with run := true, opc := 0x9#4, a := a, h := 0#16, crPg := true, idx := 0 }
        (exec (.wrpg a) s)) ∧
  (∀ s : State, Inv s → s.run = true → s.pos = .wrpgErase → s.host.head? ≠ some .reset →
    fctlReady s = true →
    let n := pageCells s.cfg
    let j := firstBad (fun i => erased s.cfg (s.draws + i) != 0xFFFF#16) n
    ∃ m, (∀ i, i < n → readHalf m (s.a.toNat + 2 * i) = erased s.cfg (s.draws + i)) ∧
      SameOutside s.flash m s.a.toNat s.cfg.pageSize ∧
      let u : State := { s with
        flash := m, crPer := false, crStrt := false, srBsy := false, pend := .none
        moves := s.moves.tail, draws := drawsAfter s n, host := hostAfter s }
      if j < n then
        step s = .next { failed (.wrpg s.a) .eraseVerify { u with idx := j } with h := s.h }
      else WritesCells n { u with crPg := true, idx := 0 } (step s)) ∧
  ∀ s : State, Inv s → s.run = true → s.pos = .wrpgCell → s.host.head? ≠ some .reset →
    WritesCells (cellsLeft s)
      { s with srBsy := false, pend := .none, host := hostAfter s } (step s)

/-- R123, R165, R105: locked, `WRPG` changes no cell: it fails at the erase's verification, at the page's first cell
that is not `0xFFFF`, unless the page is erased, then at the first cell whose value in the buffer is not `0xFFFF`,
and succeeds if there is none. The loop index at the end is the model's reading (log entry 10). That a locked
controller ignores its requests is log entry 18. -/
def Obligations.WrpgLockedOnlyCompares : Prop :=
  ∀ (s : State) (a : Word), Accepting s → s.srBsy = false → s.crPg = false → s.crLock = true →
    a.toNat % s.cfg.pageSize = 0 → inFlash s.cfg a.toNat s.cfg.pageSize = true →
    let n := pageCells s.cfg
    let j := firstBad (fun i => readHalf s.flash (a.toNat + 2 * i) != 0xFFFF#16) n
    let k := firstBad (fun i => readHalf s.pbuf (2 * i) != 0xFFFF#16) n
    (j = n ↔ ∀ x, x < s.cfg.pageSize → readByte s.flash (a.toNat + x) = 0xFF#8) ∧
    exec (.wrpg a) s = .next (
      if j < n then failed (.wrpg a) .eraseVerify { s with ar := a, idx := j }
      else if k < n then failed (.wrpg a) .writeVerify { s with ar := a, idx := k }
      else succeeded (.wrpg a) 0#32 { s with ar := a, idx := n })

/-- R124, R123: when `WRPG` fails at a cell, in the step that starts it or after any number of polls, every cell
below it holds the buffer's value, it does not, every cell above it is erased, and programming is disabled. The
loop index at the end is the model's reading (log entry 10). -/
def Obligations.WrpgAbortsAtTheFirstMismatch : Prop :=
  ∀ (s t u : State) (a : Word) (k : Nat), Inv s → exec (.wrpg a) s = .next t → t.host = [] →
    Host.Core.run core k t = .next u → u.run = false → u.err = errBits .writeVerify →
    u.idx < pageCells s.cfg ∧ u.crPg = false ∧ u.ok = false ∧
    (∀ i, i < u.idx → readHalf u.flash (a.toNat + 2 * i) = readHalf s.pbuf (2 * i)) ∧
    readHalf u.flash (a.toNat + 2 * u.idx) ≠ readHalf s.pbuf (2 * u.idx) ∧
    (∀ i, u.idx < i → i < pageCells s.cfg → readHalf u.flash (a.toNat + 2 * i) = 0xFFFF#16)

/-- R127: if `WRPG` ends with `OK = 1`, in the step that starts it or after any number of polls, then a
following `RDPG` of the page, with the flash array as `WRPG` left it and whatever else between, leaves in the
buffer what `WRPG` found there: reliable or not, locked or not. -/
def Obligations.WriteThenReadReturnsTheBuffer : Prop :=
  ∀ (s t u w : State) (a : Word) (k : Nat), Inv s → exec (.wrpg a) s = .next t → t.host = [] →
    Host.Core.run core k t = .next u → u.run = false → u.ok = true →
    Accepting w → w.srBsy = false → w.cfg = u.cfg → w.flash = u.flash →
    ∃ v, exec (.rdpg a) w = .next v ∧ v.ok = true ∧
      ∀ x, x < s.cfg.pageSize → readByte v.pbuf x = readByte s.pbuf x

/-! ### The CRC engine -/

/-- R138, R142: `REFL` answers its operand with the bits in reverse order and changes nothing. -/
def Obligations.ReflReversesTheBits : Prop :=
  ∀ (s : State) (v : Word), Accepting s →
    ∃ w : Word, (∀ i, i < 32 → w.getLsbD i = v.getLsbD (31 - i)) ∧
      exec (.refl v) s = .next (succeeded (.refl v) w s)

/-- R138: bit `i` of the reflected value is bit `31 - i` of the value; reflecting twice gives the value back;
0 and all ones are fixed. -/
def Obligations.ReflectionIsAnInvolution : Prop :=
  (∀ (v : Word) (i : Nat), i < 32 → (reflect32 v).getLsbD i = v.getLsbD (31 - i)) ∧
    (∀ v : Word, reflect32 (reflect32 v) = v) ∧
    reflect32 0#32 = 0#32 ∧ reflect32 0xFFFFFFFF#32 = 0xFFFFFFFF#32

/-- R140: of the bytes `b0 b1 b2 b3` in address order the accumulator is fed `b0 :: b1 :: b2 :: b3`, each byte
with its bits reversed if the input is reflected. -/
def Obligations.InputConditioningOrdersTheBytes : Prop :=
  ∀ b0 b1 b2 b3 : Byte,
    condIn false (halfOf b0 b1) (halfOf b2 b3) = b0 ++ b1 ++ b2 ++ b3 ∧
    condIn true (halfOf b0 b1) (halfOf b2 b3) =
      b0.reverse ++ b1.reverse ++ b2.reverse ++ b3.reverse

/-- R141, R145: `PGCRC` answers the byte-wise CRC of the page's bytes in address order, for every setting of
the parameters, leaves the accumulator reset and changes nothing else but the loop index. The
most-significant-bit-first step of the accumulator is marked by the spec as general knowledge (log entry
18). -/
def Obligations.PgcrcIsTheBytewiseCrc : Prop :=
  ∀ (s : State) (a : Word), Accepting s → s.srBsy = false → s.crcen = true →
    a.toNat % s.cfg.pageSize = 0 → inFlash s.cfg a.toNat s.cfg.pageSize = true →
    ∃ k, exec (.pgcrc a) s = .next (succeeded (.pgcrc a) (bytewiseCrc s.cfg (pageBytes s a.toNat))
      { s with crcacc := s.cfg.crcInit, idx := k })

/-- R190, R33: `PGCRC` of an aligned page of the array is refused while the CRC unit has no clock. -/
def Obligations.PgcrcNeedsItsClock : Prop :=
  ∀ (s : State) (a : Word), Accepting s → s.crcen = false → a.toNat % s.cfg.pageSize = 0 →
    inFlash s.cfg a.toNat s.cfg.pageSize = true → exec (.pgcrc a) s = .refused .crcClockOff

/-- R33: no operation but `INIT` changes the CRC clock enable, in the step that starts it or in one in which an
operation goes on, and `INIT` sets it whether or not it unlocks. -/
def Obligations.OnlyInitEnablesTheCrcClock : Prop :=
  (∀ (i : Instr) (s t : State), exec i s = .next t →
    (i = .init → t.crcen = true) ∧ (i ≠ .init → t.crcen = s.crcen)) ∧
  ∀ s t : State, GoesOn s t → t.crcen = s.crcen

/-! ### Responses and frames -/

/-- R37, R87, R88: whenever an operation ends, in the step that starts it or in one in which it goes on, `OK = 1`
exactly when `ERR = 0`, `VAL = 0` when it failed, and no reserved code is produced. -/
def Obligations.ResponsesAreConsistent : Prop :=
  (∀ (i : Instr) (s t : State), exec i s = .next t → t.run = false → ResponseOk t) ∧
  ∀ s t : State, GoesOn s t → t.run = false → ResponseOk t

/-- R157 to R162: an operation that ends with an error, in the step that starts it or in one in which it goes on,
reports one of the codes listed for it; the latch `OPC` says which operation goes on. -/
def Obligations.OperationsReportTheirOwnErrors : Prop :=
  (∀ (i : Instr) (s t : State), exec i s = .next t → t.run = false → t.ok = false →
    ∃ e ∈ errorsOf i, t.err = errBits e) ∧
  ∀ (i : Instr) (s t : State), Inv s → GoesOn s t → s.opc = i.opcode → t.run = false →
    t.ok = false → ∃ e ∈ errorsOf i, t.err = errBits e

/-- R87: where the fields of the response word lie. -/
def Obligations.ResponseWordFields : Prop :=
  ∀ s : State,
    (responseWord s).extractLsb' 0 32 = s.val ∧ (responseWord s).extractLsb' 32 4 = s.err ∧
    (responseWord s).getLsbD 36 = s.ok ∧ (responseWord s).extractLsb' 37 27 = 0#27

/-- R89, R90: where the registers lie, what their words hold, and that reads, writes, and the setting and
clearing of bits are the primitives SEQ uses; every other access is refused. The positions are the spec's
suggestion from general knowledge, and what the map refuses beside a read of the key register is the model's
reading of the access column (log entry 16). -/
def Obligations.RegisterMapFollowsThePrimitives : Prop :=
  (∀ c : Config,
    (c.fctlBase.toNat + 0x14 < 2 ^ 32 →
      (regAddr c .keyr).toNat = c.fctlBase.toNat + 0x04 ∧
      (regAddr c .sr).toNat = c.fctlBase.toNat + 0x0C ∧
      (regAddr c .cr).toNat = c.fctlBase.toNat + 0x10 ∧
      (regAddr c .ar).toNat = c.fctlBase.toNat + 0x14) ∧
    (c.crcuBase.toNat + 0x08 < 2 ^ 32 →
      (regAddr c .crcDr).toNat = c.crcuBase.toNat ∧
      (regAddr c .crcCr).toNat = c.crcuBase.toNat + 0x08)) ∧
  ∀ (s : State) (v : Word),
    ((srWord s).getLsbD 0 = s.srBsy ∧ (srWord s).extractLsb' 1 31 = 0#31) ∧
    ((crWord s).getLsbD 0 = s.crPg ∧ (crWord s).getLsbD 1 = s.crPer ∧
      (crWord s).getLsbD 6 = s.crStrt ∧ (crWord s).getLsbD 7 = s.crLock ∧
      (crWord s).extractLsb' 2 4 = 0#4 ∧ (crWord s).extractLsb' 8 24 = 0#24) ∧
    regRead .sr s = .ok (srWord s) ∧ regRead .cr s = .ok (crWord s) ∧
    regRead .keyr s = .error .registerAccess ∧ regRead .ar s = .error .registerAccess ∧
    regWrite .keyr v s = .next (keyWrite v s) ∧ regWrite .ar v s = .next { s with ar := v } ∧
    regWrite .sr v s = .refused .registerAccess ∧ regWrite .cr v s = .refused .registerAccess ∧
    (∀ bit, regSetBit bit s =
      if bit = 0 then setPg s else if bit = 1 then setPer s else if bit = 6 then setStrt s
      else if bit = 7 then .next (setLock s) else .refused .registerAccess) ∧
    (∀ bit, regClrBit bit s =
      if bit = 0 then .next (clrPg s) else if bit = 1 then .next (clrPer s)
      else .refused .registerAccess) ∧
    (s.crcen = true → regRead .crcDr s = .ok s.crcacc ∧
      regWrite .crcDr v s = .next { s with crcacc := crcStep s.cfg.poly s.crcacc v } ∧
      regRead .crcCr s = .ok 0#32 ∧
      regWrite .crcCr v s =
        .next (if v.getLsbD 0 then { s with crcacc := s.cfg.crcInit } else s)) ∧
    (s.crcen = false → regRead .crcDr s = .error .crcClockOff ∧
      regWrite .crcDr v s = .refused .crcClockOff ∧ regRead .crcCr s = .error .crcClockOff ∧
      regWrite .crcCr v s = .refused .crcClockOff)

/-- R38, R72: no operation but `RDPG` writes the page buffer, in the step that starts it or in one in which an
operation goes on. -/
def Obligations.OnlyRdpgWritesTheBuffer : Prop :=
  (∀ (i : Instr) (s t : State), (∀ a, i ≠ .rdpg a) → exec i s = .next t → t.pbuf = s.pbuf) ∧
  ∀ s t : State, GoesOn s t → t.pbuf = s.pbuf

/-- R30, R39: no operation but `WRHW`, `ERPG` and `WRPG` changes the flash array or a control bit, starts or
ends a program or an erase. -/
def Obligations.OnlyDestructiveOperationsUseFctl : Prop :=
  ∀ (i : Instr) (s t : State), (∀ a h, i ≠ .wrhw a h) → (∀ a, i ≠ .erpg a ∧ i ≠ .wrpg a) →
    exec i s = .next t →
    t.flash = s.flash ∧ t.crPg = s.crPg ∧ t.crPer = s.crPer ∧ t.crStrt = s.crStrt ∧
    t.srBsy = s.srBsy ∧ t.pend = s.pend ∧ t.moves = s.moves

/-- R121 to R123, R111: whatever FCTL does, `WRHW` changes no byte outside its cell and a page operation none
outside its page: in the step that starts it, and in each in which it goes on, where the target lies at the
latch `A`. -/
def Obligations.DestructiveOperationsStayInTheirTarget : Prop :=
  (∀ (s t : State) (a : Word), Inv s →
    (∀ h, exec (.wrhw a h) s = .next t → SameOutside s.flash t.flash a.toNat 2) ∧
    (exec (.erpg a) s = .next t → SameOutside s.flash t.flash a.toNat s.cfg.pageSize) ∧
    (exec (.wrpg a) s = .next t → SameOutside s.flash t.flash a.toNat s.cfg.pageSize)) ∧
  ∀ s t : State, Inv s → GoesOn s t → SameOutside s.flash t.flash s.a.toNat (bytesInFlight s)
end

