-- ==== Sys2Proof/Laws/Encoding.lean ====
section
/-! SUPPORT. The fields of a command word: what a word put together from four fields reads as, and that a word
is its fields (30_encoding.md R80). -/

namespace Sys2Proof

/-- Each field of a word put together from its four fields. -/
theorem fields_of_append (o : BitVec 4) (r : BitVec 12) (h : Half) (a : Word) :
    cmdOpc (o ++ r ++ h ++ a) = o ∧ cmdRsv (o ++ r ++ h ++ a) = r ∧
      cmdH (o ++ r ++ h ++ a) = h ∧ cmdA (o ++ r ++ h ++ a) = a := by
  refine ⟨?_, ?_, ?_, ?_⟩ <;> apply BitVec.eq_of_getLsbD_eq <;> intro k hk <;>
    simp only [cmdOpc, cmdRsv, cmdH, cmdA, BitVec.getLsbD_append, BitVec.getLsbD_extractLsb', hk,
      decide_true, Bool.true_and]
  · simp [show ¬ (60 + k < 32) by omega, show ¬ (60 + k - 32 < 16) by omega,
      show ¬ (60 + k - 32 - 16 < 12) by omega, show 60 + k - 32 - 16 - 12 = k by omega]
  · simp [show ¬ (48 + k < 32) by omega, show ¬ (48 + k - 32 < 16) by omega,
      show 48 + k - 32 - 16 = k by omega]
    omega
  · simp [show ¬ (32 + k < 32) by omega]
    omega
  · simp [hk]

/-- A command word is its four fields. -/
theorem append_of_fields (c : Packet) : cmdOpc c ++ cmdRsv c ++ cmdH c ++ cmdA c = c := by
  apply BitVec.eq_of_getLsbD_eq
  intro k hk
  simp only [cmdOpc, cmdRsv, cmdH, cmdA, BitVec.getLsbD_append, BitVec.getLsbD_extractLsb']
  by_cases h1 : k < 32
  · simp [h1]
  by_cases h2 : k - 32 < 16
  · simp [h1, h2, show 32 + (k - 32) = k by omega]
  by_cases h3 : k - 32 - 16 < 12
  · simp [h1, h2, h3, show 48 + (k - 32 - 16) = k by omega]
  · simp [h1, h2, h3, show 60 + (k - 32 - 16 - 12) = k by omega, show k - 32 - 16 - 12 < 4 by omega]

end Sys2Proof
end

