-- ==== Sys2Proof/Laws/Memory.lean ====
section
/-! SUPPORT. The laws of the byte memories: a read after a write, in every memory, and the canonical form,
which every write keeps and which makes equal reads equal data. -/

namespace Sys2Proof.Machine

@[simp] theorem readByte_nil (a : Nat) : readByte [] a = unlistedByte := rfl

theorem readByte_consByte (a : Nat) (b : Byte) (m : Memory) (x : Nat)
    (hm : readByte m a = unlistedByte) :
    readByte (consByte a b m) x = if x = a then b else readByte m x := by
  unfold consByte
  by_cases hb : b = unlistedByte
  · by_cases hx : x = a
    · simp [hb, hx, hm]
    · simp [hb, hx]
  · by_cases hx : x = a
    · simp [hb, hx, readByte]
    · simp [hb, hx, readByte, Ne.symm hx]

theorem dropByte_cons (y : Host.Cell) (m : Memory) (a : Nat) :
    dropByte (y :: m) a = if y.1 = a then dropByte m a else y :: dropByte m a := by
  by_cases h : y.1 = a <;> simp [dropByte, h]

theorem readByte_dropByte (m : Memory) (a x : Nat) :
    readByte (dropByte m a) x = if x = a then unlistedByte else readByte m x := by
  induction m with
  | nil => simp [dropByte]
  | cons y m ih =>
    rw [dropByte_cons]
    by_cases hy : y.1 = a
    · by_cases hx : x = a
      · subst hx; simp [hy, ih]
      · simp [hy, hx, ih, readByte, Ne.symm hx]
    · by_cases hx : x = a
      · subst hx; simp [hy, readByte, ih]
      · simp [hy, hx, readByte, ih]

theorem readByte_insertByte (m : Memory) (a : Nat) (b : Byte) (x : Nat)
    (hm : ∀ y ∈ m, y.1 ≠ a) :
    readByte (insertByte m a b) x = if x = a then b else readByte m x := by
  have unlisted : ∀ l : Memory, (∀ y ∈ l, y.1 ≠ a) → readByte l a = unlistedByte := by
    intro l
    induction l with
    | nil => simp
    | cons y l ih =>
      intro h
      simp only [readByte]
      rw [if_neg (h y (by simp)), ih fun z hz => h z (by simp [hz])]
  induction m with
  | nil => exact readByte_consByte a b [] x rfl
  | cons y m ih =>
    have ih' := ih fun z hz => hm z (by simp [hz])
    simp only [insertByte]
    split
    · exact readByte_consByte a b _ x (unlisted _ hm)
    · simp only [readByte, ih']
      by_cases hy : y.1 = x
      · have : x ≠ a := fun h => hm y (by simp) (hy.trans h)
        simp [hy, this]
      · simp [hy]

/-- A read after a write gives the byte written, and every other byte as it was. -/
theorem readByte_writeByte (m : Memory) (a : Nat) (b : Byte) (x : Nat) :
    readByte (writeByte m a b) x = if x = a then b else readByte m x := by
  unfold writeByte
  rw [readByte_insertByte, readByte_dropByte]
  · by_cases hx : x = a <;> simp [hx]
  · intro y hy
    simpa [dropByte] using (List.mem_filter.mp hy).2

@[simp] theorem readByte_writeByte_same (m : Memory) (a : Nat) (b : Byte) :
    readByte (writeByte m a b) a = b := by simp [readByte_writeByte]

theorem readByte_writeByte_ne (m : Memory) {a x : Nat} (b : Byte) (h : x ≠ a) :
    readByte (writeByte m a b) x = readByte m x := by simp [readByte_writeByte, h]

theorem halfOf_low_high (h : Half) : halfOf (lowByte h) (highByte h) = h := by
  apply BitVec.eq_of_getLsbD_eq
  intro i hi
  simp only [halfOf, lowByte, highByte, BitVec.getLsbD_or, BitVec.getLsbD_setWidth,
    BitVec.getLsbD_extractLsb', BitVec.getLsbD_shiftLeft]
  by_cases h8 : i < 8
  · simp [h8, hi]
  · have : i - 8 < 8 := by omega
    have h16 : 8 + (i - 8) = i := by omega
    simp [h8, hi, this, h16, show i - 8 < 16 by omega]

@[simp] theorem lowByte_halfOf (lo hi : Byte) : lowByte (halfOf lo hi) = lo := by
  apply BitVec.eq_of_getLsbD_eq
  intro i h
  simp [lowByte, halfOf, h, show i < 16 by omega]

@[simp] theorem highByte_halfOf (lo hi : Byte) : highByte (halfOf lo hi) = hi := by
  apply BitVec.eq_of_getLsbD_eq
  intro i h
  have h2 : 8 + i - 8 = i := by omega
  simp [highByte, halfOf, h, h2, show 8 + i < 16 by omega]

theorem halfOf_inj {a b c d : Byte} (h : halfOf a b = halfOf c d) : a = c ∧ b = d :=
  ⟨by simpa using congrArg lowByte h, by simpa using congrArg highByte h⟩

/-- A byte read after a cell is written. -/
theorem readByte_writeHalf (m : Memory) (a : Nat) (h : Half) (x : Nat) :
    readByte (writeHalf m a h) x =
      if x = a then lowByte h else if x = a + 1 then highByte h else readByte m x := by
  unfold writeHalf
  rw [readByte_writeByte, readByte_writeByte]
  by_cases h1 : x = a + 1
  · simp [h1]
  · simp [h1]

theorem readByte_writeHalf_outside (m : Memory) {a x : Nat} (h : Half)
    (hx : x < a ∨ a + 2 ≤ x) : readByte (writeHalf m a h) x = readByte m x := by
  rw [readByte_writeHalf, if_neg (by omega), if_neg (by omega)]

/-- A cell read after it is written. -/
@[simp] theorem readHalf_writeHalf_same (m : Memory) (a : Nat) (h : Half) :
    readHalf (writeHalf m a h) a = h := by
  simp [readHalf, readByte_writeHalf, halfOf_low_high]

/-- A cell read after another is written. -/
theorem readHalf_writeHalf_ne (m : Memory) {a x : Nat} (h : Half) (hx : x + 2 ≤ a ∨ a + 2 ≤ x) :
    readHalf (writeHalf m a h) x = readHalf m x := by
  unfold readHalf
  rw [readByte_writeHalf_outside m h (by omega), readByte_writeHalf_outside m h (by omega)]

/-! ### The canonical form -/

theorem wf_nil : Memory.wf [] := by simp [Memory.wf]

theorem mem_insertByte {m : Memory} {a : Nat} {b : Byte} {x : Host.Cell} (h : x ∈ insertByte m a b) :
    x = (a, b) ∧ b ≠ unlistedByte ∨ x ∈ m := by
  induction m with
  | nil =>
    simp only [insertByte, consByte] at h
    split at h <;> simp_all
  | cons y m ih =>
    simp only [insertByte, consByte] at h
    split at h
    · split at h <;> simp_all
    · rcases List.mem_cons.mp h with rfl | h
      · simp
      · rcases ih h with h | h <;> simp [h]

theorem mem_writeByte {m : Memory} {a : Nat} {b : Byte} {x : Host.Cell} (h : x ∈ writeByte m a b) :
    x = (a, b) ∨ x ∈ m := by
  rcases mem_insertByte h with h | h
  · exact .inl h.1
  · exact .inr (List.mem_filter.mp h).1

theorem mem_writeHalf {m : Memory} {a : Nat} {h : Half} {x : Host.Cell} (hx : x ∈ writeHalf m a h) :
    x.1 = a ∨ x.1 = a + 1 ∨ x ∈ m := by
  rcases mem_writeByte hx with rfl | hx
  · simp
  · rcases mem_writeByte hx with rfl | hx <;> simp_all

theorem wf_insertByte {m : Memory} {a : Nat} {b : Byte} (hm : Memory.wf m) (ha : ∀ y ∈ m, y.1 ≠ a) :
    Memory.wf (insertByte m a b) := by
  refine ⟨?_, fun x hx => ?_⟩
  · induction m with
    | nil =>
      simp only [insertByte, consByte]
      split <;> simp
    | cons y m ih =>
      have hy := List.pairwise_cons.mp hm.1
      have hne : y.1 ≠ a := ha y (by simp)
      simp only [insertByte, consByte]
      split
      · rename_i hlt
        split
        · exact hm.1
        · refine List.pairwise_cons.mpr ⟨fun z hz => ?_, hm.1⟩
          rcases List.mem_cons.mp hz with rfl | hz
          · exact hlt
          · exact Nat.lt_trans hlt (hy.1 z hz)
      · refine List.pairwise_cons.mpr ⟨fun z hz => ?_, ?_⟩
        · rcases mem_insertByte hz with h | h
          · rw [h.1]
            show y.1 < a
            omega
          · exact hy.1 z h
        · exact ih ⟨hy.2, fun z hz => hm.2 z (by simp [hz])⟩ fun z hz => ha z (by simp [hz])
  · rcases mem_insertByte hx with h | h
    · rw [h.1]
      exact h.2
    · exact hm.2 x h

/-- Writing a byte keeps the canonical form. -/
theorem wf_writeByte {m : Memory} (hm : Memory.wf m) (a : Nat) (b : Byte) :
    Memory.wf (writeByte m a b) :=
  wf_insertByte ⟨hm.1.sublist List.filter_sublist, fun x hx => hm.2 x (List.mem_filter.mp hx).1⟩
    fun y hy => by simpa [dropByte] using (List.mem_filter.mp hy).2

/-- Writing a cell keeps the canonical form. -/
theorem wf_writeHalf {m : Memory} (hm : Memory.wf m) (a : Nat) (h : Half) :
    Memory.wf (writeHalf m a h) :=
  wf_writeByte (wf_writeByte hm _ _) _ _

end Sys2Proof.Machine
end

