-- ==== Sys2Proof/Laws/State.lean ====
section
/-! SUPPORT. One lemma for each field under each update of the state, so that no proof unfolds a record
update. -/

namespace Sys2Proof.Machine

/-! ### `doneOp` -/

@[simp] theorem doneOp_keyst (v : Word) (s : State) : (doneOp v s).keyst = s.keyst := rfl
@[simp] theorem doneOp_crLock (v : Word) (s : State) : (doneOp v s).crLock = s.crLock := rfl
@[simp] theorem doneOp_crPg (v : Word) (s : State) : (doneOp v s).crPg = s.crPg := rfl
@[simp] theorem doneOp_crPer (v : Word) (s : State) : (doneOp v s).crPer = s.crPer := rfl
@[simp] theorem doneOp_crStrt (v : Word) (s : State) : (doneOp v s).crStrt = s.crStrt := rfl
@[simp] theorem doneOp_srBsy (v : Word) (s : State) : (doneOp v s).srBsy = s.srBsy := rfl
@[simp] theorem doneOp_ar (v : Word) (s : State) : (doneOp v s).ar = s.ar := rfl
@[simp] theorem doneOp_pend (v : Word) (s : State) : (doneOp v s).pend = s.pend := rfl
@[simp] theorem doneOp_flash (v : Word) (s : State) : (doneOp v s).flash = s.flash := rfl
@[simp] theorem doneOp_crcacc (v : Word) (s : State) : (doneOp v s).crcacc = s.crcacc := rfl
@[simp] theorem doneOp_crcen (v : Word) (s : State) : (doneOp v s).crcen = s.crcen := rfl
@[simp] theorem doneOp_run (v : Word) (s : State) : (doneOp v s).run = false := rfl
@[simp] theorem doneOp_pos (v : Word) (s : State) : (doneOp v s).pos = .idle := rfl
@[simp] theorem doneOp_opc (v : Word) (s : State) : (doneOp v s).opc = s.opc := rfl
@[simp] theorem doneOp_a (v : Word) (s : State) : (doneOp v s).a = s.a := rfl
@[simp] theorem doneOp_h (v : Word) (s : State) : (doneOp v s).h = s.h := rfl
@[simp] theorem doneOp_idx (v : Word) (s : State) : (doneOp v s).idx = s.idx := rfl
@[simp] theorem doneOp_ok (v : Word) (s : State) : (doneOp v s).ok = true := rfl
@[simp] theorem doneOp_err (v : Word) (s : State) : (doneOp v s).err = 0#4 := rfl
@[simp] theorem doneOp_val (v : Word) (s : State) : (doneOp v s).val = v := rfl
@[simp] theorem doneOp_pbuf (v : Word) (s : State) : (doneOp v s).pbuf = s.pbuf := rfl
@[simp] theorem doneOp_cfg (v : Word) (s : State) : (doneOp v s).cfg = s.cfg := rfl
@[simp] theorem doneOp_host (v : Word) (s : State) : (doneOp v s).host = s.host := rfl
@[simp] theorem doneOp_moves (v : Word) (s : State) : (doneOp v s).moves = s.moves := rfl
@[simp] theorem doneOp_movesRest (v : Word) (s : State) : (doneOp v s).movesRest = s.movesRest := rfl
@[simp] theorem doneOp_draws (v : Word) (s : State) : (doneOp v s).draws = s.draws := rfl

/-! ### `failOp` -/

@[simp] theorem failOp_keyst (e : ErrCode) (s : State) : (failOp e s).keyst = s.keyst := rfl
@[simp] theorem failOp_crLock (e : ErrCode) (s : State) : (failOp e s).crLock = s.crLock := rfl
@[simp] theorem failOp_crPg (e : ErrCode) (s : State) : (failOp e s).crPg = s.crPg := rfl
@[simp] theorem failOp_crPer (e : ErrCode) (s : State) : (failOp e s).crPer = s.crPer := rfl
@[simp] theorem failOp_crStrt (e : ErrCode) (s : State) : (failOp e s).crStrt = s.crStrt := rfl
@[simp] theorem failOp_srBsy (e : ErrCode) (s : State) : (failOp e s).srBsy = s.srBsy := rfl
@[simp] theorem failOp_ar (e : ErrCode) (s : State) : (failOp e s).ar = s.ar := rfl
@[simp] theorem failOp_pend (e : ErrCode) (s : State) : (failOp e s).pend = s.pend := rfl
@[simp] theorem failOp_flash (e : ErrCode) (s : State) : (failOp e s).flash = s.flash := rfl
@[simp] theorem failOp_crcacc (e : ErrCode) (s : State) : (failOp e s).crcacc = s.crcacc := rfl
@[simp] theorem failOp_crcen (e : ErrCode) (s : State) : (failOp e s).crcen = s.crcen := rfl
@[simp] theorem failOp_run (e : ErrCode) (s : State) : (failOp e s).run = false := rfl
@[simp] theorem failOp_pos (e : ErrCode) (s : State) : (failOp e s).pos = .idle := rfl
@[simp] theorem failOp_opc (e : ErrCode) (s : State) : (failOp e s).opc = s.opc := rfl
@[simp] theorem failOp_a (e : ErrCode) (s : State) : (failOp e s).a = s.a := rfl
@[simp] theorem failOp_h (e : ErrCode) (s : State) : (failOp e s).h = s.h := rfl
@[simp] theorem failOp_idx (e : ErrCode) (s : State) : (failOp e s).idx = s.idx := rfl
@[simp] theorem failOp_ok (e : ErrCode) (s : State) : (failOp e s).ok = false := rfl
@[simp] theorem failOp_err (e : ErrCode) (s : State) : (failOp e s).err = errBits e := rfl
@[simp] theorem failOp_val (e : ErrCode) (s : State) : (failOp e s).val = 0#32 := rfl
@[simp] theorem failOp_pbuf (e : ErrCode) (s : State) : (failOp e s).pbuf = s.pbuf := rfl
@[simp] theorem failOp_cfg (e : ErrCode) (s : State) : (failOp e s).cfg = s.cfg := rfl
@[simp] theorem failOp_host (e : ErrCode) (s : State) : (failOp e s).host = s.host := rfl
@[simp] theorem failOp_moves (e : ErrCode) (s : State) : (failOp e s).moves = s.moves := rfl
@[simp] theorem failOp_movesRest (e : ErrCode) (s : State) : (failOp e s).movesRest = s.movesRest := rfl
@[simp] theorem failOp_draws (e : ErrCode) (s : State) : (failOp e s).draws = s.draws := rfl

/-! ### `usePoll` -/

@[simp] theorem usePoll_keyst (s : State) : (usePoll s).keyst = s.keyst := rfl
@[simp] theorem usePoll_crLock (s : State) : (usePoll s).crLock = s.crLock := rfl
@[simp] theorem usePoll_crPg (s : State) : (usePoll s).crPg = s.crPg := rfl
@[simp] theorem usePoll_crPer (s : State) : (usePoll s).crPer = s.crPer := rfl
@[simp] theorem usePoll_crStrt (s : State) : (usePoll s).crStrt = s.crStrt := rfl
@[simp] theorem usePoll_srBsy (s : State) : (usePoll s).srBsy = s.srBsy := rfl
@[simp] theorem usePoll_ar (s : State) : (usePoll s).ar = s.ar := rfl
@[simp] theorem usePoll_pend (s : State) : (usePoll s).pend = s.pend := rfl
@[simp] theorem usePoll_flash (s : State) : (usePoll s).flash = s.flash := rfl
@[simp] theorem usePoll_crcacc (s : State) : (usePoll s).crcacc = s.crcacc := rfl
@[simp] theorem usePoll_crcen (s : State) : (usePoll s).crcen = s.crcen := rfl
@[simp] theorem usePoll_run (s : State) : (usePoll s).run = s.run := rfl
@[simp] theorem usePoll_pos (s : State) : (usePoll s).pos = s.pos := rfl
@[simp] theorem usePoll_opc (s : State) : (usePoll s).opc = s.opc := rfl
@[simp] theorem usePoll_a (s : State) : (usePoll s).a = s.a := rfl
@[simp] theorem usePoll_h (s : State) : (usePoll s).h = s.h := rfl
@[simp] theorem usePoll_idx (s : State) : (usePoll s).idx = s.idx := rfl
@[simp] theorem usePoll_ok (s : State) : (usePoll s).ok = s.ok := rfl
@[simp] theorem usePoll_err (s : State) : (usePoll s).err = s.err := rfl
@[simp] theorem usePoll_val (s : State) : (usePoll s).val = s.val := rfl
@[simp] theorem usePoll_pbuf (s : State) : (usePoll s).pbuf = s.pbuf := rfl
@[simp] theorem usePoll_cfg (s : State) : (usePoll s).cfg = s.cfg := rfl
@[simp] theorem usePoll_host (s : State) : (usePoll s).host = s.host := rfl
@[simp] theorem usePoll_moves (s : State) : (usePoll s).moves = s.moves.tail := rfl
@[simp] theorem usePoll_movesRest (s : State) : (usePoll s).movesRest = s.movesRest := rfl
@[simp] theorem usePoll_draws (s : State) : (usePoll s).draws = s.draws := rfl

/-! ### `useMove` -/

@[simp] theorem useMove_keyst (s : State) : (useMove s).keyst = s.keyst := rfl
@[simp] theorem useMove_crLock (s : State) : (useMove s).crLock = s.crLock := rfl
@[simp] theorem useMove_crPg (s : State) : (useMove s).crPg = s.crPg := rfl
@[simp] theorem useMove_crPer (s : State) : (useMove s).crPer = s.crPer := rfl
@[simp] theorem useMove_crStrt (s : State) : (useMove s).crStrt = s.crStrt := rfl
@[simp] theorem useMove_srBsy (s : State) : (useMove s).srBsy = s.srBsy := rfl
@[simp] theorem useMove_ar (s : State) : (useMove s).ar = s.ar := rfl
@[simp] theorem useMove_pend (s : State) : (useMove s).pend = s.pend := rfl
@[simp] theorem useMove_flash (s : State) : (useMove s).flash = s.flash := rfl
@[simp] theorem useMove_crcacc (s : State) : (useMove s).crcacc = s.crcacc := rfl
@[simp] theorem useMove_crcen (s : State) : (useMove s).crcen = s.crcen := rfl
@[simp] theorem useMove_run (s : State) : (useMove s).run = s.run := rfl
@[simp] theorem useMove_pos (s : State) : (useMove s).pos = s.pos := rfl
@[simp] theorem useMove_opc (s : State) : (useMove s).opc = s.opc := rfl
@[simp] theorem useMove_a (s : State) : (useMove s).a = s.a := rfl
@[simp] theorem useMove_h (s : State) : (useMove s).h = s.h := rfl
@[simp] theorem useMove_idx (s : State) : (useMove s).idx = s.idx := rfl
@[simp] theorem useMove_ok (s : State) : (useMove s).ok = s.ok := rfl
@[simp] theorem useMove_err (s : State) : (useMove s).err = s.err := rfl
@[simp] theorem useMove_val (s : State) : (useMove s).val = s.val := rfl
@[simp] theorem useMove_pbuf (s : State) : (useMove s).pbuf = s.pbuf := rfl
@[simp] theorem useMove_cfg (s : State) : (useMove s).cfg = s.cfg := rfl
@[simp] theorem useMove_host (s : State) : (useMove s).host = s.host.tail := rfl
@[simp] theorem useMove_moves (s : State) : (useMove s).moves = s.moves := rfl
@[simp] theorem useMove_movesRest (s : State) : (useMove s).movesRest = s.movesRest := rfl
@[simp] theorem useMove_draws (s : State) : (useMove s).draws = s.draws := rfl

/-! ### `nextIdx` -/

@[simp] theorem nextIdx_keyst (s : State) : (nextIdx s).keyst = s.keyst := rfl
@[simp] theorem nextIdx_crLock (s : State) : (nextIdx s).crLock = s.crLock := rfl
@[simp] theorem nextIdx_crPg (s : State) : (nextIdx s).crPg = s.crPg := rfl
@[simp] theorem nextIdx_crPer (s : State) : (nextIdx s).crPer = s.crPer := rfl
@[simp] theorem nextIdx_crStrt (s : State) : (nextIdx s).crStrt = s.crStrt := rfl
@[simp] theorem nextIdx_srBsy (s : State) : (nextIdx s).srBsy = s.srBsy := rfl
@[simp] theorem nextIdx_ar (s : State) : (nextIdx s).ar = s.ar := rfl
@[simp] theorem nextIdx_pend (s : State) : (nextIdx s).pend = s.pend := rfl
@[simp] theorem nextIdx_flash (s : State) : (nextIdx s).flash = s.flash := rfl
@[simp] theorem nextIdx_crcacc (s : State) : (nextIdx s).crcacc = s.crcacc := rfl
@[simp] theorem nextIdx_crcen (s : State) : (nextIdx s).crcen = s.crcen := rfl
@[simp] theorem nextIdx_run (s : State) : (nextIdx s).run = s.run := rfl
@[simp] theorem nextIdx_pos (s : State) : (nextIdx s).pos = s.pos := rfl
@[simp] theorem nextIdx_opc (s : State) : (nextIdx s).opc = s.opc := rfl
@[simp] theorem nextIdx_a (s : State) : (nextIdx s).a = s.a := rfl
@[simp] theorem nextIdx_h (s : State) : (nextIdx s).h = s.h := rfl
@[simp] theorem nextIdx_idx (s : State) : (nextIdx s).idx = s.idx + 1 := rfl
@[simp] theorem nextIdx_ok (s : State) : (nextIdx s).ok = s.ok := rfl
@[simp] theorem nextIdx_err (s : State) : (nextIdx s).err = s.err := rfl
@[simp] theorem nextIdx_val (s : State) : (nextIdx s).val = s.val := rfl
@[simp] theorem nextIdx_pbuf (s : State) : (nextIdx s).pbuf = s.pbuf := rfl
@[simp] theorem nextIdx_cfg (s : State) : (nextIdx s).cfg = s.cfg := rfl
@[simp] theorem nextIdx_host (s : State) : (nextIdx s).host = s.host := rfl
@[simp] theorem nextIdx_moves (s : State) : (nextIdx s).moves = s.moves := rfl
@[simp] theorem nextIdx_movesRest (s : State) : (nextIdx s).movesRest = s.movesRest := rfl
@[simp] theorem nextIdx_draws (s : State) : (nextIdx s).draws = s.draws := rfl

/-! ### `startIdx` -/

@[simp] theorem startIdx_keyst (s : State) : (startIdx s).keyst = s.keyst := rfl
@[simp] theorem startIdx_crLock (s : State) : (startIdx s).crLock = s.crLock := rfl
@[simp] theorem startIdx_crPg (s : State) : (startIdx s).crPg = s.crPg := rfl
@[simp] theorem startIdx_crPer (s : State) : (startIdx s).crPer = s.crPer := rfl
@[simp] theorem startIdx_crStrt (s : State) : (startIdx s).crStrt = s.crStrt := rfl
@[simp] theorem startIdx_srBsy (s : State) : (startIdx s).srBsy = s.srBsy := rfl
@[simp] theorem startIdx_ar (s : State) : (startIdx s).ar = s.ar := rfl
@[simp] theorem startIdx_pend (s : State) : (startIdx s).pend = s.pend := rfl
@[simp] theorem startIdx_flash (s : State) : (startIdx s).flash = s.flash := rfl
@[simp] theorem startIdx_crcacc (s : State) : (startIdx s).crcacc = s.crcacc := rfl
@[simp] theorem startIdx_crcen (s : State) : (startIdx s).crcen = s.crcen := rfl
@[simp] theorem startIdx_run (s : State) : (startIdx s).run = s.run := rfl
@[simp] theorem startIdx_pos (s : State) : (startIdx s).pos = s.pos := rfl
@[simp] theorem startIdx_opc (s : State) : (startIdx s).opc = s.opc := rfl
@[simp] theorem startIdx_a (s : State) : (startIdx s).a = s.a := rfl
@[simp] theorem startIdx_h (s : State) : (startIdx s).h = s.h := rfl
@[simp] theorem startIdx_idx (s : State) : (startIdx s).idx = 0 := rfl
@[simp] theorem startIdx_ok (s : State) : (startIdx s).ok = s.ok := rfl
@[simp] theorem startIdx_err (s : State) : (startIdx s).err = s.err := rfl
@[simp] theorem startIdx_val (s : State) : (startIdx s).val = s.val := rfl
@[simp] theorem startIdx_pbuf (s : State) : (startIdx s).pbuf = s.pbuf := rfl
@[simp] theorem startIdx_cfg (s : State) : (startIdx s).cfg = s.cfg := rfl
@[simp] theorem startIdx_host (s : State) : (startIdx s).host = s.host := rfl
@[simp] theorem startIdx_moves (s : State) : (startIdx s).moves = s.moves := rfl
@[simp] theorem startIdx_movesRest (s : State) : (startIdx s).movesRest = s.movesRest := rfl
@[simp] theorem startIdx_draws (s : State) : (startIdx s).draws = s.draws := rfl

/-! ### `writeAr` -/

@[simp] theorem writeAr_keyst (v : Word) (s : State) : (writeAr v s).keyst = s.keyst := rfl
@[simp] theorem writeAr_crLock (v : Word) (s : State) : (writeAr v s).crLock = s.crLock := rfl
@[simp] theorem writeAr_crPg (v : Word) (s : State) : (writeAr v s).crPg = s.crPg := rfl
@[simp] theorem writeAr_crPer (v : Word) (s : State) : (writeAr v s).crPer = s.crPer := rfl
@[simp] theorem writeAr_crStrt (v : Word) (s : State) : (writeAr v s).crStrt = s.crStrt := rfl
@[simp] theorem writeAr_srBsy (v : Word) (s : State) : (writeAr v s).srBsy = s.srBsy := rfl
@[simp] theorem writeAr_ar (v : Word) (s : State) : (writeAr v s).ar = v := rfl
@[simp] theorem writeAr_pend (v : Word) (s : State) : (writeAr v s).pend = s.pend := rfl
@[simp] theorem writeAr_flash (v : Word) (s : State) : (writeAr v s).flash = s.flash := rfl
@[simp] theorem writeAr_crcacc (v : Word) (s : State) : (writeAr v s).crcacc = s.crcacc := rfl
@[simp] theorem writeAr_crcen (v : Word) (s : State) : (writeAr v s).crcen = s.crcen := rfl
@[simp] theorem writeAr_run (v : Word) (s : State) : (writeAr v s).run = s.run := rfl
@[simp] theorem writeAr_pos (v : Word) (s : State) : (writeAr v s).pos = s.pos := rfl
@[simp] theorem writeAr_opc (v : Word) (s : State) : (writeAr v s).opc = s.opc := rfl
@[simp] theorem writeAr_a (v : Word) (s : State) : (writeAr v s).a = s.a := rfl
@[simp] theorem writeAr_h (v : Word) (s : State) : (writeAr v s).h = s.h := rfl
@[simp] theorem writeAr_idx (v : Word) (s : State) : (writeAr v s).idx = s.idx := rfl
@[simp] theorem writeAr_ok (v : Word) (s : State) : (writeAr v s).ok = s.ok := rfl
@[simp] theorem writeAr_err (v : Word) (s : State) : (writeAr v s).err = s.err := rfl
@[simp] theorem writeAr_val (v : Word) (s : State) : (writeAr v s).val = s.val := rfl
@[simp] theorem writeAr_pbuf (v : Word) (s : State) : (writeAr v s).pbuf = s.pbuf := rfl
@[simp] theorem writeAr_cfg (v : Word) (s : State) : (writeAr v s).cfg = s.cfg := rfl
@[simp] theorem writeAr_host (v : Word) (s : State) : (writeAr v s).host = s.host := rfl
@[simp] theorem writeAr_moves (v : Word) (s : State) : (writeAr v s).moves = s.moves := rfl
@[simp] theorem writeAr_movesRest (v : Word) (s : State) : (writeAr v s).movesRest = s.movesRest := rfl
@[simp] theorem writeAr_draws (v : Word) (s : State) : (writeAr v s).draws = s.draws := rfl

/-! ### `crcReset` -/

@[simp] theorem crcReset_keyst (s : State) : (crcReset s).keyst = s.keyst := rfl
@[simp] theorem crcReset_crLock (s : State) : (crcReset s).crLock = s.crLock := rfl
@[simp] theorem crcReset_crPg (s : State) : (crcReset s).crPg = s.crPg := rfl
@[simp] theorem crcReset_crPer (s : State) : (crcReset s).crPer = s.crPer := rfl
@[simp] theorem crcReset_crStrt (s : State) : (crcReset s).crStrt = s.crStrt := rfl
@[simp] theorem crcReset_srBsy (s : State) : (crcReset s).srBsy = s.srBsy := rfl
@[simp] theorem crcReset_ar (s : State) : (crcReset s).ar = s.ar := rfl
@[simp] theorem crcReset_pend (s : State) : (crcReset s).pend = s.pend := rfl
@[simp] theorem crcReset_flash (s : State) : (crcReset s).flash = s.flash := rfl
@[simp] theorem crcReset_crcacc (s : State) : (crcReset s).crcacc = s.cfg.crcInit := rfl
@[simp] theorem crcReset_crcen (s : State) : (crcReset s).crcen = s.crcen := rfl
@[simp] theorem crcReset_run (s : State) : (crcReset s).run = s.run := rfl
@[simp] theorem crcReset_pos (s : State) : (crcReset s).pos = s.pos := rfl
@[simp] theorem crcReset_opc (s : State) : (crcReset s).opc = s.opc := rfl
@[simp] theorem crcReset_a (s : State) : (crcReset s).a = s.a := rfl
@[simp] theorem crcReset_h (s : State) : (crcReset s).h = s.h := rfl
@[simp] theorem crcReset_idx (s : State) : (crcReset s).idx = s.idx := rfl
@[simp] theorem crcReset_ok (s : State) : (crcReset s).ok = s.ok := rfl
@[simp] theorem crcReset_err (s : State) : (crcReset s).err = s.err := rfl
@[simp] theorem crcReset_val (s : State) : (crcReset s).val = s.val := rfl
@[simp] theorem crcReset_pbuf (s : State) : (crcReset s).pbuf = s.pbuf := rfl
@[simp] theorem crcReset_cfg (s : State) : (crcReset s).cfg = s.cfg := rfl
@[simp] theorem crcReset_host (s : State) : (crcReset s).host = s.host := rfl
@[simp] theorem crcReset_moves (s : State) : (crcReset s).moves = s.moves := rfl
@[simp] theorem crcReset_movesRest (s : State) : (crcReset s).movesRest = s.movesRest := rfl
@[simp] theorem crcReset_draws (s : State) : (crcReset s).draws = s.draws := rfl

/-! ### `crcWrite` -/

@[simp] theorem crcWrite_keyst (x : Word) (s : State) : (crcWrite x s).keyst = s.keyst := rfl
@[simp] theorem crcWrite_crLock (x : Word) (s : State) : (crcWrite x s).crLock = s.crLock := rfl
@[simp] theorem crcWrite_crPg (x : Word) (s : State) : (crcWrite x s).crPg = s.crPg := rfl
@[simp] theorem crcWrite_crPer (x : Word) (s : State) : (crcWrite x s).crPer = s.crPer := rfl
@[simp] theorem crcWrite_crStrt (x : Word) (s : State) : (crcWrite x s).crStrt = s.crStrt := rfl
@[simp] theorem crcWrite_srBsy (x : Word) (s : State) : (crcWrite x s).srBsy = s.srBsy := rfl
@[simp] theorem crcWrite_ar (x : Word) (s : State) : (crcWrite x s).ar = s.ar := rfl
@[simp] theorem crcWrite_pend (x : Word) (s : State) : (crcWrite x s).pend = s.pend := rfl
@[simp] theorem crcWrite_flash (x : Word) (s : State) : (crcWrite x s).flash = s.flash := rfl
@[simp] theorem crcWrite_crcacc (x : Word) (s : State) : (crcWrite x s).crcacc = crcStep s.cfg.poly s.crcacc x := rfl
@[simp] theorem crcWrite_crcen (x : Word) (s : State) : (crcWrite x s).crcen = s.crcen := rfl
@[simp] theorem crcWrite_run (x : Word) (s : State) : (crcWrite x s).run = s.run := rfl
@[simp] theorem crcWrite_pos (x : Word) (s : State) : (crcWrite x s).pos = s.pos := rfl
@[simp] theorem crcWrite_opc (x : Word) (s : State) : (crcWrite x s).opc = s.opc := rfl
@[simp] theorem crcWrite_a (x : Word) (s : State) : (crcWrite x s).a = s.a := rfl
@[simp] theorem crcWrite_h (x : Word) (s : State) : (crcWrite x s).h = s.h := rfl
@[simp] theorem crcWrite_idx (x : Word) (s : State) : (crcWrite x s).idx = s.idx := rfl
@[simp] theorem crcWrite_ok (x : Word) (s : State) : (crcWrite x s).ok = s.ok := rfl
@[simp] theorem crcWrite_err (x : Word) (s : State) : (crcWrite x s).err = s.err := rfl
@[simp] theorem crcWrite_val (x : Word) (s : State) : (crcWrite x s).val = s.val := rfl
@[simp] theorem crcWrite_pbuf (x : Word) (s : State) : (crcWrite x s).pbuf = s.pbuf := rfl
@[simp] theorem crcWrite_cfg (x : Word) (s : State) : (crcWrite x s).cfg = s.cfg := rfl
@[simp] theorem crcWrite_host (x : Word) (s : State) : (crcWrite x s).host = s.host := rfl
@[simp] theorem crcWrite_moves (x : Word) (s : State) : (crcWrite x s).moves = s.moves := rfl
@[simp] theorem crcWrite_movesRest (x : Word) (s : State) : (crcWrite x s).movesRest = s.movesRest := rfl
@[simp] theorem crcWrite_draws (x : Word) (s : State) : (crcWrite x s).draws = s.draws := rfl

/-! ### `drawHalf` -/

@[simp] theorem drawHalf_keyst (s : State) : ((drawHalf s).2).keyst = s.keyst := rfl
@[simp] theorem drawHalf_crLock (s : State) : ((drawHalf s).2).crLock = s.crLock := rfl
@[simp] theorem drawHalf_crPg (s : State) : ((drawHalf s).2).crPg = s.crPg := rfl
@[simp] theorem drawHalf_crPer (s : State) : ((drawHalf s).2).crPer = s.crPer := rfl
@[simp] theorem drawHalf_crStrt (s : State) : ((drawHalf s).2).crStrt = s.crStrt := rfl
@[simp] theorem drawHalf_srBsy (s : State) : ((drawHalf s).2).srBsy = s.srBsy := rfl
@[simp] theorem drawHalf_ar (s : State) : ((drawHalf s).2).ar = s.ar := rfl
@[simp] theorem drawHalf_pend (s : State) : ((drawHalf s).2).pend = s.pend := rfl
@[simp] theorem drawHalf_flash (s : State) : ((drawHalf s).2).flash = s.flash := rfl
@[simp] theorem drawHalf_crcacc (s : State) : ((drawHalf s).2).crcacc = s.crcacc := rfl
@[simp] theorem drawHalf_crcen (s : State) : ((drawHalf s).2).crcen = s.crcen := rfl
@[simp] theorem drawHalf_run (s : State) : ((drawHalf s).2).run = s.run := rfl
@[simp] theorem drawHalf_pos (s : State) : ((drawHalf s).2).pos = s.pos := rfl
@[simp] theorem drawHalf_opc (s : State) : ((drawHalf s).2).opc = s.opc := rfl
@[simp] theorem drawHalf_a (s : State) : ((drawHalf s).2).a = s.a := rfl
@[simp] theorem drawHalf_h (s : State) : ((drawHalf s).2).h = s.h := rfl
@[simp] theorem drawHalf_idx (s : State) : ((drawHalf s).2).idx = s.idx := rfl
@[simp] theorem drawHalf_ok (s : State) : ((drawHalf s).2).ok = s.ok := rfl
@[simp] theorem drawHalf_err (s : State) : ((drawHalf s).2).err = s.err := rfl
@[simp] theorem drawHalf_val (s : State) : ((drawHalf s).2).val = s.val := rfl
@[simp] theorem drawHalf_pbuf (s : State) : ((drawHalf s).2).pbuf = s.pbuf := rfl
@[simp] theorem drawHalf_cfg (s : State) : ((drawHalf s).2).cfg = s.cfg := rfl
@[simp] theorem drawHalf_host (s : State) : ((drawHalf s).2).host = s.host := rfl
@[simp] theorem drawHalf_moves (s : State) : ((drawHalf s).2).moves = s.moves := rfl
@[simp] theorem drawHalf_movesRest (s : State) : ((drawHalf s).2).movesRest = s.movesRest := rfl
@[simp] theorem drawHalf_draws (s : State) : ((drawHalf s).2).draws = s.draws + 1 := rfl

/-! ### `drawByte` -/

@[simp] theorem drawByte_keyst (s : State) : ((drawByte s).2).keyst = s.keyst := rfl
@[simp] theorem drawByte_crLock (s : State) : ((drawByte s).2).crLock = s.crLock := rfl
@[simp] theorem drawByte_crPg (s : State) : ((drawByte s).2).crPg = s.crPg := rfl
@[simp] theorem drawByte_crPer (s : State) : ((drawByte s).2).crPer = s.crPer := rfl
@[simp] theorem drawByte_crStrt (s : State) : ((drawByte s).2).crStrt = s.crStrt := rfl
@[simp] theorem drawByte_srBsy (s : State) : ((drawByte s).2).srBsy = s.srBsy := rfl
@[simp] theorem drawByte_ar (s : State) : ((drawByte s).2).ar = s.ar := rfl
@[simp] theorem drawByte_pend (s : State) : ((drawByte s).2).pend = s.pend := rfl
@[simp] theorem drawByte_flash (s : State) : ((drawByte s).2).flash = s.flash := rfl
@[simp] theorem drawByte_crcacc (s : State) : ((drawByte s).2).crcacc = s.crcacc := rfl
@[simp] theorem drawByte_crcen (s : State) : ((drawByte s).2).crcen = s.crcen := rfl
@[simp] theorem drawByte_run (s : State) : ((drawByte s).2).run = s.run := rfl
@[simp] theorem drawByte_pos (s : State) : ((drawByte s).2).pos = s.pos := rfl
@[simp] theorem drawByte_opc (s : State) : ((drawByte s).2).opc = s.opc := rfl
@[simp] theorem drawByte_a (s : State) : ((drawByte s).2).a = s.a := rfl
@[simp] theorem drawByte_h (s : State) : ((drawByte s).2).h = s.h := rfl
@[simp] theorem drawByte_idx (s : State) : ((drawByte s).2).idx = s.idx := rfl
@[simp] theorem drawByte_ok (s : State) : ((drawByte s).2).ok = s.ok := rfl
@[simp] theorem drawByte_err (s : State) : ((drawByte s).2).err = s.err := rfl
@[simp] theorem drawByte_val (s : State) : ((drawByte s).2).val = s.val := rfl
@[simp] theorem drawByte_pbuf (s : State) : ((drawByte s).2).pbuf = s.pbuf := rfl
@[simp] theorem drawByte_cfg (s : State) : ((drawByte s).2).cfg = s.cfg := rfl
@[simp] theorem drawByte_host (s : State) : ((drawByte s).2).host = s.host := rfl
@[simp] theorem drawByte_moves (s : State) : ((drawByte s).2).moves = s.moves := rfl
@[simp] theorem drawByte_movesRest (s : State) : ((drawByte s).2).movesRest = s.movesRest := rfl
@[simp] theorem drawByte_draws (s : State) : ((drawByte s).2).draws = s.draws + 1 := rfl

/-! ### `lockout` -/

@[simp] theorem lockout_keyst (s : State) : (lockout s).keyst = if s.cfg.keyLockoutSticky then .dead else .k0 := rfl
@[simp] theorem lockout_crLock (s : State) : (lockout s).crLock = true := rfl
@[simp] theorem lockout_crPg (s : State) : (lockout s).crPg = s.crPg := rfl
@[simp] theorem lockout_crPer (s : State) : (lockout s).crPer = s.crPer := rfl
@[simp] theorem lockout_crStrt (s : State) : (lockout s).crStrt = s.crStrt := rfl
@[simp] theorem lockout_srBsy (s : State) : (lockout s).srBsy = s.srBsy := rfl
@[simp] theorem lockout_ar (s : State) : (lockout s).ar = s.ar := rfl
@[simp] theorem lockout_pend (s : State) : (lockout s).pend = s.pend := rfl
@[simp] theorem lockout_flash (s : State) : (lockout s).flash = s.flash := rfl
@[simp] theorem lockout_crcacc (s : State) : (lockout s).crcacc = s.crcacc := rfl
@[simp] theorem lockout_crcen (s : State) : (lockout s).crcen = s.crcen := rfl
@[simp] theorem lockout_run (s : State) : (lockout s).run = s.run := rfl
@[simp] theorem lockout_pos (s : State) : (lockout s).pos = s.pos := rfl
@[simp] theorem lockout_opc (s : State) : (lockout s).opc = s.opc := rfl
@[simp] theorem lockout_a (s : State) : (lockout s).a = s.a := rfl
@[simp] theorem lockout_h (s : State) : (lockout s).h = s.h := rfl
@[simp] theorem lockout_idx (s : State) : (lockout s).idx = s.idx := rfl
@[simp] theorem lockout_ok (s : State) : (lockout s).ok = s.ok := rfl
@[simp] theorem lockout_err (s : State) : (lockout s).err = s.err := rfl
@[simp] theorem lockout_val (s : State) : (lockout s).val = s.val := rfl
@[simp] theorem lockout_pbuf (s : State) : (lockout s).pbuf = s.pbuf := rfl
@[simp] theorem lockout_cfg (s : State) : (lockout s).cfg = s.cfg := rfl
@[simp] theorem lockout_host (s : State) : (lockout s).host = s.host := rfl
@[simp] theorem lockout_moves (s : State) : (lockout s).moves = s.moves := rfl
@[simp] theorem lockout_movesRest (s : State) : (lockout s).movesRest = s.movesRest := rfl
@[simp] theorem lockout_draws (s : State) : (lockout s).draws = s.draws := rfl

/-! ### `setLock` -/

@[simp] theorem setLock_keyst (s : State) : (setLock s).keyst = if s.keyst = .dead then .dead else .k0 := rfl
@[simp] theorem setLock_crLock (s : State) : (setLock s).crLock = true := rfl
@[simp] theorem setLock_crPg (s : State) : (setLock s).crPg = s.crPg := rfl
@[simp] theorem setLock_crPer (s : State) : (setLock s).crPer = s.crPer := rfl
@[simp] theorem setLock_crStrt (s : State) : (setLock s).crStrt = s.crStrt := rfl
@[simp] theorem setLock_srBsy (s : State) : (setLock s).srBsy = s.srBsy := rfl
@[simp] theorem setLock_ar (s : State) : (setLock s).ar = s.ar := rfl
@[simp] theorem setLock_pend (s : State) : (setLock s).pend = s.pend := rfl
@[simp] theorem setLock_flash (s : State) : (setLock s).flash = s.flash := rfl
@[simp] theorem setLock_crcacc (s : State) : (setLock s).crcacc = s.crcacc := rfl
@[simp] theorem setLock_crcen (s : State) : (setLock s).crcen = s.crcen := rfl
@[simp] theorem setLock_run (s : State) : (setLock s).run = s.run := rfl
@[simp] theorem setLock_pos (s : State) : (setLock s).pos = s.pos := rfl
@[simp] theorem setLock_opc (s : State) : (setLock s).opc = s.opc := rfl
@[simp] theorem setLock_a (s : State) : (setLock s).a = s.a := rfl
@[simp] theorem setLock_h (s : State) : (setLock s).h = s.h := rfl
@[simp] theorem setLock_idx (s : State) : (setLock s).idx = s.idx := rfl
@[simp] theorem setLock_ok (s : State) : (setLock s).ok = s.ok := rfl
@[simp] theorem setLock_err (s : State) : (setLock s).err = s.err := rfl
@[simp] theorem setLock_val (s : State) : (setLock s).val = s.val := rfl
@[simp] theorem setLock_pbuf (s : State) : (setLock s).pbuf = s.pbuf := rfl
@[simp] theorem setLock_cfg (s : State) : (setLock s).cfg = s.cfg := rfl
@[simp] theorem setLock_host (s : State) : (setLock s).host = s.host := rfl
@[simp] theorem setLock_moves (s : State) : (setLock s).moves = s.moves := rfl
@[simp] theorem setLock_movesRest (s : State) : (setLock s).movesRest = s.movesRest := rfl
@[simp] theorem setLock_draws (s : State) : (setLock s).draws = s.draws := rfl

/-! ### `clrPg` -/

@[simp] theorem clrPg_keyst (s : State) : (clrPg s).keyst = s.keyst := by unfold clrPg; split <;> rfl
@[simp] theorem clrPg_crLock (s : State) : (clrPg s).crLock = s.crLock := by unfold clrPg; split <;> rfl
@[simp] theorem clrPg_crPg (s : State) : (clrPg s).crPg = if s.crLock then s.crPg else false := by unfold clrPg; split <;> rfl
@[simp] theorem clrPg_crPer (s : State) : (clrPg s).crPer = s.crPer := by unfold clrPg; split <;> rfl
@[simp] theorem clrPg_crStrt (s : State) : (clrPg s).crStrt = s.crStrt := by unfold clrPg; split <;> rfl
@[simp] theorem clrPg_srBsy (s : State) : (clrPg s).srBsy = s.srBsy := by unfold clrPg; split <;> rfl
@[simp] theorem clrPg_ar (s : State) : (clrPg s).ar = s.ar := by unfold clrPg; split <;> rfl
@[simp] theorem clrPg_pend (s : State) : (clrPg s).pend = s.pend := by unfold clrPg; split <;> rfl
@[simp] theorem clrPg_flash (s : State) : (clrPg s).flash = s.flash := by unfold clrPg; split <;> rfl
@[simp] theorem clrPg_crcacc (s : State) : (clrPg s).crcacc = s.crcacc := by unfold clrPg; split <;> rfl
@[simp] theorem clrPg_crcen (s : State) : (clrPg s).crcen = s.crcen := by unfold clrPg; split <;> rfl
@[simp] theorem clrPg_run (s : State) : (clrPg s).run = s.run := by unfold clrPg; split <;> rfl
@[simp] theorem clrPg_pos (s : State) : (clrPg s).pos = s.pos := by unfold clrPg; split <;> rfl
@[simp] theorem clrPg_opc (s : State) : (clrPg s).opc = s.opc := by unfold clrPg; split <;> rfl
@[simp] theorem clrPg_a (s : State) : (clrPg s).a = s.a := by unfold clrPg; split <;> rfl
@[simp] theorem clrPg_h (s : State) : (clrPg s).h = s.h := by unfold clrPg; split <;> rfl
@[simp] theorem clrPg_idx (s : State) : (clrPg s).idx = s.idx := by unfold clrPg; split <;> rfl
@[simp] theorem clrPg_ok (s : State) : (clrPg s).ok = s.ok := by unfold clrPg; split <;> rfl
@[simp] theorem clrPg_err (s : State) : (clrPg s).err = s.err := by unfold clrPg; split <;> rfl
@[simp] theorem clrPg_val (s : State) : (clrPg s).val = s.val := by unfold clrPg; split <;> rfl
@[simp] theorem clrPg_pbuf (s : State) : (clrPg s).pbuf = s.pbuf := by unfold clrPg; split <;> rfl
@[simp] theorem clrPg_cfg (s : State) : (clrPg s).cfg = s.cfg := by unfold clrPg; split <;> rfl
@[simp] theorem clrPg_host (s : State) : (clrPg s).host = s.host := by unfold clrPg; split <;> rfl
@[simp] theorem clrPg_moves (s : State) : (clrPg s).moves = s.moves := by unfold clrPg; split <;> rfl
@[simp] theorem clrPg_movesRest (s : State) : (clrPg s).movesRest = s.movesRest := by unfold clrPg; split <;> rfl
@[simp] theorem clrPg_draws (s : State) : (clrPg s).draws = s.draws := by unfold clrPg; split <;> rfl

/-! ### `clrPer` -/

@[simp] theorem clrPer_keyst (s : State) : (clrPer s).keyst = s.keyst := by unfold clrPer; split <;> rfl
@[simp] theorem clrPer_crLock (s : State) : (clrPer s).crLock = s.crLock := by unfold clrPer; split <;> rfl
@[simp] theorem clrPer_crPg (s : State) : (clrPer s).crPg = s.crPg := by unfold clrPer; split <;> rfl
@[simp] theorem clrPer_crPer (s : State) : (clrPer s).crPer = if s.crLock then s.crPer else false := by unfold clrPer; split <;> rfl
@[simp] theorem clrPer_crStrt (s : State) : (clrPer s).crStrt = s.crStrt := by unfold clrPer; split <;> rfl
@[simp] theorem clrPer_srBsy (s : State) : (clrPer s).srBsy = s.srBsy := by unfold clrPer; split <;> rfl
@[simp] theorem clrPer_ar (s : State) : (clrPer s).ar = s.ar := by unfold clrPer; split <;> rfl
@[simp] theorem clrPer_pend (s : State) : (clrPer s).pend = s.pend := by unfold clrPer; split <;> rfl
@[simp] theorem clrPer_flash (s : State) : (clrPer s).flash = s.flash := by unfold clrPer; split <;> rfl
@[simp] theorem clrPer_crcacc (s : State) : (clrPer s).crcacc = s.crcacc := by unfold clrPer; split <;> rfl
@[simp] theorem clrPer_crcen (s : State) : (clrPer s).crcen = s.crcen := by unfold clrPer; split <;> rfl
@[simp] theorem clrPer_run (s : State) : (clrPer s).run = s.run := by unfold clrPer; split <;> rfl
@[simp] theorem clrPer_pos (s : State) : (clrPer s).pos = s.pos := by unfold clrPer; split <;> rfl
@[simp] theorem clrPer_opc (s : State) : (clrPer s).opc = s.opc := by unfold clrPer; split <;> rfl
@[simp] theorem clrPer_a (s : State) : (clrPer s).a = s.a := by unfold clrPer; split <;> rfl
@[simp] theorem clrPer_h (s : State) : (clrPer s).h = s.h := by unfold clrPer; split <;> rfl
@[simp] theorem clrPer_idx (s : State) : (clrPer s).idx = s.idx := by unfold clrPer; split <;> rfl
@[simp] theorem clrPer_ok (s : State) : (clrPer s).ok = s.ok := by unfold clrPer; split <;> rfl
@[simp] theorem clrPer_err (s : State) : (clrPer s).err = s.err := by unfold clrPer; split <;> rfl
@[simp] theorem clrPer_val (s : State) : (clrPer s).val = s.val := by unfold clrPer; split <;> rfl
@[simp] theorem clrPer_pbuf (s : State) : (clrPer s).pbuf = s.pbuf := by unfold clrPer; split <;> rfl
@[simp] theorem clrPer_cfg (s : State) : (clrPer s).cfg = s.cfg := by unfold clrPer; split <;> rfl
@[simp] theorem clrPer_host (s : State) : (clrPer s).host = s.host := by unfold clrPer; split <;> rfl
@[simp] theorem clrPer_moves (s : State) : (clrPer s).moves = s.moves := by unfold clrPer; split <;> rfl
@[simp] theorem clrPer_movesRest (s : State) : (clrPer s).movesRest = s.movesRest := by unfold clrPer; split <;> rfl
@[simp] theorem clrPer_draws (s : State) : (clrPer s).draws = s.draws := by unfold clrPer; split <;> rfl

/-! ### `keyWrite` -/

@[simp] theorem keyWrite_crPg (v : Word) (s : State) : (keyWrite v s).crPg = s.crPg := by unfold keyWrite lockout; split <;> (try split) <;> rfl
@[simp] theorem keyWrite_crPer (v : Word) (s : State) : (keyWrite v s).crPer = s.crPer := by unfold keyWrite lockout; split <;> (try split) <;> rfl
@[simp] theorem keyWrite_crStrt (v : Word) (s : State) : (keyWrite v s).crStrt = s.crStrt := by unfold keyWrite lockout; split <;> (try split) <;> rfl
@[simp] theorem keyWrite_srBsy (v : Word) (s : State) : (keyWrite v s).srBsy = s.srBsy := by unfold keyWrite lockout; split <;> (try split) <;> rfl
@[simp] theorem keyWrite_ar (v : Word) (s : State) : (keyWrite v s).ar = s.ar := by unfold keyWrite lockout; split <;> (try split) <;> rfl
@[simp] theorem keyWrite_pend (v : Word) (s : State) : (keyWrite v s).pend = s.pend := by unfold keyWrite lockout; split <;> (try split) <;> rfl
@[simp] theorem keyWrite_flash (v : Word) (s : State) : (keyWrite v s).flash = s.flash := by unfold keyWrite lockout; split <;> (try split) <;> rfl
@[simp] theorem keyWrite_crcacc (v : Word) (s : State) : (keyWrite v s).crcacc = s.crcacc := by unfold keyWrite lockout; split <;> (try split) <;> rfl
@[simp] theorem keyWrite_crcen (v : Word) (s : State) : (keyWrite v s).crcen = s.crcen := by unfold keyWrite lockout; split <;> (try split) <;> rfl
@[simp] theorem keyWrite_run (v : Word) (s : State) : (keyWrite v s).run = s.run := by unfold keyWrite lockout; split <;> (try split) <;> rfl
@[simp] theorem keyWrite_pos (v : Word) (s : State) : (keyWrite v s).pos = s.pos := by unfold keyWrite lockout; split <;> (try split) <;> rfl
@[simp] theorem keyWrite_opc (v : Word) (s : State) : (keyWrite v s).opc = s.opc := by unfold keyWrite lockout; split <;> (try split) <;> rfl
@[simp] theorem keyWrite_a (v : Word) (s : State) : (keyWrite v s).a = s.a := by unfold keyWrite lockout; split <;> (try split) <;> rfl
@[simp] theorem keyWrite_h (v : Word) (s : State) : (keyWrite v s).h = s.h := by unfold keyWrite lockout; split <;> (try split) <;> rfl
@[simp] theorem keyWrite_idx (v : Word) (s : State) : (keyWrite v s).idx = s.idx := by unfold keyWrite lockout; split <;> (try split) <;> rfl
@[simp] theorem keyWrite_ok (v : Word) (s : State) : (keyWrite v s).ok = s.ok := by unfold keyWrite lockout; split <;> (try split) <;> rfl
@[simp] theorem keyWrite_err (v : Word) (s : State) : (keyWrite v s).err = s.err := by unfold keyWrite lockout; split <;> (try split) <;> rfl
@[simp] theorem keyWrite_val (v : Word) (s : State) : (keyWrite v s).val = s.val := by unfold keyWrite lockout; split <;> (try split) <;> rfl
@[simp] theorem keyWrite_pbuf (v : Word) (s : State) : (keyWrite v s).pbuf = s.pbuf := by unfold keyWrite lockout; split <;> (try split) <;> rfl
@[simp] theorem keyWrite_cfg (v : Word) (s : State) : (keyWrite v s).cfg = s.cfg := by unfold keyWrite lockout; split <;> (try split) <;> rfl
@[simp] theorem keyWrite_host (v : Word) (s : State) : (keyWrite v s).host = s.host := by unfold keyWrite lockout; split <;> (try split) <;> rfl
@[simp] theorem keyWrite_moves (v : Word) (s : State) : (keyWrite v s).moves = s.moves := by unfold keyWrite lockout; split <;> (try split) <;> rfl
@[simp] theorem keyWrite_movesRest (v : Word) (s : State) : (keyWrite v s).movesRest = s.movesRest := by unfold keyWrite lockout; split <;> (try split) <;> rfl
@[simp] theorem keyWrite_draws (v : Word) (s : State) : (keyWrite v s).draws = s.draws := by unfold keyWrite lockout; split <;> (try split) <;> rfl

/-! ### `resetRegs`: what reset sets to a stated value, and what it keeps (R43) -/

@[simp] theorem resetRegs_keyst (s : State) : (resetRegs s).keyst = .k0 := rfl
@[simp] theorem resetRegs_crLock (s : State) : (resetRegs s).crLock = true := rfl
@[simp] theorem resetRegs_crPg (s : State) : (resetRegs s).crPg = false := rfl
@[simp] theorem resetRegs_crPer (s : State) : (resetRegs s).crPer = false := rfl
@[simp] theorem resetRegs_crStrt (s : State) : (resetRegs s).crStrt = false := rfl
@[simp] theorem resetRegs_srBsy (s : State) : (resetRegs s).srBsy = false := rfl
@[simp] theorem resetRegs_pend (s : State) : (resetRegs s).pend = .none := rfl
@[simp] theorem resetRegs_crcacc (s : State) : (resetRegs s).crcacc = s.cfg.crcInit := rfl
@[simp] theorem resetRegs_crcen (s : State) : (resetRegs s).crcen = false := rfl
@[simp] theorem resetRegs_run (s : State) : (resetRegs s).run = false := rfl
@[simp] theorem resetRegs_pos (s : State) : (resetRegs s).pos = .idle := rfl
@[simp] theorem resetRegs_flash (s : State) : (resetRegs s).flash = s.flash := rfl
@[simp] theorem resetRegs_pbuf (s : State) : (resetRegs s).pbuf = s.pbuf := rfl
@[simp] theorem resetRegs_cfg (s : State) : (resetRegs s).cfg = s.cfg := rfl
@[simp] theorem resetRegs_host (s : State) : (resetRegs s).host = s.host := rfl
@[simp] theorem resetRegs_moves (s : State) : (resetRegs s).moves = s.moves := rfl
@[simp] theorem resetRegs_movesRest (s : State) : (resetRegs s).movesRest = s.movesRest := rfl

end Sys2Proof.Machine
end

