-- ==== Sys2Proof/Laws/Ops.lean ====
section
/-! SUPPORT. For each shared operation, what it can do: the geometry of a well-formed configuration, the
start of an operation, the operand checks, flash accesses, FCTL's completion step and the wait. -/

namespace Sys2Proof.Machine

/-- What `firstBad` finds: nothing below it is bad, and it is bad unless it is the bound. -/
theorem firstBad_spec (bad : Nat → Bool) (n : Nat) :
    firstBad bad n ≤ n ∧ (∀ i, i < firstBad bad n → bad i = false) ∧
      (firstBad bad n < n → bad (firstBad bad n) = true) := by
  induction n with
  | zero => simp [firstBad]
  | succ n ih =>
    obtain ⟨h1, h2, h3⟩ := ih
    by_cases hj : firstBad bad n < n
    · have e : firstBad bad (n + 1) = firstBad bad n := by simp [firstBad, hj]
      rw [e]
      exact ⟨by omega, h2, fun _ => h3 hj⟩
    · have hn : firstBad bad n = n := by omega
      rw [hn] at h2
      cases hb : bad n
      · have e : firstBad bad (n + 1) = n + 1 := by simp [firstBad, hj, hb]
        rw [e]
        refine ⟨Nat.le_refl _, fun i hi => ?_, fun h => absurd h (Nat.lt_irrefl _)⟩
        by_cases hin : i = n
        · rw [hin, hb]
        · exact h2 i (by omega)
      · have e : firstBad bad (n + 1) = n := by simp [firstBad, hj, hb]
        rw [e]
        exact ⟨by omega, h2, fun _ => hb⟩

/-- The number found is the only one with its properties. -/
theorem firstBad_eq {bad : Nat → Bool} {n j : Nat} (hj : j ≤ n) (hlow : ∀ i, i < j → bad i = false)
    (hbad : j < n → bad j = true) : firstBad bad n = j := by
  obtain ⟨h1, h2, h3⟩ := firstBad_spec bad n
  rcases Nat.lt_trichotomy (firstBad bad n) j with h | h | h
  · have := h3 (by omega)
    rw [hlow _ h] at this
    cases this
  · exact h
  · have := hbad (by omega)
    rw [h2 _ h] at this
    cases this

/-- The first bad number, counted from the front. -/
theorem firstBad_succ (bad : Nat → Bool) (n : Nat) :
    firstBad bad (n + 1) = if bad 0 then 0 else firstBad (fun i => bad (i + 1)) n + 1 := by
  cases hb : bad 0
  · obtain ⟨h1, h2, h3⟩ := firstBad_spec (fun i => bad (i + 1)) n
    refine firstBad_eq (by simpa using h1) (fun i hi => ?_) fun h => h3 (by simpa using h)
    cases i with
    | zero => exact hb
    | succ i => exact h2 i (by simpa using hi)
  · exact firstBad_eq (Nat.zero_le _) (fun i hi => absurd hi (Nat.not_lt_zero i)) fun _ => hb

/-- Nothing is bad: the bound. -/
theorem firstBad_none {bad : Nat → Bool} {n : Nat} (h : ∀ i, i < n → bad i = false) :
    firstBad bad n = n :=
  firstBad_eq (Nat.le_refl n) h fun hn => absurd hn (Nat.lt_irrefl n)

/-! ### Geometry of a well-formed configuration (R6, R51) -/

/-- What R6 says of a configuration, in the form arithmetic uses. -/
theorem wf_geometry {c : Config} (h : c.wf = true) :
    4 ≤ c.pageSize ∧ c.pageSize % 4 = 0 ∧ 2 * pageCells c = c.pageSize ∧ 4 * pageWords c = c.pageSize ∧
      0 < c.totalSize ∧ c.totalSize % c.pageSize = 0 ∧ c.origin % c.pageSize = 0 ∧
      c.origin + c.totalSize ≤ 2 ^ 32 := by
  simp only [Config.wf, Config.pageSizeOk, Config.totalSizeOk, Config.originOk, Bool.and_eq_true,
    decide_eq_true_eq] at h
  obtain ⟨⟨⟨hp, h4⟩, ht⟩, ho⟩ := h
  have hmod : c.pageSize % 4 = 0 := by
    have hk : 2 ≤ c.pageSize.log2 := by
      rcases Nat.lt_or_ge c.pageSize.log2 2 with hlt | hge
      · have : 2 ^ c.pageSize.log2 ≤ 2 ^ 1 := Nat.pow_le_pow_right (by omega) (by omega)
        omega
      · exact hge
    have hdvd : 2 ^ 2 ∣ 2 ^ c.pageSize.log2 := Nat.pow_dvd_pow 2 hk
    rw [← hp] at hdvd
    exact Nat.mod_eq_zero_of_dvd hdvd
  refine ⟨h4, hmod, ?_, ?_, ht.1, ht.2, ho.1, ho.2⟩
  · unfold pageCells; omega
  · unfold pageWords; omega

theorem inFlash_iff {c : Config} {a n : Nat} :
    inFlash c a n = true ↔ c.origin ≤ a ∧ a + n ≤ c.origin + c.totalSize := by
  simp [inFlash]

theorem pageAligned_iff {c : Config} {a : Word} :
    pageAligned c a = true ↔ a.toNat % c.pageSize = 0 := by
  simp [pageAligned]

theorem halfAligned_iff {a : Word} : halfAligned a = true ↔ a.toNat % 2 = 0 := by
  have h := BitVec.getLsbD_eq_getElem (x := a) (i := 0) (by omega)
  simp only [halfAligned, BitVec.getLsbD, Nat.testBit_zero, Bool.not_eq_eq_eq_not, Bool.not_true,
    decide_eq_false_iff_not]
  omega

/-- A page-aligned address is its own page's base (R51). -/
theorem pageBase_of_aligned {c : Config} {a : Nat} (h : c.wf = true) (ha : a % c.pageSize = 0)
    (ho : c.origin ≤ a) : pageBase c a = a := by
  obtain ⟨h4, -, -, -, -, -, hmod, -⟩ := wf_geometry h
  have hs : (a - c.origin) % c.pageSize = 0 := by
    have h1 := Nat.dvd_of_mod_eq_zero ha
    have h2 := Nat.dvd_of_mod_eq_zero hmod
    exact Nat.mod_eq_zero_of_dvd (Nat.dvd_sub h1 h2)
  have := Nat.div_add_mod (a - c.origin) c.pageSize
  unfold pageBase pageIndex
  rw [Nat.mul_comm]
  omega

/-! ### The start of an operation -/

/-- An accepting block runs the operation, with the operands latched. -/
theorem accept_of_accepting {s : State} (h : Accepting s) (opc : BitVec 4) (a : Word) (hw : Half)
    (body : State → Host.Outcome State Fault Refusal) :
    accept opc a hw body s = body { s with run := true, opc := opc, a := a, h := hw } := by
  simp [accept, h.1, h.2]

/-- An operation that answers a next state was accepted. -/
theorem accepting_of_next {s t : State} {opc : BitVec 4} {a : Word} {hw : Half}
    {body : State → Host.Outcome State Fault Refusal} (h : accept opc a hw body s = .next t) :
    Accepting s ∧ body { s with run := true, opc := opc, a := a, h := hw } = .next t := by
  unfold accept at h
  split at h
  · cases h
  · split at h
    · cases h
    · rename_i h1 h2
      exact ⟨⟨by simpa using h1, by simpa using h2⟩, h⟩

@[simp] theorem andThen_next (t : State) (rest : State → Host.Outcome State Fault Refusal) :
    andThen (.next t) rest = rest t := rfl

/-- A statement and the rest of the operation answer a next state exactly when both do. -/
theorem andThen_eq_next {o : Host.Outcome State Fault Refusal}
    {rest : State → Host.Outcome State Fault Refusal} {t : State} :
    andThen o rest = .next t ↔ ∃ u, o = .next u ∧ rest u = .next t := by
  cases o <;> simp [andThen]

/-- The three ways a word operation goes (R56, R58). -/
theorem wordOp_cases (a : Word) (body : State → Host.Outcome State Fault Refusal) (s : State) :
    (halfAligned a = false ∧ wordOp a body s = .next (failOp .alignHw s)) ∨
    (halfAligned a = true ∧ inFlash s.cfg a.toNat 2 = false ∧ wordOp a body s = .refused .outOfRange) ∨
    (halfAligned a = true ∧ inFlash s.cfg a.toNat 2 = true ∧ wordOp a body s = body s) := by
  unfold wordOp
  cases halfAligned a <;> cases inFlash s.cfg a.toNat 2 <;> simp

/-- The three ways a page operation goes (R57, R58). -/
theorem pageOp_cases (a : Word) (body : State → Host.Outcome State Fault Refusal) (s : State) :
    (pageAligned s.cfg a = false ∧ pageOp a body s = .next (failOp .alignPage s)) ∨
    (pageAligned s.cfg a = true ∧ inFlash s.cfg a.toNat s.cfg.pageSize = false ∧
      pageOp a body s = .refused .outOfRange) ∨
    (pageAligned s.cfg a = true ∧ inFlash s.cfg a.toNat s.cfg.pageSize = true ∧
      pageOp a body s = body s) := by
  unfold pageOp
  cases pageAligned s.cfg a <;> cases inFlash s.cfg a.toNat s.cfg.pageSize <;> simp

/-! ### Flash accesses -/

/-- A read with the busy flag clear is the cell, and changes nothing (R60). -/
theorem flashRead16_of_ready {s : State} (h : s.srBsy = false) (a : Nat) :
    flashRead16 a s = (readHalf s.flash a, s) := by simp [flashRead16, h]

/-- A read changes at most the count of free values. -/
theorem flashRead16_state (a : Nat) (s : State) :
    (flashRead16 a s).2 = s ∨ (flashRead16 a s).2 = { s with draws := s.draws + 1 } := by
  unfold flashRead16
  split
  · exact .inr rfl
  · exact .inl rfl

/-- Setting the programming enable, where it goes on, is ignored or sets the bit (R25). -/
theorem setPg_cases {s t : State} (h : setPg s = .next t) :
    (s.crLock = true ∧ t = s) ∨ (s.crLock = false ∧ s.crPer = false ∧ t = { s with crPg := true }) := by
  unfold setPg at h
  cases hl : s.crLock <;> cases hp : s.crPer <;> simp_all

/-- Setting the erase enable, where it goes on, is ignored or sets the bit (R25). -/
theorem setPer_cases {s t : State} (h : setPer s = .next t) :
    (s.crLock = true ∧ t = s) ∨ (s.crLock = false ∧ s.crPg = false ∧ t = { s with crPer := true }) := by
  unfold setPer at h
  cases hl : s.crLock <;> cases hp : s.crPg <;> simp_all

/-- Locked, setting an enable bit is ignored (R25). -/
theorem setPg_of_locked {s : State} (h : s.crLock = true) : setPg s = .next s := by simp [setPg, h]

theorem setPer_of_locked {s : State} (h : s.crLock = true) : setPer s = .next s := by simp [setPer, h]

/-- Unlocked, with the other enable bit clear, an enable bit is set (R25). -/
theorem setPg_of_open {s : State} (h : s.crLock = false) (hp : s.crPer = false) :
    setPg s = .next { s with crPg := true } := by simp [setPg, h, hp]

theorem setPer_of_open {s : State} (h : s.crLock = false) (hp : s.crPg = false) :
    setPer s = .next { s with crPer := true } := by simp [setPer, h, hp]

/-- Unlocked, an enable bit is cleared (R25). -/
theorem clrPg_of_open {s : State} (h : s.crLock = false) : clrPg s = { s with crPg := false } := by
  simp [clrPg, h]

theorem clrPer_of_open {s : State} (h : s.crLock = false) : clrPer s = { s with crPer := false } := by
  simp [clrPer, h]

/-- A flash write that goes on is ignored or starts a program (R61). -/
theorem flashWrite16_cases {a : Nat} {v : Half} {s t : State} (h : flashWrite16 a v s = .next t) :
    (s.crPg = false ∧ t = s) ∨
    (s.crPg = true ∧ s.srBsy = false ∧ t = { s with pend := .prog a v, srBsy := true }) := by
  unfold flashWrite16 at h
  cases hp : s.crPg <;> cases hb : s.srBsy <;> simp_all

/-- Setting the start bit, where it goes on, is ignored or starts an erase (R25, R62). -/
theorem setStrt_cases {s t : State} (h : setStrt s = .next t) :
    (s.crLock = true ∧ t = s) ∨
    (s.crLock = false ∧ s.crPer = true ∧ s.srBsy = false ∧ inFlash s.cfg s.ar.toNat 1 = true ∧
      t = { s with crStrt := true, pend := .erase s.ar.toNat, srBsy := true }) := by
  unfold setStrt at h
  split at h
  · simp_all
  · split at h
    · split at h <;> simp_all
    · cases h

/-! ### Results of program and erase, and filling cells -/

/-- The result of a program changes at most the count of free values (R64). -/
theorem programResult_state (old v : Half) (s : State) :
    (programResult old v s).2 = s ∨ (programResult old v s).2 = { s with draws := s.draws + 1 } := by
  unfold programResult
  split
  · exact .inl rfl
  · exact .inr rfl

/-- The result of an erase changes at most the count of free values (R64). -/
theorem eraseResult_state (s : State) :
    (eraseResult s).2 = s ∨ (eraseResult s).2 = { s with draws := s.draws + 1 } := by
  unfold eraseResult
  split
  · exact .inl rfl
  · exact .inr rfl

theorem drawHalf_state (s : State) :
    (drawHalf s).2 = s ∨ (drawHalf s).2 = { s with draws := s.draws + 1 } := .inr rfl

/-- Filling cells changes the flash array and the count of free values only; outside the cells filled every
byte reads as before; and the canonical form is kept. -/
theorem fillCells_spec {f : State → Half × State}
    (hf : ∀ s, (f s).2 = s ∨ (f s).2 = { s with draws := s.draws + 1 }) (n a : Nat) (s : State) :
    ∃ m d, fillCells f n a s = { s with flash := m, draws := d } ∧ SameOutside s.flash m a (2 * n) ∧
      (Memory.wf s.flash → Memory.wf m) ∧
      (∀ x ∈ m, x ∈ s.flash ∨ (a ≤ x.1 ∧ x.1 < a + 2 * n)) := by
  induction n generalizing a s with
  | zero => exact ⟨s.flash, s.draws, rfl, fun _ _ => rfl, id, fun x hx => .inl hx⟩
  | succ n ih =>
    obtain ⟨d0, hd0⟩ : ∃ d, (f s).2 = { s with draws := d } := by
      rcases hf s with h | h
      · exact ⟨s.draws, h⟩
      · exact ⟨_, h⟩
    obtain ⟨m, d, he, hs, hw, hin⟩ := ih (a + 2) { s with flash := writeHalf s.flash a (f s).1, draws := d0 }
    refine ⟨m, d, ?_, ?_, ?_, ?_⟩
    · simp only [fillCells, hd0]
      exact he
    · intro x hx
      rw [hs x (by omega)]
      exact readByte_writeHalf_outside _ _ (by omega)
    · intro h
      exact hw (wf_writeHalf h _ _)
    · intro x hx
      rcases hin x hx with h | h
      · rcases mem_writeHalf h with h | h | h
        · exact .inr (by omega)
        · exact .inr (by omega)
        · exact .inl h
      · exact .inr (by omega)

/-! ### FCTL's completion step -/

/-- What the completion step changes: the busy flag, what is in flight, the start bit, the cells of what was
in flight, and the count of free values (R63, R65). -/
theorem fctlComplete_spec (s : State) (h : s.pend ≠ .none) :
    ∃ m d, fctlComplete s =
        { s with
          flash := m, draws := d, pend := .none, srBsy := false
          crStrt := match s.pend with
            | .erase _ => false
            | _ => s.crStrt } ∧
      (Memory.wf s.flash → Memory.wf m) ∧
      (∀ a v, s.pend = .prog a v → m = writeHalf s.flash a (programResult (readHalf s.flash a) v s).1) ∧
      (∀ a, s.pend = .erase a →
        SameOutside s.flash m (pageBase s.cfg a) (2 * pageCells s.cfg) ∧
        ∀ x ∈ m, x ∈ s.flash ∨
          (pageBase s.cfg a ≤ x.1 ∧ x.1 < pageBase s.cfg a + 2 * pageCells s.cfg)) := by
  cases hp : s.pend with
  | none => exact absurd hp h
  | prog a v =>
    obtain ⟨d, hd⟩ : ∃ d, (programResult (readHalf s.flash a) v s).2 = { s with draws := d } := by
      rcases programResult_state (readHalf s.flash a) v s with h | h
      · exact ⟨s.draws, h⟩
      · exact ⟨_, h⟩
    refine ⟨writeHalf s.flash a (programResult (readHalf s.flash a) v s).1, d, ?_, ?_, ?_, ?_⟩
    · simp only [fctlComplete, hp, hd]
    · exact fun h => wf_writeHalf h _ _
    · rintro a' v' h
      cases h
      rfl
    · rintro a' h
      cases h
  | erase a =>
    obtain ⟨m, d, he, hs, hw, hin⟩ :=
      fillCells_spec eraseResult_state (pageCells s.cfg) (pageBase s.cfg a) s
    refine ⟨m, d, ?_, hw, ?_, ?_⟩
    · simp only [fctlComplete, hp, he]
    · rintro a' v' h
      cases h
    · rintro a' h
      cases h
      exact ⟨hs, hin⟩

theorem fctlComplete_of_none {s : State} (h : s.pend = .none) : fctlComplete s = s := by
  simp [fctlComplete, h]

/-- The completion step leaves these fields as they are. -/
theorem fctlComplete_frame (s : State) :
    ∃ m d p b c, fctlComplete s =
      { s with flash := m, draws := d, pend := p, srBsy := b, crStrt := c } := by
  by_cases h : s.pend = .none
  · exact ⟨s.flash, s.draws, s.pend, s.srBsy, s.crStrt, fctlComplete_of_none h⟩
  · obtain ⟨m, d, e, -⟩ := fctlComplete_spec s h
    exact ⟨m, d, _, _, _, e⟩

@[simp] theorem fctlComplete_keyst (s : State) : (fctlComplete s).keyst = s.keyst := by
  obtain ⟨m, d, p, b, c, e⟩ := fctlComplete_frame s; rw [e]

@[simp] theorem fctlComplete_crLock (s : State) : (fctlComplete s).crLock = s.crLock := by
  obtain ⟨m, d, p, b, c, e⟩ := fctlComplete_frame s; rw [e]

@[simp] theorem fctlComplete_crPg (s : State) : (fctlComplete s).crPg = s.crPg := by
  obtain ⟨m, d, p, b, c, e⟩ := fctlComplete_frame s; rw [e]

@[simp] theorem fctlComplete_crPer (s : State) : (fctlComplete s).crPer = s.crPer := by
  obtain ⟨m, d, p, b, c, e⟩ := fctlComplete_frame s; rw [e]

@[simp] theorem fctlComplete_ar (s : State) : (fctlComplete s).ar = s.ar := by
  obtain ⟨m, d, p, b, c, e⟩ := fctlComplete_frame s; rw [e]

@[simp] theorem fctlComplete_crcacc (s : State) : (fctlComplete s).crcacc = s.crcacc := by
  obtain ⟨m, d, p, b, c, e⟩ := fctlComplete_frame s; rw [e]

@[simp] theorem fctlComplete_crcen (s : State) : (fctlComplete s).crcen = s.crcen := by
  obtain ⟨m, d, p, b, c, e⟩ := fctlComplete_frame s; rw [e]

@[simp] theorem fctlComplete_run (s : State) : (fctlComplete s).run = s.run := by
  obtain ⟨m, d, p, b, c, e⟩ := fctlComplete_frame s; rw [e]

@[simp] theorem fctlComplete_pos (s : State) : (fctlComplete s).pos = s.pos := by
  obtain ⟨m, d, p, b, c, e⟩ := fctlComplete_frame s; rw [e]

@[simp] theorem fctlComplete_opc (s : State) : (fctlComplete s).opc = s.opc := by
  obtain ⟨m, d, p, b, c, e⟩ := fctlComplete_frame s; rw [e]

@[simp] theorem fctlComplete_a (s : State) : (fctlComplete s).a = s.a := by
  obtain ⟨m, d, p, b, c, e⟩ := fctlComplete_frame s; rw [e]

@[simp] theorem fctlComplete_h (s : State) : (fctlComplete s).h = s.h := by
  obtain ⟨m, d, p, b, c, e⟩ := fctlComplete_frame s; rw [e]

@[simp] theorem fctlComplete_idx (s : State) : (fctlComplete s).idx = s.idx := by
  obtain ⟨m, d, p, b, c, e⟩ := fctlComplete_frame s; rw [e]

@[simp] theorem fctlComplete_ok (s : State) : (fctlComplete s).ok = s.ok := by
  obtain ⟨m, d, p, b, c, e⟩ := fctlComplete_frame s; rw [e]

@[simp] theorem fctlComplete_err (s : State) : (fctlComplete s).err = s.err := by
  obtain ⟨m, d, p, b, c, e⟩ := fctlComplete_frame s; rw [e]

@[simp] theorem fctlComplete_val (s : State) : (fctlComplete s).val = s.val := by
  obtain ⟨m, d, p, b, c, e⟩ := fctlComplete_frame s; rw [e]

@[simp] theorem fctlComplete_pbuf (s : State) : (fctlComplete s).pbuf = s.pbuf := by
  obtain ⟨m, d, p, b, c, e⟩ := fctlComplete_frame s; rw [e]

@[simp] theorem fctlComplete_cfg (s : State) : (fctlComplete s).cfg = s.cfg := by
  obtain ⟨m, d, p, b, c, e⟩ := fctlComplete_frame s; rw [e]

@[simp] theorem fctlComplete_host (s : State) : (fctlComplete s).host = s.host := by
  obtain ⟨m, d, p, b, c, e⟩ := fctlComplete_frame s; rw [e]

@[simp] theorem fctlComplete_moves (s : State) : (fctlComplete s).moves = s.moves := by
  obtain ⟨m, d, p, b, c, e⟩ := fctlComplete_frame s; rw [e]

@[simp] theorem fctlComplete_movesRest (s : State) : (fctlComplete s).movesRest = s.movesRest := by
  obtain ⟨m, d, p, b, c, e⟩ := fctlComplete_frame s; rw [e]

theorem fctlComplete_pend (s : State) : (fctlComplete s).pend = .none := by
  by_cases h : s.pend = .none
  · rw [fctlComplete_of_none h, h]
  · obtain ⟨m, d, e, -⟩ := fctlComplete_spec s h
    rw [e]

theorem fctlComplete_srBsy {s : State} (h : s.pend ≠ .none) : (fctlComplete s).srBsy = false := by
  obtain ⟨m, d, e, -⟩ := fctlComplete_spec s h
  rw [e]

theorem fctlComplete_flash_wf {s : State} (h : Memory.wf s.flash) : Memory.wf (fctlComplete s).flash := by
  by_cases hp : s.pend = .none
  · rwa [fctlComplete_of_none hp]
  · obtain ⟨m, d, e, hw, -⟩ := fctlComplete_spec s hp
    rw [e]
    exact hw h

/-! ### The wait -/

/-- With the busy flag clear the wait returns at once and changes nothing (R70). -/
theorem waitNotBusy_of_ready {s : State} (h : s.srBsy = false) (p : Pos)
    (rest : State → Host.Outcome State Fault Refusal) : waitNotBusy p rest s = rest s := by
  simp [waitNotBusy, h]

/-- The three ways a wait that answers a next state went: not busy; completed; still waiting (R70). -/
theorem waitNotBusy_cases {p : Pos} {rest : State → Host.Outcome State Fault Refusal} {s t : State}
    (h : waitNotBusy p rest s = .next t) :
    (s.srBsy = false ∧ rest s = .next t) ∨
    (s.srBsy = true ∧ fctlReady s = true ∧ s.pend ≠ .none ∧
      rest (fctlComplete (usePoll s)) = .next t) ∨
    (s.srBsy = true ∧ (fctlReady s = false ∨ s.pend = .none) ∧ t = { usePoll s with pos := p }) := by
  unfold waitNotBusy at h
  cases hb : s.srBsy
  · simp_all
  · cases hr : fctlReady s <;> by_cases hp : s.pend = .none <;> simp_all

/-- A wait whose flag is set, with FCTL ready, goes on after the completion step. -/
theorem waitNotBusy_of_complete {s : State} (hb : s.srBsy = true) (hr : fctlReady s = true)
    (hp : s.pend ≠ .none) (p : Pos) (rest : State → Host.Outcome State Fault Refusal) :
    waitNotBusy p rest s = rest (fctlComplete (usePoll s)) := by
  simp [waitNotBusy, hb, hr, hp]

/-- A wait whose flag is set, with FCTL not ready, stays where it is. -/
theorem waitNotBusy_of_not_ready {s : State} (hb : s.srBsy = true) (hr : fctlReady s = false) (p : Pos)
    (rest : State → Host.Outcome State Fault Refusal) :
    waitNotBusy p rest s = .next { usePoll s with pos := p } := by
  simp [waitNotBusy, hb, hr]

theorem fctlReady_of_prompt {s : State} (h : Prompt s) : fctlReady s = true := by
  unfold fctlReady
  cases hm : s.moves with
  | nil => exact h.1
  | cons m ms => exact h.2 m (by simp [hm])

theorem Prompt.tail {s : State} (h : Prompt s) : Prompt (usePoll s) :=
  ⟨h.1, fun m hm => h.2 m (List.mem_of_mem_tail hm)⟩

end Sys2Proof.Machine
end

