-- ==== Sys2Proof/Laws/Loops.lean ====
section
/-! SUPPORT. What the loops over a page do while nothing is in flight (42_page_io.md R121, R122, 43_crc.md
R141). -/

namespace Sys2Proof.Machine

/-- The scan reads cells upward from `IDX`: it answers yes with `IDX` past the last when every cell is erased,
no with `IDX` at the first that is not (R121). -/
theorem eraseScan_spec {s : State} (hb : s.srBsy = false) (n : Nat) :
    ∃ b j, eraseScan n s = (b, { s with idx := j }) ∧
      (∀ i, s.idx ≤ i → i < j → readHalf s.flash (s.a.toNat + 2 * i) = 0xFFFF#16) ∧
      ((b = true ∧ j = s.idx + n) ∨
       (b = false ∧ s.idx ≤ j ∧ j < s.idx + n ∧ readHalf s.flash (s.a.toNat + 2 * j) ≠ 0xFFFF#16)) := by
  induction n generalizing s with
  | zero => exact ⟨true, s.idx, rfl, fun i h1 h2 => absurd h2 (by omega), .inl ⟨rfl, rfl⟩⟩
  | succ n ih =>
    by_cases hc : readHalf s.flash (cellAddr s) = 0xFFFF#16
    · obtain ⟨b, j, he, hlow, hr⟩ := ih (s := nextIdx s) hb
      simp only [nextIdx_idx, nextIdx_flash, nextIdx_a] at hlow hr
      refine ⟨b, j, ?_, fun i h1 h2 => ?_, ?_⟩
      · simp only [eraseScan, flashRead16_of_ready hb, hc, ↓reduceIte]
        exact he
      · by_cases hi : i = s.idx
        · subst hi
          exact hc
        · exact hlow i (by omega) h2
      · rcases hr with ⟨h1, h2⟩ | ⟨h1, h2, h3, h4⟩
        · exact .inl ⟨h1, by omega⟩
        · exact .inr ⟨h1, by omega, by omega, h4⟩
    · refine ⟨false, s.idx, ?_, fun i h1 h2 => absurd h2 (by omega),
        .inr ⟨rfl, Nat.le_refl _, by omega, hc⟩⟩
      simp only [eraseScan, flashRead16_of_ready hb, hc, ↓reduceIte]

/-- Reading cells into the buffer: from index `2·IDX` on the buffer holds the bytes of the page in address
order, every other byte of it as before (R122, R54). -/
theorem rdpgCells_spec {s : State} (hb : s.srBsy = false) (n : Nat) :
    ∃ p, rdpgCells n s = { s with pbuf := p, idx := s.idx + n } ∧
      (∀ x, 2 * s.idx ≤ x → x < 2 * (s.idx + n) → readByte p x = readByte s.flash (s.a.toNat + x)) ∧
      (∀ x, (x < 2 * s.idx ∨ 2 * (s.idx + n) ≤ x) → readByte p x = readByte s.pbuf x) := by
  induction n generalizing s with
  | zero => exact ⟨s.pbuf, rfl, fun x h1 h2 => absurd h2 (by omega), fun x _ => rfl⟩
  | succ n ih =>
    obtain ⟨p, he, hin, hout⟩ :=
      ih (s := nextIdx { s with pbuf := writeHalf s.pbuf (2 * s.idx) (readHalf s.flash (cellAddr s)) }) hb
    simp only [nextIdx_idx, nextIdx_flash, nextIdx_a, nextIdx_pbuf] at he hin hout
    refine ⟨p, ?_, fun x h1 h2 => ?_, fun x hx => ?_⟩
    · simp only [rdpgCells, flashRead16_of_ready hb]
      rw [he]
      simp [nextIdx, Nat.add_assoc, Nat.add_comm 1 n]
    · by_cases hx : 2 * (s.idx + 1) ≤ x
      · exact hin x hx (by omega)
      · rw [hout x (by omega), readByte_writeHalf]
        by_cases h0 : x = 2 * s.idx
        · simp [h0, readHalf, cellAddr]
        · have : x = 2 * s.idx + 1 := by omega
          simp [this, readHalf, cellAddr, Nat.add_assoc]
    · rw [hout x (by omega), readByte_writeHalf_outside _ _ (by omega)]

/-- The word that word number `k` of the page at `a` feeds to the accumulator (R141). -/
def pageWord (reflectIn : Bool) (m : Memory) (a k : Nat) : Word :=
  condIn reflectIn (readHalf m (a + 4 * k)) (readHalf m (a + 4 * k + 2))

/-- The accumulator takes the words of the page in address order, from word `IDX` on (R141). -/
theorem crcWords_spec {s : State} (hb : s.srBsy = false) (n : Nat) :
    crcWords n s = { s with
      crcacc :=
        ((List.range' s.idx n).map (pageWord s.cfg.reflectIn s.flash s.a.toNat)).foldl (crcStep s.cfg.poly) s.crcacc
      idx := s.idx + n } := by
  induction n generalizing s with
  | zero => rfl
  | succ n ih =>
    simp only [crcWords, flashRead16_of_ready hb]
    rw [ih (s := nextIdx (crcWrite _ s)) hb]
    simp [List.range'_succ, nextIdx, crcWrite, pageWord, crcAddr, Nat.add_assoc, Nat.add_comm 1 n]

end Sys2Proof.Machine
end

