-- ==== Sys2Proof/Laws/Reset.lean ====
section
/-! SUPPORT. What the reset event can do (10_state.md R43, 70_reset_and_hazards.md R181). -/

namespace Sys2Proof.Machine

/-- Both memories are in canonical form after reset. -/
theorem reset_memories_wf : Memory.wf State.reset.flash ∧ Memory.wf State.reset.pbuf := by
  simp [State.reset, Memory.wf]

/-- Drawing bytes of the buffer changes the buffer and the count of free values only, keeps the canonical form
and lists no byte outside those drawn. -/
theorem drawPbuf_spec (n j : Nat) (s : State) :
    ∃ p d, drawPbuf n j s = { s with pbuf := p, draws := d } ∧
      (Memory.wf s.pbuf → Memory.wf p) ∧ (∀ x ∈ p, x ∈ s.pbuf ∨ (j ≤ x.1 ∧ x.1 < j + n)) := by
  induction n generalizing j s with
  | zero => exact ⟨_, _, rfl, id, fun x hx => .inl hx⟩
  | succ n ih =>
    obtain ⟨p, d, e, h1, h2⟩ :=
      ih (j + 1) { (drawByte s).2 with pbuf := writeByte (drawByte s).2.pbuf j (drawByte s).1 }
    refine ⟨p, d, e, fun h => h1 (wf_writeByte h _ _), fun x hx => ?_⟩
    rcases h2 x hx with h | h
    · rcases mem_writeByte h with h | h
      · right
        rw [h]
        simp
      · exact .inl h
    · right
      omega

/-- What was in flight when the reset came: nothing but its cells is changed in the array. -/
theorem resetFlash_spec (s : State) :
    ∃ m d, resetFlash s = { s with flash := m, draws := d } ∧
      (Memory.wf s.flash → Memory.wf m) ∧ (s.pend = .none → m = s.flash) ∧
      (∀ a v, s.pend = .prog a v → SameOutside s.flash m a 2 ∧
        ∀ x ∈ m, x ∈ s.flash ∨ (a ≤ x.1 ∧ x.1 < a + 2)) ∧
      (∀ a, s.pend = .erase a → SameOutside s.flash m (pageBase s.cfg a) (2 * pageCells s.cfg) ∧
        ∀ x ∈ m, x ∈ s.flash ∨
          (pageBase s.cfg a ≤ x.1 ∧ x.1 < pageBase s.cfg a + 2 * pageCells s.cfg)) := by
  unfold resetFlash
  split
  · exact ⟨_, _, rfl, id, fun _ => rfl, by simp_all, by simp_all⟩
  · rename_i a v h
    obtain ⟨m, d, e, hs, hw, hin⟩ := fillCells_spec drawHalf_state 1 a s
    refine ⟨m, d, e, hw, by simp_all, fun a' v' h' => ?_, by simp_all⟩
    rw [h] at h'
    cases h'
    exact ⟨hs, hin⟩
  · rename_i a h
    obtain ⟨m, d, e, hs, hw, hin⟩ :=
      fillCells_spec drawHalf_state (pageCells s.cfg) (pageBase s.cfg a) s
    refine ⟨m, d, e, hw, by simp_all, by simp_all, fun a' h' => ?_⟩
    rw [h] at h'
    cases h'
    exact ⟨hs, hin⟩

/-- The reset event as a whole: the registers of `resetRegs`, a drawn buffer, and the array but for the cells
of what was in flight. -/
theorem resetEvent_spec (s : State) :
    ∃ m d d' p,
      resetEvent s = { resetRegs { s with flash := m, draws := d } with pbuf := p, draws := d' } ∧
      (Memory.wf s.flash → Memory.wf m) ∧ (Memory.wf s.pbuf → Memory.wf p) ∧
      (s.pend = .none → m = s.flash) ∧
      (∀ x ∈ p, x ∈ s.pbuf ∨ x.1 < s.cfg.pageSize) ∧
      (∀ a v, s.pend = .prog a v → SameOutside s.flash m a 2 ∧
        ∀ x ∈ m, x ∈ s.flash ∨ (a ≤ x.1 ∧ x.1 < a + 2)) ∧
      (∀ a, s.pend = .erase a → SameOutside s.flash m (pageBase s.cfg a) (2 * pageCells s.cfg) ∧
        ∀ x ∈ m, x ∈ s.flash ∨
          (pageBase s.cfg a ≤ x.1 ∧ x.1 < pageBase s.cfg a + 2 * pageCells s.cfg)) := by
  obtain ⟨m, d, e, h1, h2, h3, h4⟩ := resetFlash_spec s
  obtain ⟨p, d', e', h5, h6⟩ := drawPbuf_spec s.cfg.pageSize 0 (resetRegs (resetFlash s))
  refine ⟨m, d, d', p, ?_, h1, ?_, h2, ?_, h3, h4⟩
  · unfold resetEvent
    rw [e', e]
  · rw [e] at h5
    exact h5
  · intro x hx
    have := h6 x hx
    rw [e] at this
    simpa using this

end Sys2Proof.Machine
end

