-- ==== Sys2Proof/Laws/Trace.lean ====
section
/-! SUPPORT. What an operation is made of. `Micro i` lists the single actions SEQ and FCTL take during the
operation `i` (00_scope.md R12); every execution that answers a next state is a sequence of them from the
state with the operands latched. A property that every action keeps is kept by the operation: no proof of a
frame or of an invariant needs to unfold one. -/

namespace Sys2Proof.Machine

/-- The operation programs cells. -/
def programs : Instr → Prop
  | .wrhw _ _ => True
  | .wrpg _ => True
  | _ => False

/-- The operation erases a page. -/
def erases : Instr → Prop
  | .erpg _ => True
  | .wrpg _ => True
  | _ => False

theorem programs_wrhw (a : Word) (h : Half) : programs (.wrhw a h) := trivial

theorem programs_wrpg (a : Word) : programs (.wrpg a) := trivial

theorem erases_erpg (a : Word) : erases (.erpg a) := trivial

theorem erases_wrpg (a : Word) : erases (.wrpg a) := trivial

/-- One action during the operation `i`. -/
inductive Micro (i : Instr) : State → State → Prop where
  | clock (s : State) : i = .init → Micro i s { s with crcen := true }
  | key (v : Word) (s : State) : i = .init ∨ i = .unlock → Micro i s (keyWrite v s)
  | lock (s : State) : i = .lock → Micro i s (setLock s)
  | pgOn (s t : State) : programs i → setPg s = .next t → Micro i s t
  | pgOff (s : State) : programs i → Micro i s (clrPg s)
  | perOn (s t : State) : erases i → setPer s = .next t → Micro i s t
  | perOff (s : State) : erases i → Micro i s (clrPer s)
  | addr (s : State) : erases i → Micro i s (writeAr s.a s)
  | start (s t : State) : erases i → setStrt s = .next t → Micro i s t
  | write (a : Nat) (v : Half) (s t : State) : programs i → flashWrite16 a v s = .next t → Micro i s t
  | complete (s : State) : programs i ∨ erases i → s.srBsy = true → s.pend ≠ .none →
      Micro i s (fctlComplete (usePoll s))
  | poll (p : Pos) (s : State) : programs i ∨ erases i → s.srBsy = true →
      Micro i s { usePoll s with pos := p }
  | draw (s : State) : s.srBsy = true → Micro i s { s with draws := s.draws + 1 }
  | index (n : Nat) (s : State) : Micro i s { s with idx := n }
  | buffer (j : Nat) (h : Half) (s : State) : (∃ a, i = .rdpg a) →
      Micro i s { s with pbuf := writeHalf s.pbuf j h }
  | crcReset (s : State) : (∃ a, i = .pgcrc a) → Micro i s (crcReset s)
  | crcWrite (x : Word) (s : State) : (∃ a, i = .pgcrc a) → Micro i s (crcWrite x s)
  | done (v : Word) (s : State) : Micro i s (doneOp v s)
  | fail (e : ErrCode) (s : State) : Micro i s (failOp e s)

/-- A sequence of actions. -/
inductive Trace (i : Instr) (s : State) : State → Prop where
  | refl : Trace i s s
  | tail {t u : State} : Trace i s t → Micro i t u → Trace i s u

theorem Trace.trans {i : Instr} {s t u : State} (h : Trace i s t) (h' : Trace i t u) : Trace i s u := by
  induction h' with
  | refl => exact h
  | tail _ hm ih => exact ih.tail hm

/-- A relation that every action keeps holds across the sequence. -/
theorem Trace.keeps {i : Instr} {P : State → Prop} (hP : ∀ s t, Micro i s t → P s → P t) {s t : State}
    (h : Trace i s t) : P s → P t := by
  induction h with
  | refl => exact id
  | tail _ hm ih => exact fun hs => hP _ _ hm (ih hs)

theorem Trace.one {i : Instr} {s t : State} (h : Micro i s t) : Trace i s t :=
  Trace.refl.tail h

theorem Trace.of_read (i : Instr) (a : Nat) (s : State) : Trace i s (flashRead16 a s).2 := by
  unfold flashRead16
  split
  · exact .one (.draw s ‹_›)
  · exact .refl

/-- A wait goes on after its actions, or stays. -/
theorem Trace.of_wait {i : Instr} (hi : programs i ∨ erases i) {p : Pos}
    {rest : State → Host.Outcome State Fault Refusal}
    (hrest : ∀ u t, rest u = .next t → Trace i u t) {s t : State}
    (h : waitNotBusy p rest s = .next t) : Trace i s t := by
  rcases waitNotBusy_cases h with ⟨-, h⟩ | ⟨hb, -, hp, h⟩ | ⟨hb, -, h⟩
  · exact hrest _ _ h
  · exact (Trace.one (.complete s hi hb hp)).trans (hrest _ _ h)
  · rw [h]
    exact .one (.poll p s hi hb)

/-! ### Lock state operations -/

theorem Trace.of_endUnlock (i : Instr) (s : State) : Trace i s (endUnlock s) := by
  unfold endUnlock
  split
  · exact .one (.fail _ s)
  · exact .one (.done _ s)

theorem Trace.of_keys {i : Instr} (hi : i = .init ∨ i = .unlock) (s : State) :
    Trace i s (endUnlock (writeKeys s)) :=
  ((Trace.one (.key _ s hi)).trans (.one (.key _ _ hi))).trans (.of_endUnlock i _)

/-! ### Word operations -/

theorem Trace.of_wordOp {i : Instr} {a : Word} {body : State → Host.Outcome State Fault Refusal}
    (hb : ∀ u t, body u = .next t → Trace i u t) {s t : State} (h : wordOp a body s = .next t) :
    Trace i s t := by
  rcases wordOp_cases a body s with ⟨-, e⟩ | ⟨-, -, e⟩ | ⟨-, -, e⟩ <;> rw [e] at h
  · cases h
    exact .one (.fail _ s)
  · cases h
  · exact hb _ _ h

theorem Trace.of_pageOp {i : Instr} {a : Word} {body : State → Host.Outcome State Fault Refusal}
    (hb : ∀ u t, body u = .next t → Trace i u t) {s t : State} (h : pageOp a body s = .next t) :
    Trace i s t := by
  rcases pageOp_cases a body s with ⟨-, e⟩ | ⟨-, -, e⟩ | ⟨-, -, e⟩ <;> rw [e] at h
  · cases h
    exact .one (.fail _ s)
  · cases h
  · exact hb _ _ h

theorem Trace.of_wrhwVerify {i : Instr} (hi : programs i) {s t : State} (h : wrhwVerify s = .next t) :
    Trace i s t := by
  cases h
  refine ((Trace.one (.pgOff s hi)).trans (.of_read i s.a.toNat _)).trans ?_
  split
  · exact .one (.done _ _)
  · exact .one (.fail _ _)

theorem Trace.of_wrhwWrite {i : Instr} (hi : programs i) {s t : State} (h : wrhwWrite s = .next t) :
    Trace i s t := by
  obtain ⟨u, hu, h⟩ := andThen_eq_next.mp h
  obtain ⟨v, hv, h⟩ := andThen_eq_next.mp h
  exact ((Trace.one (.pgOn _ _ hi hu)).tail (.write _ _ _ _ hi hv)).trans
    (.of_wait (.inl hi) (fun _ _ => .of_wrhwVerify hi) h)

/-! ### Page operations -/

theorem Trace.of_eraseScan (i : Instr) (n : Nat) (s : State) : Trace i s (eraseScan n s).2 := by
  induction n generalizing s with
  | zero => exact .refl
  | succ n ih =>
    unfold eraseScan
    split
    · exact ((Trace.of_read i _ s).tail (.index _ _)).trans (ih _)
    · exact .of_read i _ s

theorem Trace.of_eraseVerify {i : Instr} (hi : erases i)
    {rest : State → Host.Outcome State Fault Refusal}
    (hrest : ∀ u t, rest u = .next t → Trace i u t) {s t : State}
    (h : eraseVerify rest s = .next t) : Trace i s t := by
  have hs : Trace i s (eraseScan (pageCells s.cfg) (startIdx (clrPer s))).2 :=
    ((Trace.one (.perOff s hi)).tail (.index 0 _)).trans (.of_eraseScan i _ _)
  unfold eraseVerify at h
  dsimp only at h
  split at h
  · exact hs.trans (hrest _ _ h)
  · cases h
    exact hs.tail (.fail _ _)

theorem Trace.of_eraseStart {i : Instr} (hi : erases i) {p : Pos}
    {rest : State → Host.Outcome State Fault Refusal}
    (hrest : ∀ u t, rest u = .next t → Trace i u t) {s t : State}
    (h : eraseStart p rest s = .next t) : Trace i s t := by
  obtain ⟨u, hu, h⟩ := andThen_eq_next.mp h
  obtain ⟨v, hv, h⟩ := andThen_eq_next.mp h
  exact (((Trace.one (.perOn _ _ hi hu)).tail (.addr _ hi)).tail (.start _ _ hi hv)).trans
    (.of_wait (.inr hi) (fun _ _ => .of_eraseVerify hi hrest) h)

theorem Trace.of_erpgEnd {i : Instr} {s t : State} (h : erpgEnd s = .next t) : Trace i s t := by
  cases h
  exact .one (.done _ s)

theorem Trace.of_rdpgCells {i : Instr} (hi : ∃ a, i = .rdpg a) (n : Nat) (s : State) :
    Trace i s (rdpgCells n s) := by
  induction n generalizing s with
  | zero => exact .refl
  | succ n ih =>
    unfold rdpgCells
    exact (((Trace.of_read i _ s).tail (.buffer _ _ _ hi)).tail (.index _ _)).trans (ih _)

theorem Trace.of_wrpgVerify {i : Instr} (hi : programs i)
    {rest : State → Host.Outcome State Fault Refusal}
    (hrest : ∀ u t, rest u = .next t → Trace i u t) {s t : State}
    (h : wrpgVerify rest s = .next t) : Trace i s t := by
  unfold wrpgVerify at h
  dsimp only at h
  split at h
  · exact ((Trace.of_read i _ s).tail (.index _ _)).trans (hrest _ _ h)
  · cases h
    exact ((Trace.of_read i _ s).tail (.pgOff _ hi)).tail (.fail _ _)

theorem Trace.of_wrpgCells {i : Instr} (hi : programs i) (n : Nat) {s t : State}
    (h : wrpgCells n s = .next t) : Trace i s t := by
  induction n generalizing s t with
  | zero =>
    cases h
    exact (Trace.one (.pgOff s hi)).tail (.done _ _)
  | succ n ih =>
    obtain ⟨u, hu, h⟩ := andThen_eq_next.mp h
    exact (Trace.one (.write _ _ _ _ hi hu)).trans
      (.of_wait (.inl hi) (fun _ _ => .of_wrpgVerify hi fun _ _ => ih) h)

theorem Trace.of_wrpgLoop {i : Instr} (hi : programs i) {s t : State} (h : wrpgLoop s = .next t) :
    Trace i s t :=
  (Trace.one (.index 0 s)).trans (.of_wrpgCells hi _ h)

theorem Trace.of_wrpgEnable {i : Instr} (hi : programs i) {s t : State}
    (h : wrpgEnable s = .next t) : Trace i s t := by
  obtain ⟨u, hu, h⟩ := andThen_eq_next.mp h
  exact (Trace.one (.pgOn _ _ hi hu)).trans (.of_wait (.inl hi) (fun _ _ => .of_wrpgLoop hi) h)

/-! ### The CRC engine -/

theorem Trace.of_crcWords {i : Instr} (hi : ∃ a, i = .pgcrc a) (n : Nat) (s : State) :
    Trace i s (crcWords n s) := by
  induction n generalizing s with
  | zero => exact .refl
  | succ n ih =>
    unfold crcWords
    exact ((((Trace.of_read i _ s).trans (.of_read i _ _)).tail (.crcWrite _ _ hi)).tail
      (.index _ _)).trans (ih _)

/-! ### Every operation, and what SEQ does when it goes on -/

/-- The state in which the operation `i` starts: the operands latched, `RUN` set (R83, R93). -/
def started (i : Instr) (s : State) : State :=
  { s with run := true, opc := i.opcode, a := i.operandA, h := i.operandH }

/-- Every execution that answers a next state was accepted and is a sequence of the operation's actions. -/
theorem exec_trace {i : Instr} {s t : State} (h : exec i s = .next t) :
    Accepting s ∧ Trace i (started i s) t := by
  cases i <;>
    simp only [exec, execInit, execIslocked, execUnlock, execLock, execRdhw, execWrhw, execErpg, execRdpg,
      execWrpg, execPgcrc, execRefl] at h <;>
    obtain ⟨ha, h⟩ := accepting_of_next h <;> refine ⟨ha, ?_⟩
  · cases h
    exact (Trace.one (.clock _ rfl)).trans (.of_keys (.inl rfl) _)
  · cases h
    exact .one (.done _ _)
  · cases h
    exact .of_keys (.inr rfl) _
  · cases h
    exact (Trace.one (.lock _ rfl)).tail (.done _ _)
  · refine Trace.of_wordOp (fun u t hu => ?_) h
    cases hu
    exact (Trace.of_read _ _ u).tail (.done _ _)
  · exact Trace.of_wordOp (fun _ _ => .of_wait (.inl (programs_wrhw _ _)) fun _ _ =>
      .of_wrhwWrite (programs_wrhw _ _)) h
  · exact Trace.of_pageOp
      (fun _ _ => .of_wait (.inr (erases_erpg _)) fun _ _ =>
        .of_eraseStart (erases_erpg _) fun _ _ => .of_erpgEnd) h
  · refine Trace.of_pageOp (fun u t hu => ?_) h
    cases hu
    exact ((Trace.one (.index 0 u)).trans (.of_rdpgCells ⟨_, rfl⟩ _ _)).tail (.done _ _)
  · exact Trace.of_pageOp
      (fun _ _ => .of_wait (.inr (erases_wrpg _)) fun _ _ =>
        .of_eraseStart (erases_wrpg _) fun _ _ => .of_wrpgEnable (programs_wrpg _)) h
  · refine Trace.of_pageOp (fun u t hu => ?_) h
    split at hu
    · cases hu
    · cases hu
      exact ((((Trace.one (.crcReset u ⟨_, rfl⟩)).tail (.index 0 _)).trans
        (.of_crcWords ⟨_, rfl⟩ _ _)).tail (.crcReset _ ⟨_, rfl⟩)).tail (.done _ _)
  · cases h
    exact .one (.done _ _)

/-- The operation SEQ is in at a position, for those that wait. -/
def operationAt : Pos → State → Instr
  | .idle, _ => .islocked
  | .wrhwFirst, s => .wrhw s.a s.h
  | .wrhwProgram, s => .wrhw s.a s.h
  | .erpgFirst, s => .erpg s.a
  | .erpgErase, s => .erpg s.a
  | .wrpgFirst, s => .wrpg s.a
  | .wrpgErase, s => .wrpg s.a
  | .wrpgEnable, s => .wrpg s.a
  | .wrpgCell, s => .wrpg s.a

/-- What SEQ does when it goes on is a sequence of its operation's actions. -/
theorem resumeAt_trace {p : Pos} {s t : State} (h : resumeAt p s = .next t) :
    Trace (operationAt p s) s t := by
  have pw := programs_wrhw s.a s.h
  have pp := programs_wrpg s.a
  have ee := erases_erpg s.a
  have ep := erases_wrpg s.a
  cases p <;> simp only [resumeAt, operationAt] at h ⊢
  · cases h
  · exact .of_wait (.inl pw) (fun _ _ => .of_wrhwWrite pw) h
  · exact .of_wait (.inl pw) (fun _ _ => .of_wrhwVerify pw) h
  · exact .of_wait (.inr ee) (fun _ _ => .of_eraseStart ee fun _ _ => .of_erpgEnd) h
  · exact .of_wait (.inr ee) (fun _ _ => .of_eraseVerify ee fun _ _ => .of_erpgEnd) h
  · exact .of_wait (.inr ep) (fun _ _ => .of_eraseStart ep fun _ _ => .of_wrpgEnable pp) h
  · exact .of_wait (.inr ep) (fun _ _ => .of_eraseVerify ep fun _ _ => .of_wrpgEnable pp) h
  · exact .of_wait (.inl pp) (fun _ _ => .of_wrpgLoop pp) h
  · exact .of_wait (.inl pp) (fun _ _ => .of_wrpgVerify pp fun _ _ => .of_wrpgCells pp _) h

/-- Everything a step can do: execute the command HOST presents; end an illegal one; go on with the operation
in progress, HOST idle or waiting; write a byte of the buffer for HOST; reset; or nothing. -/
theorem step_cases {s t : State} (h : step s = .next t) : s.cfg.wf = true ∧
    ((∃ c rest i, s.run = false ∧ s.host = .command c :: rest ∧ decode c = .ok i ∧
        exec i (useMove s) = .next t) ∨
     (∃ c rest e, s.run = false ∧ s.host = .command c :: rest ∧ decode c = .error e ∧
        illegalCommand c (useMove s) = .next t) ∨
     (∃ u, (u = s ∨ (u = useMove s ∧ s.host.head? = some .idle)) ∧ advance u = .next t) ∨
     (∃ j b rest, s.run = false ∧ s.host = .pbufWrite j b :: rest ∧
        hostPbufWrite j b (useMove s) = .next t) ∨
     (∃ rest, s.host = .reset :: rest ∧ t = resetEvent (useMove s))) := by
  have hwf : s.cfg.wf = true := by
    cases hw : s.cfg.wf with
    | true => rfl
    | false => simp [step, portCommand, stepWithoutCommand, hw] at h
  refine ⟨hwf, ?_⟩
  unfold step at h
  split at h
  · rename_i c hc
    have : s.run = false ∧ ∃ rest, s.host = .command c :: rest := by
      unfold portCommand at hc
      split at hc
      · cases hc
      · rename_i hr
        split at hc
        · rename_i c' rest hh
          cases hc
          exact ⟨by simpa [hwf] using hr, rest, hh⟩
        · cases hc
    obtain ⟨hr, rest, hh⟩ := this
    split at h
    · exact .inl ⟨c, rest, _, hr, hh, ‹_›, h⟩
    · exact .inr (.inl ⟨c, rest, _, hr, hh, ‹_›, h⟩)
  · unfold stepWithoutCommand at h
    simp only [hwf, Bool.not_true, Bool.false_eq_true, ↓reduceIte] at h
    split at h
    · rename_i rest hh
      cases h
      exact .inr (.inr (.inr (.inr ⟨rest, hh, rfl⟩)))
    · rename_i rest hh
      exact .inr (.inr (.inl ⟨_, .inr ⟨rfl, by simp [hh]⟩, h⟩))
    · rename_i j b rest hh
      cases hr : s.run
      · simp only [hr, Bool.false_eq_true, ↓reduceIte] at h
        exact .inr (.inr (.inr (.inl ⟨j, b, rest, rfl, hh, h⟩)))
      · simp only [hr, ↓reduceIte] at h
        exact .inr (.inr (.inl ⟨s, .inl rfl, h⟩))
    · exact .inr (.inr (.inl ⟨s, .inl rfl, h⟩))
    · exact .inr (.inr (.inl ⟨s, .inl rfl, h⟩))

/-- What going on can do: nothing where the block is idle, else the rest of the operation from its wait. -/
theorem advance_cases {s t : State} (h : advance s = .next t) :
    (s.run = false ∧ t = s) ∨
    (s.run = true ∧ latchesFit s = true ∧ resumeAt s.pos s = .next t) := by
  unfold advance at h
  cases hr : s.run
  · simp_all
  · cases hl : latchesFit s <;> simp_all

/-- While an operation runs a step goes on with it, whatever HOST's move, unless that is the reset (R93,
R195). -/
theorem step_of_running {s : State} (hw : s.cfg.wf = true) (hr : s.run = true)
    (hh : s.host.head? ≠ some .reset) : step s = advance { s with host := hostAfter s } := by
  simp only [step, portCommand, stepWithoutCommand, hr, hw, Bool.or_true, Bool.not_true,
    Bool.false_eq_true, ↓reduceIte]
  unfold hostAfter
  rcases hm : s.host with _ | ⟨m, rest⟩
  · cases s
    simp_all
  · cases s
    cases m <;> simp_all [useMove]

/-- The operands of an operation that waits fit the position it waits at. -/
theorem latchesFit_of_waits {s : State} (h : WaitsFor s) : latchesFit s = true := by
  unfold WaitsFor at h
  unfold latchesFit
  cases hp : s.pos <;> simp_all [CellOperand, PageOperand]

/-- In every state of the invariant a step resumes the operation that waits (R42, R70). -/
theorem step_of_waiting {s : State} {p : Pos} (v : Inv s) (hr : s.run = true) (hp : s.pos = p)
    (hh : s.host.head? ≠ some .reset) : step s = resumeAt p { s with host := hostAfter s } := by
  have hl : latchesFit { s with host := hostAfter s } = true := latchesFit_of_waits (v.running hr).1
  rw [step_of_running v.config hr hh, advance, hl, hr, ← hp]
  rfl

/-- A step in which SEQ goes on resumes the operation from its wait, after HOST's move (R42, R93). -/
theorem goesOn_cases {s t : State} (h : GoesOn s t) : s.cfg.wf = true ∧ latchesFit s = true ∧
    resumeAt s.pos { s with host := hostAfter s } = .next t := by
  obtain ⟨hr, hh, h⟩ := h
  have hw : s.cfg.wf = true := (step_cases h).1
  rw [step_of_running hw hr hh] at h
  rcases advance_cases h with ⟨h0, -⟩ | ⟨-, hl, h⟩
  · simp [hr] at h0
  · exact ⟨hw, hl, h⟩

/-- What SEQ does in such a step is a sequence of its operation's actions. -/
theorem goesOn_trace {s t : State} (h : GoesOn s t) :
    Trace (operationAt s.pos s) { s with host := hostAfter s } t := by
  obtain ⟨-, -, h⟩ := goesOn_cases h
  have := resumeAt_trace h
  cases hp : s.pos <;> simpa only [hp, operationAt] using this

/-- A property holds after a step when every action keeps it, and so do the latching of operands, HOST's
moves, the reset event and a failed end. -/
theorem step_keeps {P : State → Prop} (hm : ∀ i s t, Micro i s t → P s → P t)
    (hl : ∀ s b o a h, P s → P { s with run := b, opc := o, a := a, h := h })
    (hh : ∀ s, P s → P (useMove s)) (hr : ∀ s, P s → P (resetEvent s))
    (hp : ∀ s j b, j < s.cfg.pageSize → P s → P { s with pbuf := writeByte s.pbuf j b })
    (hf : ∀ s e, P s → P (failOp e s)) {s t : State} (h : step s = .next t) (h0 : P s) : P t := by
  obtain ⟨-, h⟩ := step_cases h
  rcases h with ⟨c, rest, i, -, -, -, h⟩ | ⟨c, rest, e, -, -, -, h⟩ | ⟨u, hu, h⟩ |
    ⟨j, b, rest, -, -, h⟩ | ⟨rest, -, rfl⟩
  · obtain ⟨-, h⟩ := exec_trace h
    exact h.keeps (hm i) (hl _ _ _ _ _ (hh _ h0))
  · obtain ⟨-, h⟩ := accepting_of_next h
    cases h
    exact hf _ _ (hl _ _ _ _ _ (hh _ h0))
  · have hu' : P u := by
      rcases hu with rfl | ⟨rfl, -⟩
      · exact h0
      · exact hh _ h0
    rcases advance_cases h with ⟨-, rfl⟩ | ⟨-, -, h⟩
    · exact hu'
    · exact (resumeAt_trace h).keeps (hm _) hu'
  · unfold hostPbufWrite at h
    split at h
    · cases h
      exact hp _ _ _ ‹_› (hh _ h0)
    · cases h
  · exact hr _ (hh _ h0)

/-- Setting the start bit changes the start bit, what is in flight and the busy flag only. -/
theorem setStrt_frame {s t : State} (h : setStrt s = .next t) :
    ∃ b p c, t = { s with crStrt := b, pend := p, srBsy := c } := by
  rcases setStrt_cases h with ⟨-, rfl⟩ | ⟨-, -, -, -, rfl⟩
  · exact ⟨t.crStrt, t.pend, t.srBsy, rfl⟩
  · exact ⟨_, _, _, rfl⟩

/-- Setting an enable bit changes that bit only. -/
theorem setPg_frame {s t : State} (h : setPg s = .next t) : ∃ b, t = { s with crPg := b } := by
  rcases setPg_cases h with ⟨-, rfl⟩ | ⟨-, -, rfl⟩
  · exact ⟨t.crPg, rfl⟩
  · exact ⟨_, rfl⟩

theorem setPer_frame {s t : State} (h : setPer s = .next t) : ∃ b, t = { s with crPer := b } := by
  rcases setPer_cases h with ⟨-, rfl⟩ | ⟨-, -, rfl⟩
  · exact ⟨t.crPer, rfl⟩
  · exact ⟨_, rfl⟩

/-- A flash write changes what is in flight and the busy flag only. -/
theorem flashWrite16_frame {a : Nat} {v : Half} {s t : State} (h : flashWrite16 a v s = .next t) :
    ∃ p c, t = { s with pend := p, srBsy := c } := by
  rcases flashWrite16_cases h with ⟨-, rfl⟩ | ⟨-, -, rfl⟩
  · exact ⟨t.pend, t.srBsy, rfl⟩
  · exact ⟨_, _, rfl⟩

/-- No action changes the latched operands, HOST's moves, FCTL's last choice or a parameter. -/
theorem Micro.keeps_latches {i : Instr} {s t : State} (h : Micro i s t) :
    t.opc = s.opc ∧ t.a = s.a ∧ t.h = s.h ∧ t.host = s.host ∧ t.movesRest = s.movesRest ∧
      t.cfg = s.cfg := by
  cases h <;> try simp
  · obtain ⟨b, rfl⟩ := setPg_frame ‹_›
    simp
  · obtain ⟨b, rfl⟩ := setPer_frame ‹_›
    simp
  · obtain ⟨b, p, c, rfl⟩ := setStrt_frame ‹_›
    simp
  · obtain ⟨p, c, rfl⟩ := flashWrite16_frame ‹_›
    simp

/-- Nor does an operation. -/
theorem Trace.keeps_latches {i : Instr} {s t : State} (h : Trace i s t) :
    t.opc = s.opc ∧ t.a = s.a ∧ t.h = s.h ∧ t.host = s.host ∧ t.movesRest = s.movesRest ∧
      t.cfg = s.cfg := by
  refine h.keeps (P := fun t => t.opc = s.opc ∧ t.a = s.a ∧ t.h = s.h ∧ t.host = s.host ∧
    t.movesRest = s.movesRest ∧ t.cfg = s.cfg) (fun u v hm hu => ?_) ⟨rfl, rfl, rfl, rfl, rfl, rfl⟩
  obtain ⟨h1, h2, h3, h4, h5, h6⟩ := hm.keeps_latches
  exact ⟨h1.trans hu.1, h2.trans hu.2.1, h3.trans hu.2.2.1, h4.trans hu.2.2.2.1,
    h5.trans hu.2.2.2.2.1, h6.trans hu.2.2.2.2.2⟩

end Sys2Proof.Machine
end

