-- ==== Sys2Proof/Laws/Exec.lean ====
section
/-! SUPPORT. What `exec` of each operation is on a block that accepts it: its body, from the state with the
operands latched. -/

namespace Sys2Proof.Machine

theorem exec_init {s : State} (h : Accepting s) :
    exec .init s = .next (endUnlock (writeKeys { started .init s with crcen := true })) := by
  simp only [exec, execInit, accept_of_accepting h]
  rfl

theorem exec_islocked {s : State} (h : Accepting s) :
    exec .islocked s =
      .next (doneOp ((BitVec.ofBool s.crLock).setWidth 32) (started .islocked s)) := by
  simp only [exec, execIslocked, accept_of_accepting h]
  rfl

theorem exec_unlock {s : State} (h : Accepting s) :
    exec .unlock s = .next (endUnlock (writeKeys (started .unlock s))) := by
  simp only [exec, execUnlock, accept_of_accepting h]
  rfl

theorem exec_lock {s : State} (h : Accepting s) :
    exec .lock s = .next (doneOp 0#32 (setLock (started .lock s))) := by
  simp only [exec, execLock, accept_of_accepting h]
  rfl

theorem exec_rdhw {s : State} (h : Accepting s) (a : Word) :
    exec (.rdhw a) s =
      wordOp a (fun s =>
        .next (doneOp ((flashRead16 a.toNat s).1.setWidth 32) (flashRead16 a.toNat s).2))
        (started (.rdhw a) s) := by
  simp only [exec, execRdhw, accept_of_accepting h]
  rfl

theorem exec_wrhw {s : State} (h : Accepting s) (a : Word) (v : Half) :
    exec (.wrhw a v) s = wordOp a (waitNotBusy .wrhwFirst wrhwWrite) (started (.wrhw a v) s) := by
  simp only [exec, execWrhw, accept_of_accepting h]
  rfl

theorem exec_erpg {s : State} (h : Accepting s) (a : Word) :
    exec (.erpg a) s =
      pageOp a (waitNotBusy .erpgFirst (eraseStart .erpgErase erpgEnd)) (started (.erpg a) s) := by
  simp only [exec, execErpg, accept_of_accepting h]
  rfl

theorem exec_rdpg {s : State} (h : Accepting s) (a : Word) :
    exec (.rdpg a) s =
      pageOp a (fun s => .next (doneOp 0#32 (rdpgCells (pageCells s.cfg) (startIdx s))))
        (started (.rdpg a) s) := by
  simp only [exec, execRdpg, accept_of_accepting h]
  rfl

theorem exec_wrpg {s : State} (h : Accepting s) (a : Word) :
    exec (.wrpg a) s =
      pageOp a (waitNotBusy .wrpgFirst (eraseStart .wrpgErase wrpgEnable)) (started (.wrpg a) s) := by
  simp only [exec, execWrpg, accept_of_accepting h]
  rfl

theorem exec_pgcrc {s : State} (h : Accepting s) (a : Word) :
    exec (.pgcrc a) s =
      pageOp a (fun s =>
        if !s.crcen then .refused .crcClockOff
        else .next (endPgcrc (crcWords (pageWords s.cfg) (startIdx (crcReset s)))))
        (started (.pgcrc a) s) := by
  simp only [exec, execPgcrc, accept_of_accepting h]
  rfl

theorem exec_refl {s : State} (h : Accepting s) (v : Word) :
    exec (.refl v) s = .next (doneOp (reflect32 v) (started (.refl v) s)) := by
  simp only [exec, execRefl, accept_of_accepting h]
  rfl

end Sys2Proof.Machine
end

