-- ==== Sys2Proof/Laws/PerInstr.lean ====
section
/-! SUPPORT. For every operation, where its encoding puts what (30_encoding.md R80, R81, R83, R94). -/

namespace Sys2Proof

/-- Operations encode to words whose reserved field is zero, whose opcode is the operation's and whose operand
fields hold the operands exactly as given. -/
def Laws.WordLegal.Statement (i : Instr) : Prop :=
  cmdOpc (encode i) = i.opcode ∧ cmdRsv (encode i) = 0#12 ∧ cmdH (encode i) = i.operandH ∧
    cmdA (encode i) = i.operandA

theorem Laws.WordLegal.init : Laws.WordLegal.Statement .init := fields_of_append _ _ _ _

theorem Laws.WordLegal.islocked : Laws.WordLegal.Statement .islocked := fields_of_append _ _ _ _

theorem Laws.WordLegal.unlock : Laws.WordLegal.Statement .unlock := fields_of_append _ _ _ _

theorem Laws.WordLegal.lock : Laws.WordLegal.Statement .lock := fields_of_append _ _ _ _

theorem Laws.WordLegal.rdhw (a : Word) : Laws.WordLegal.Statement (.rdhw a) := fields_of_append _ _ _ _

theorem Laws.WordLegal.wrhw (a : Word) (h : Half) : Laws.WordLegal.Statement (.wrhw a h) :=
  fields_of_append _ _ _ _

theorem Laws.WordLegal.erpg (a : Word) : Laws.WordLegal.Statement (.erpg a) := fields_of_append _ _ _ _

theorem Laws.WordLegal.rdpg (a : Word) : Laws.WordLegal.Statement (.rdpg a) := fields_of_append _ _ _ _

theorem Laws.WordLegal.wrpg (a : Word) : Laws.WordLegal.Statement (.wrpg a) := fields_of_append _ _ _ _

theorem Laws.WordLegal.pgcrc (a : Word) : Laws.WordLegal.Statement (.pgcrc a) := fields_of_append _ _ _ _

theorem Laws.WordLegal.refl (v : Word) : Laws.WordLegal.Statement (.refl v) := fields_of_append _ _ _ _

end Sys2Proof
end

