-- ==== Sys2Proof/Laws/Program.lean ====
section
/-! SUPPORT. What FCTL's completion step leaves in the cells it changes, reliable or not, and what an
erase and the loop of `WRPG` do with it, whatever FCTL does (20_memory.md R63 to R65, 42_page_io.md R121,
R123). -/

namespace Sys2Proof.Machine

theorem programResult_eq (old v : Half) (s : State) :
    programResult old v s = (programmed s.cfg s.draws old v, { s with draws := drawsAfter s 1 }) := by
  unfold programResult programmed drawsAfter drawHalf
  split <;> rfl

theorem eraseResult_eq (s : State) :
    eraseResult s = (erased s.cfg s.draws, { s with draws := drawsAfter s 1 }) := by
  unfold eraseResult erased drawsAfter drawHalf
  split <;> rfl

/-- The result of the erase that comes `i + 1` cells on is that of `i` cells on, one draw later. -/
theorem erased_after (s : State) (i : Nat) :
    erased s.cfg (drawsAfter s 1 + i) = erased s.cfg (s.draws + (i + 1)) := by
  unfold erased drawsAfter
  split
  · rfl
  · rw [Nat.add_assoc, Nat.add_comm 1 i]

theorem programmed_after (s : State) (i : Nat) (old v : Half) :
    programmed s.cfg (drawsAfter s 1 + i) old v = programmed s.cfg (s.draws + (i + 1)) old v := by
  unfold programmed drawsAfter
  split
  · rfl
  · rw [Nat.add_assoc, Nat.add_comm 1 i]

/-- Erasing cells leaves each with the result of its erase, and no other byte changed (R64, R65). -/
theorem fillCells_erase (n a : Nat) (s : State) :
    ∃ m, fillCells eraseResult n a s = { s with flash := m, draws := drawsAfter s n } ∧
      SameOutside s.flash m a (2 * n) ∧
      ∀ i, i < n → readHalf m (a + 2 * i) = erased s.cfg (s.draws + i) := by
  induction n generalizing a s with
  | zero =>
    refine ⟨s.flash, ?_, fun _ _ => rfl, fun i hi => absurd hi (Nat.not_lt_zero i)⟩
    simp [fillCells, drawsAfter]
  | succ n ih =>
    obtain ⟨m, he, hs, hr⟩ := ih (a + 2)
      { s with flash := writeHalf s.flash a (erased s.cfg s.draws), draws := drawsAfter s 1 }
    refine ⟨m, ?_, fun x hx => ?_, fun i hi => ?_⟩
    · simp only [fillCells, eraseResult_eq]
      rw [he]
      simp only [drawsAfter]
      split <;> simp [Nat.add_assoc, Nat.add_comm 1 n]
    · rw [hs x (by omega)]
      exact readByte_writeHalf_outside _ _ (by omega)
    · cases i with
      | zero =>
        have h0 : readHalf m a = readHalf (writeHalf s.flash a (erased s.cfg s.draws)) a := by
          unfold readHalf
          rw [hs a (by omega), hs (a + 1) (by omega)]
        simpa using h0
      | succ i =>
        have h1 : readHalf m (a + 2 + 2 * i) = erased s.cfg (drawsAfter s 1 + i) := hr i (by omega)
        rw [erased_after] at h1
        rw [← h1]
        congr 1
        omega

/-- Completing a program leaves its result in the cell (R63). -/
theorem fctlComplete_prog {s : State} {a : Nat} {v : Half} (h : s.pend = .prog a v) :
    fctlComplete s = { s with
      flash := writeHalf s.flash a (programmed s.cfg s.draws (readHalf s.flash a) v)
      pend := .none, srBsy := false, draws := drawsAfter s 1 } := by
  simp [fctlComplete, h, programResult_eq]

/-- Completing an erase leaves the results of its cells in the page (R65). -/
theorem fctlComplete_erase {s : State} {a : Nat} (h : s.pend = .erase a) :
    ∃ m, fctlComplete s = { s with
        flash := m, pend := .none, srBsy := false, crStrt := false
        draws := drawsAfter s (pageCells s.cfg) } ∧
      SameOutside s.flash m (pageBase s.cfg a) (2 * pageCells s.cfg) ∧
      ∀ i, i < pageCells s.cfg →
        readHalf m (pageBase s.cfg a + 2 * i) = erased s.cfg (s.draws + i) := by
  obtain ⟨m, he, hs, hr⟩ := fillCells_erase (pageCells s.cfg) (pageBase s.cfg a) s
  exact ⟨m, by simp [fctlComplete, h, he], hs, hr⟩

/-- The state after the wait for the erase of the page at `A`, which left the array `m`. -/
def pageDone (m : Memory) (s : State) : State :=
  { s with
    flash := m, pend := .none, srBsy := false, crStrt := false
    moves := s.moves.tail, draws := drawsAfter s (pageCells s.cfg) }

/-- With FCTL completing before the poll, a wait for the erase of the page at `A` leaves in each cell of the page
its result, and goes on to verify it (R121, R65). -/
theorem eraseWait_of_ready {s : State} (p : Pos) (rest : State → Host.Outcome State Fault Refusal)
    (hw : s.cfg.wf = true) (hb : s.srBsy = true) (hp : s.pend = .erase s.a.toNat)
    (hr : fctlReady s = true) (ha : s.a.toNat % s.cfg.pageSize = 0)
    (hi : inFlash s.cfg s.a.toNat s.cfg.pageSize = true) :
    ∃ m, (∀ i, i < pageCells s.cfg → readHalf m (s.a.toNat + 2 * i) = erased s.cfg (s.draws + i)) ∧
      SameOutside s.flash m s.a.toNat s.cfg.pageSize ∧
      waitNotBusy p (eraseVerify rest) s = eraseVerify rest (pageDone m s) := by
  obtain ⟨-, -, hc, -⟩ := wf_geometry hw
  obtain ⟨m, he, hs, hm⟩ := fctlComplete_erase (s := usePoll s) (a := s.a.toNat) hp
  have hpb : pageBase s.cfg s.a.toNat = s.a.toNat := pageBase_of_aligned hw ha (inFlash_iff.mp hi).1
  change SameOutside s.flash m (pageBase s.cfg s.a.toNat) (2 * pageCells s.cfg) at hs
  change ∀ i, i < pageCells s.cfg →
    readHalf m (pageBase s.cfg s.a.toNat + 2 * i) = erased s.cfg (s.draws + i) at hm
  rw [hpb] at hs hm
  rw [hc] at hs
  refine ⟨m, hm, hs, ?_⟩
  rw [waitNotBusy_of_complete hb hr (by simp [hp]), he]
  rfl

/-- The state in which an erase of the page at `A` has started (R121, R62). -/
def eraseStarted (s : State) : State :=
  { s with crPer := true, ar := s.a, crStrt := true, pend := .erase s.a.toNat, srBsy := true }

/-- Unlocked, an erase starts and SEQ comes to its wait (R121, R62). -/
theorem eraseStart_of_open {s : State} (p : Pos) (rest : State → Host.Outcome State Fault Refusal)
    (hb : s.srBsy = false) (hl : s.crLock = false) (hg : s.crPg = false)
    (hi : inFlash s.cfg s.a.toNat 1 = true) :
    eraseStart p rest s = waitNotBusy p (eraseVerify rest) (eraseStarted s) := by
  have hq : setStrt (writeAr s.a { s with crPer := true }) = .next (eraseStarted s) := by
    simp [setStrt, writeAr, hl, hb, hi, eraseStarted]
  rw [eraseStart, setPer_of_open hl hg, andThen_next, hq, andThen_next]

/-- The page is erased exactly when no cell of it is the first that is not `0xFFFF` (R64, R53). -/
theorem firstBad_eq_iff_erased {c : Config} (hw : c.wf = true) (m : Memory) (a : Nat) :
    firstBad (fun i => readHalf m (a + 2 * i) != 0xFFFF#16) (pageCells c) = pageCells c ↔
      ∀ x, x < c.pageSize → readByte m (a + x) = 0xFF#8 := by
  obtain ⟨-, -, hc, -⟩ := wf_geometry hw
  have hff : (0xFFFF#16 : Half) = halfOf 0xFF#8 0xFF#8 := by decide
  constructor
  · intro h x hx
    have hl := (firstBad_spec (fun i => readHalf m (a + 2 * i) != 0xFFFF#16) (pageCells c)).2.1 (x / 2)
      (by omega)
    have hh : readHalf m (a + 2 * (x / 2)) = 0xFFFF#16 := by simpa using hl
    obtain ⟨h0, h1⟩ := halfOf_inj (hh.trans hff)
    rcases Nat.mod_two_eq_zero_or_one x with hx2 | hx2
    · rwa [show a + 2 * (x / 2) = a + x by omega] at h0
    · rwa [show a + 2 * (x / 2) + 1 = a + x by omega] at h1
  · intro h
    refine firstBad_none fun i hi => ?_
    have hh : readHalf m (a + 2 * i) = 0xFFFF#16 := by
      unfold readHalf
      rw [h _ (by omega), Nat.add_assoc, h _ (by omega), hff]
    simp [hh]

/-- The scan of a page ends at its first cell that is not `0xFFFF`, or past the last (R121). -/
theorem eraseScan_page {s : State} (hb : s.srBsy = false) (e : Nat → Half)
    (he : ∀ i, i < pageCells s.cfg → readHalf s.flash (s.a.toNat + 2 * i) = e i) :
    eraseScan (pageCells s.cfg) (startIdx s) =
      (decide (firstBad (fun i => e i != 0xFFFF#16) (pageCells s.cfg) = pageCells s.cfg),
        { s with idx := firstBad (fun i => e i != 0xFFFF#16) (pageCells s.cfg) }) := by
  obtain ⟨b, k, h, hlow, hk⟩ := eraseScan_spec (s := startIdx s) hb (pageCells s.cfg)
  simp only [startIdx, Nat.zero_le, forall_const, Nat.zero_add, true_and] at h hlow hk
  have hj : firstBad (fun i => e i != 0xFFFF#16) (pageCells s.cfg) = k := by
    refine firstBad_eq (by omega) (fun i hi => ?_) fun hlt => ?_
    · have := hlow i hi
      rw [he i (by omega)] at this
      simp [this]
    · rcases hk with ⟨-, h1⟩ | ⟨-, -, h1⟩
      · omega
      · rw [he k hlt] at h1
        simpa using h1
  rw [hj, startIdx, h]
  rcases hk with ⟨rfl, rfl⟩ | ⟨rfl, h1, -⟩
  · simp
  · simp [Nat.ne_of_lt h1]

/-- Verifying a page whose cells hold `e 0`, `e 1`, … goes on where they are all `0xFFFF`, and fails at the
first that is not (R121). -/
theorem eraseVerify_of_cells {s : State} (rest : State → Host.Outcome State Fault Refusal)
    (hb : s.srBsy = false) (e : Nat → Half)
    (he : ∀ i, i < pageCells s.cfg → readHalf s.flash (s.a.toNat + 2 * i) = e i) :
    eraseVerify rest s =
      if firstBad (fun i => e i != 0xFFFF#16) (pageCells s.cfg) = pageCells s.cfg then
        rest { clrPer s with idx := pageCells s.cfg }
      else .next (failOp .eraseVerify { clrPer s with
        idx := firstBad (fun i => e i != 0xFFFF#16) (pageCells s.cfg) }) := by
  have h := eraseScan_page (s := clrPer s) (by simpa using hb) e (by simpa using he)
  rw [clrPer_cfg] at h
  rw [eraseVerify, h]
  by_cases hj : firstBad (fun i => e i != 0xFFFF#16) (pageCells s.cfg) = pageCells s.cfg
  · simp [hj]
  · simp [hj]

/-- Locked, an erase that starts only writes the address register and verifies the page as it is (R121,
R105). -/
theorem eraseStart_of_locked {s : State} (p : Pos) (rest : State → Host.Outcome State Fault Refusal)
    (hb : s.srBsy = false) (hl : s.crLock = true) :
    eraseStart p rest s = eraseVerify rest { s with ar := s.a } := by
  have hq : setStrt (writeAr s.a s) = .next { s with ar := s.a } := by simp [setStrt, writeAr, hl]
  rw [eraseStart, setPer_of_locked hl, andThen_next, hq, andThen_next,
    waitNotBusy_of_ready (s := { s with ar := s.a }) hb]

/-- The state after the wait for cell `IDX`, which was left holding `w`. -/
def cellDone (w : Half) (s : State) : State :=
  { s with flash := writeHalf s.flash (cellAddr s) w, moves := s.moves.tail, draws := drawsAfter s 1 }

/-- With FCTL completing before its poll the loop over a cell writes it and goes on to verify it (R123, R63). -/
theorem wrpgCells_write {s : State} (hb : s.srBsy = false) (hn : s.pend = .none) (hg : s.crPg = true)
    (hr : fctlReady s = true) (n : Nat) :
    wrpgCells (n + 1) s = wrpgVerify (wrpgCells n) (cellDone (cellResult s 0) s) := by
  have hw : flashWrite16 (cellAddr s) (pbufCell s) s =
      .next { s with pend := .prog (cellAddr s) (pbufCell s), srBsy := true } := by
    simp [flashWrite16, hg, hb]
  rw [wrpgCells, hw, andThen_next,
    waitNotBusy_of_complete (s := { s with pend := .prog (cellAddr s) (pbufCell s), srBsy := true })
      rfl hr nofun,
    fctlComplete_prog (s := usePoll { s with pend := .prog (cellAddr s) (pbufCell s), srBsy := true }) rfl]
  simp [usePoll, cellDone, cellResult, cellValue, cellAddr, pbufCell, hn, hb, drawsAfter]
  rfl

/-- With FCTL not completing before its poll the loop over a cell waits there (R70). -/
theorem wrpgCells_wait {s : State} (hb : s.srBsy = false) (hg : s.crPg = true)
    (hr : fctlReady s = false) (n : Nat) :
    wrpgCells (n + 1) s = .next { s with
      pos := .wrpgCell, srBsy := true, pend := .prog (cellAddr s) (pbufCell s), moves := s.moves.tail } := by
  have hw : flashWrite16 (cellAddr s) (pbufCell s) s =
      .next { s with pend := .prog (cellAddr s) (pbufCell s), srBsy := true } := by
    simp [flashWrite16, hg, hb]
  rw [wrpgCells, hw, andThen_next,
    waitNotBusy_of_not_ready (s := { s with pend := .prog (cellAddr s) (pbufCell s), srBsy := true }) rfl hr]
  rfl

/-- Verifying a cell that holds the buffer's value goes on with the next; another value ends the operation
(R123, R124). -/
theorem wrpgVerify_cellDone {s : State} (hb : s.srBsy = false) (hl : s.crLock = false) (w : Half)
    (rest : State → Host.Outcome State Fault Refusal) :
    wrpgVerify rest (cellDone w s) = if w = pbufCell s then rest (nextIdx (cellDone w s))
      else .next (failOp .writeVerify { cellDone w s with crPg := false }) := by
  have hr : readHalf (cellDone w s).flash (cellAddr (cellDone w s)) = w := readHalf_writeHalf_same _ _ _
  have hc : clrPg (cellDone w s) = { cellDone w s with crPg := false } := clrPg_of_open hl
  unfold wrpgVerify
  rw [flashRead16_of_ready (s := cellDone w s) hb]
  simp only [hr, hc]
  rfl

/-! ### One cell on -/

theorem fctlReady_eq_pollReady (s : State) : fctlReady s = pollReady s 0 := by
  unfold fctlReady pollReady
  cases s.moves <;> rfl

/-- The polls after the first are those of the state with one poll used up. -/
theorem pollReady_cellDone (w : Half) (s : State) (i : Nat) :
    pollReady (nextIdx (cellDone w s)) i = pollReady s (i + 1) := by
  unfold pollReady nextIdx cellDone
  cases s.moves <;> rfl

theorem cellValue_cellDone (w : Half) (s : State) (i : Nat) :
    cellValue (nextIdx (cellDone w s)) i = cellValue s (i + 1) := by
  simp [cellValue, nextIdx, cellDone, Nat.add_assoc, Nat.add_comm 1 i]

theorem cellResult_cellDone (w : Half) (s : State) (i : Nat) :
    cellResult (nextIdx (cellDone w s)) i = cellResult s (i + 1) := by
  have ha : s.a.toNat + 2 * (s.idx + 1 + i) = s.a.toNat + 2 * (s.idx + (i + 1)) := by omega
  have hf : readHalf (writeHalf s.flash (cellAddr s) w) (s.a.toNat + 2 * (s.idx + (i + 1))) =
      readHalf s.flash (s.a.toNat + 2 * (s.idx + (i + 1))) :=
    readHalf_writeHalf_ne _ _ (by simp only [cellAddr]; omega)
  have hc := programmed_after s i (readHalf s.flash (s.a.toNat + 2 * (s.idx + (i + 1)))) (cellValue s (i + 1))
  rw [cellResult, cellValue_cellDone]
  simp only [nextIdx, cellDone, ha, hf]
  exact hc

theorem drawsAfter_cellDone (w : Half) (s : State) (n : Nat) :
    drawsAfter (nextIdx (cellDone w s)) n = drawsAfter s (n + 1) := by
  simp only [drawsAfter, nextIdx, cellDone]
  split <;> omega

/-- What the loop of `WRPG` answers, from a state with programming enabled and nothing in flight, whatever FCTL
does (R123, R124, R70). -/
theorem wrpgCells_spec {s : State} (n : Nat) (hb : s.srBsy = false) (hn : s.pend = .none)
    (hl : s.crLock = false) (hg : s.crPg = true) : WritesCells n s (wrpgCells n s) := by
  induction n generalizing s with
  | zero =>
    refine ⟨s.flash, fun _ _ => rfl, fun i hi => absurd hi (Nat.not_lt_zero i), ?_⟩
    simp [wrpgCells, clrPg, hl, drawsAfter, firstBad]
  | succ n ih =>
    simp only [WritesCells, firstBad_succ]
    cases hr : pollReady s 0
    · refine ⟨s.flash, fun _ _ => rfl, fun i hi => absurd hi (by simp), ?_⟩
      rw [wrpgCells_wait hb hg (by rw [fctlReady_eq_pollReady, hr])]
      simp [drawsAfter, cellAddr, pbufCell, cellValue]
    · rw [wrpgCells_write hb hn hg (by rw [fctlReady_eq_pollReady, hr]), wrpgVerify_cellDone hb hl,
        show pbufCell s = cellValue s 0 from rfl]
      have hcell : readHalf (cellDone (cellResult s 0) s).flash (s.a.toNat + 2 * s.idx) = cellResult s 0 :=
        readHalf_writeHalf_same _ _ _
      have hsame : ∀ x, (x < s.a.toNat + 2 * s.idx ∨ s.a.toNat + 2 * s.idx + 2 ≤ x) →
          readByte (cellDone (cellResult s 0) s).flash x = readByte s.flash x :=
        fun x hx => readByte_writeHalf_outside _ _ (by simp only [cellAddr]; omega)
      by_cases hbad : cellResult s 0 = cellValue s 0
      · obtain ⟨m, hs, hlo, hm⟩ := ih (s := nextIdx (cellDone (cellResult s 0) s)) hb hn hl hg
        simp only [pollReady_cellDone, cellValue_cellDone, cellResult_cellDone, drawsAfter_cellDone] at hs hlo hm
        change SameOutside (cellDone (cellResult s 0) s).flash m (s.a.toNat + 2 * (s.idx + 1)) _ at hs
        change ∀ i, _ → readHalf m (s.a.toNat + 2 * (s.idx + 1 + i)) = _ at hlo
        generalize firstBad (fun i => cellResult s (i + 1) != cellValue s (i + 1)) n = k at hs hlo hm ⊢
        generalize firstBad (fun i => !pollReady s (i + 1)) n = w at hs hlo hm ⊢
        simp only [hbad, bne_self_eq_false, Bool.false_eq_true, ↓reduceIte, Bool.not_true,
          Nat.add_le_add_iff_right, Nat.add_lt_add_iff_right]
        have hw : (if w ≤ k then w + 1 else k + 1 + 1) = (if w ≤ k then w else k + 1) + 1 := by
          split <;> rfl
        rw [hw]
        generalize (if w ≤ k then w else k + 1) = c at hs hlo ⊢
        refine ⟨m, fun x hx => ?_, fun i hi => ?_, ?_⟩
        · rw [hs x (by omega), hsame x (by omega)]
        · cases i with
          | zero =>
            rw [Nat.add_zero, ← hcell]
            unfold readHalf
            rw [hs _ (by omega), hs _ (by omega)]
          | succ i =>
            have h := hlo i (by omega)
            rwa [show s.idx + 1 + i = s.idx + (i + 1) by omega] at h
        · rw [← hbad, hm]
          split
          · simp [nextIdx, cellDone, Nat.add_assoc, Nat.add_comm 1]
          · split <;> simp [nextIdx, cellDone, failOp, doneOp, Nat.add_assoc, Nat.add_comm 1]
      · refine ⟨(cellDone (cellResult s 0) s).flash, fun x hx => hsame x (by simp [hbad] at hx; omega),
          fun i hi => ?_, ?_⟩
        · obtain rfl : i = 0 := by
            simp [hbad] at hi
            omega
          exact hcell
        · rw [if_neg hbad]
          simp [hbad, cellDone]

/-- Locked, the loop of `WRPG` over erased cells writes none and stops at the first whose value in the buffer is
not `0xFFFF` (R123, R105). -/
theorem wrpgCells_of_locked {s : State} (n : Nat) (hb : s.srBsy = false) (hl : s.crLock = true)
    (hg : s.crPg = false) (he : ∀ i, i < n → readHalf s.flash (s.a.toNat + 2 * (s.idx + i)) = 0xFFFF#16) :
    wrpgCells n s = .next (
      if firstBad (fun i => cellValue s i != 0xFFFF#16) n < n then
        failOp .writeVerify { s with idx := s.idx + firstBad (fun i => cellValue s i != 0xFFFF#16) n }
      else doneOp 0#32 { s with idx := s.idx + n }) := by
  have hc : clrPg s = s := by simp [clrPg, hl]
  induction n generalizing s with
  | zero => simp [wrpgCells, hc, firstBad]
  | succ n ih =>
    have hw : flashWrite16 (cellAddr s) (pbufCell s) s = .next s := by simp [flashWrite16, hg]
    have h0 : readHalf s.flash (cellAddr s) = 0xFFFF#16 := he 0 (Nat.succ_pos n)
    have hv : ∀ i, cellValue (nextIdx s) i = cellValue s (i + 1) := fun i => by
      simp [cellValue, nextIdx, Nat.add_assoc, Nat.add_comm 1 i]
    rw [wrpgCells, hw, andThen_next, waitNotBusy_of_ready hb, wrpgVerify, flashRead16_of_ready hb]
    simp only [h0, show pbufCell s = cellValue s 0 from rfl, firstBad_succ]
    by_cases hbad : cellValue s 0 = 0xFFFF#16
    · rw [if_pos hbad.symm, ih (s := nextIdx s) hb hl hg (fun i hi => by
          have h := he (i + 1) (by omega)
          rwa [show s.idx + (i + 1) = s.idx + 1 + i by omega] at h)
        (by simp [clrPg, nextIdx, hl])]
      simp only [hv, hbad]
      simp [nextIdx, Nat.add_assoc, Nat.add_comm 1]
    · rw [if_neg (Ne.symm hbad)]
      simp [hbad, hc]

end Sys2Proof.Machine
end

