-- ==== Sys2Proof/Tests/Slice0.lean ====
section
/-! SUPPORT. Tests. Expected results come from the spec's own vectors and encodings (30_encoding.md R82, 41 to
43 examples, 95_test_vectors.md); the witnesses at the end meet the hypotheses of the statements. -/

namespace Sys2Proof.Tests

open Sys2Proof.Machine

set_option Elab.async false

/-! ### Small states -/

/-- The geometry of 95_test_vectors.md: pages of 16 bytes, four of them. -/
def smallCfg : Config := { Config.suggested with pageSize := 16, totalSize := 64 }

/-- An idle block of that geometry, its CRC clock on. -/
def small (k : KeySt) (flash pbuf : Memory) (host : List HostMove) : State :=
  { State.reset with
    cfg := smallCfg, keyst := k, crLock := decide (k ≠ .opened), crcen := true
    flash := flash, pbuf := pbuf, host := host }

/-- The bytes from `a` on, as a memory, for bytes other than `0xFF`. -/
def bytesFrom : Nat → List Byte → Memory
  | _, [] => []
  | a, b :: bs => (a, b) :: bytesFrom (a + 1) bs

/-- The bytes `00 01 ... 0F`. -/
def countUp : List Byte :=
  [0x00#8, 0x01#8, 0x02#8, 0x03#8, 0x04#8, 0x05#8, 0x06#8, 0x07#8,
   0x08#8, 0x09#8, 0x0A#8, 0x0B#8, 0x0C#8, 0x0D#8, 0x0E#8, 0x0F#8]

/-- A page whose cells all hold `0x1234`. -/
def cells1234 : List Byte :=
  [0x34#8, 0x12#8, 0x34#8, 0x12#8, 0x34#8, 0x12#8, 0x34#8, 0x12#8,
   0x34#8, 0x12#8, 0x34#8, 0x12#8, 0x34#8, 0x12#8, 0x34#8, 0x12#8]

/-- The response word, where a step ends an operation. -/
def resp (o : Host.Outcome State Fault Refusal) : Option Packet :=
  match o with
  | .next t => if t.run then none else some (responseWord t)
  | .fault _ => none
  | .refused _ => none

/-- Something of the next state. -/
def after (o : Host.Outcome State Fault Refusal) (n : State → Nat) : Option Nat :=
  match o with
  | .next t => some (n t)
  | .fault _ => none
  | .refused _ => none

/-- Why a step was refused. -/
def refusal (o : Host.Outcome State Fault Refusal) : Option Refusal :=
  match o with
  | .next _ => none
  | .fault _ => none
  | .refused r => some r

/-- The key state and the lock bit of the next state. -/
def lockAfter (o : Host.Outcome State Fault Refusal) : Option (KeySt × Bool) :=
  match o with
  | .next t => some (t.keyst, t.crLock)
  | .fault _ => none
  | .refused _ => none

/-! ### Well-formed and ill-formed (00_scope.md R6, 30_encoding.md R81, R84) -/

theorem test_wf_suggested : Config.suggested.wf = true := by decide

theorem test_wf_small : smallCfg.wf = true := by decide

/-- A page size that is no power of two. -/
theorem test_illformed_page_power :
    ({ smallCfg with pageSize := 12, totalSize := 48, origin := 0 } : Config).pageSizeOk = false := by decide

/-- A page size below 4. -/
theorem test_illformed_page_small : ({ smallCfg with pageSize := 2 } : Config).pageSizeOk = false := by
  decide

/-- A total size of zero, and one that is no multiple of the page size. -/
theorem test_illformed_total :
    ({ smallCfg with totalSize := 0 } : Config).totalSizeOk = false ∧
    ({ smallCfg with totalSize := 40 } : Config).totalSizeOk = false := by decide

/-- An origin that is not page-aligned, and a region that wraps. -/
theorem test_illformed_origin :
    ({ smallCfg with origin := 0x08000008 } : Config).originOk = false ∧
    ({ smallCfg with origin := 0xFFFFFFE0 } : Config).originOk = false := by decide

/-- Reserved opcodes, a non-zero reserved field and non-zero unused fields are no legal words. -/
theorem test_illformed_words :
    legalWord 0x0000000000000000#64 = false ∧ legalWord 0xC000000000000000#64 = false ∧
    legalWord 0x6800000008000000#64 = false ∧ legalWord 0x1000000000000001#64 = false ∧
    legalWord 0x4000000100000000#64 = false ∧ legalWord 0xB000000100000000#64 = false ∧
    legalWord 0x60000000FFFFFFFF#64 = true := by decide

/-! ### Decoding: words written out from R80 to R82 -/

theorem test_decode_init : decode 0x1000000000000000#64 = .ok .init := by decide
theorem test_decode_islocked : decode 0x2000000000000000#64 = .ok .islocked := by decide
theorem test_decode_unlock : decode 0x3000000000000000#64 = .ok .unlock := by decide
theorem test_decode_lock : decode 0x4000000000000000#64 = .ok .lock := by decide
theorem test_decode_rdhw : decode 0x500000000800FFFE#64 = .ok (.rdhw 0x0800FFFE#32) := by decide
theorem test_decode_wrhw :
    decode 0x6000A55A08000400#64 = .ok (.wrhw 0x08000400#32 0xA55A#16) := by decide
theorem test_decode_erpg : decode 0x7000000008000400#64 = .ok (.erpg 0x08000400#32) := by decide
theorem test_decode_rdpg : decode 0x800000000800FC00#64 = .ok (.rdpg 0x0800FC00#32) := by decide
theorem test_decode_wrpg : decode 0x9000000008000000#64 = .ok (.wrpg 0x08000000#32) := by decide
theorem test_decode_pgcrc : decode 0xA000000008000800#64 = .ok (.pgcrc 0x08000800#32) := by decide
theorem test_decode_refl : decode 0xB0000000FFFFFFFF#64 = .ok (.refl 0xFFFFFFFF#32) := by decide

/-- The illegal words of 95_test_vectors.md 2.5, each by its reason. -/
theorem test_decode_illegal :
    decode 0x0000000000000000#64 = .error .reservedOpcode ∧
    decode 0xF000000000000000#64 = .error .reservedOpcode ∧
    decode 0x2001000000000000#64 = .error .reservedField ∧
    decode 0x6800000008000000#64 = .error .reservedField ∧
    decode 0x1000000000000001#64 = .error .unusedField ∧
    decode 0x4000000100000000#64 = .error .unusedField ∧
    decode 0x5000000108000000#64 = .error .unusedField ∧
    decode 0xB000000100000000#64 = .error .unusedField := by decide

theorem test_encode_wrhw : encode (.wrhw 0x08000400#32 0xA55A#16) = 0x6000A55A08000400#64 := by decide

/-- The assembler rejects a value that does not fit, and a buffer line of another length (R91). -/
theorem test_asm :
    asmOp "WRHW" [0x08000400, 0xA55A] = some (.wrhw 0x08000400#32 0xA55A#16) ∧
    asmOp "WRHW" [0x08000400, 0x10000] = none ∧ asmOp "RDHW" [0x100000000] = none ∧
    asmLine smallCfg (.pbuf [1, 2, 3]) = none := by decide

/-- The text of a line: blanks, commas, a comment, both notations of a number (R91, R10). -/
theorem test_asm_text :
    asmSource smallCfg
      [['W', 'R', 'H', 'W', ' ', '0', 'x', '0', '8', '0', '0', '_', '0', '4', '0', '0', ',', ' ', '1', '0', ';', 'x'],
       [' ', ';'], ['L', 'O', 'C', 'K']] =
      some [.command 0x6000000A08000400#64, .command 0x4000000000000000#64] ∧
    asmSource smallCfg [['L', 'O', 'C', 'K', ' ', '1']] = none ∧
    asmSource smallCfg [['.', 'p', 'b', 'u', 'f', ' ', '1']] = none ∧
    (asmSource smallCfg [['.', 'f', 'i', 'l', 'l', ' ', '0', 'x', 'A', 'A']]).map List.length = some 16 := by
  decide +kernel

/-! ### Lock operations: vectors L1 to L12 -/

theorem test_init_L2 :
    resp (step (small .k0 [] [] [.command 0x1000000000000000#64])) = some 0x0000001000000000#64 ∧
    lockAfter (step (small .k0 [] [] [.command 0x1000000000000000#64])) = some (.opened, false) := by
  decide +kernel

theorem test_init_L12 :
    resp (step (small .opened [] [] [.command 0x1000000000000000#64])) = some 0x0000000300000000#64 ∧
    lockAfter (step (small .opened [] [] [.command 0x1000000000000000#64])) = some (.dead, true) := by
  decide +kernel

theorem test_islocked_L1_L4 :
    resp (step (small .k0 [] [] [.command 0x2000000000000000#64])) = some 0x0000001000000001#64 ∧
    resp (step (small .opened [] [] [.command 0x2000000000000000#64])) = some 0x0000001000000000#64 := by
  decide +kernel

theorem test_unlock_L6 :
    let s := small .opened [] [] [.command 0x3000000000000000#64]
    let t := { s with cfg := { smallCfg with keyLockoutSticky := false } }
    resp (step t) = some 0x0000000300000000#64 ∧ lockAfter (step t) = some (.k0, true) := by
  decide +kernel

theorem test_unlock_L7 :
    resp (step (small .dead [] [] [.command 0x3000000000000000#64])) = some 0x0000000300000000#64 ∧
    lockAfter (step (small .dead [] [] [.command 0x3000000000000000#64])) = some (.dead, true) := by
  decide +kernel

theorem test_lock_L8_L9 :
    lockAfter (step (small .dead [] [] [.command 0x4000000000000000#64])) = some (.dead, true) ∧
    lockAfter (step (small .opened [] [] [.command 0x4000000000000000#64])) = some (.k0, true) := by
  decide +kernel

/-! ### Words: vectors W1, W4, W8, W7 -/

theorem test_rdhw_W1 :
    resp (step (small .k0 (bytesFrom 0x08000002 [0x34#8, 0x12#8]) []
      [.command 0x5000000008000002#64])) = some 0x0000001000001234#64 := by decide +kernel

theorem test_rdhw_W4 :
    resp (step (small .k0 [] [] [.command 0x5000000008000001#64])) = some 0x0000000100000000#64 := by
  decide +kernel

/-- The write fails and the cell has changed. -/
theorem test_wrhw_W8 :
    let o := step (small .opened (bytesFrom 0x08000002 [0x34#8, 0x12#8]) []
      [.command 0x600000FF08000002#64])
    resp o = some 0x0000000400000000#64 ∧
    after o (fun t => (readHalf t.flash 0x08000002).toNat) = some 0x0034 := by decide +kernel

/-- Silent success under lock. -/
theorem test_wrhw_W7 :
    resp (step (small .k0 [] [] [.command 0x6000FFFF08000000#64])) = some 0x0000001000000000#64 := by
  decide +kernel

/-! ### Pages: vectors G1, G6, G7, G8, G9a and program P5 -/

theorem test_erpg_G1 :
    let o := step (small .opened (bytesFrom 0x08000010 cells1234) [] [.command 0x7000000008000010#64])
    resp o = some 0x0000001000000000#64 ∧ after o (fun t => t.flash.length) = some 0 ∧
    after o (fun t => t.ar.toNat) = some 0x08000010 := by decide +kernel

theorem test_erpg_G6 :
    let o := step (small .k0 (bytesFrom 0x08000010 cells1234) [] [.command 0x7000000008000010#64])
    resp o = some 0x0000000500000000#64 ∧
    after o (fun t => (readHalf t.flash 0x08000010).toNat) = some 0x1234 := by decide +kernel

theorem test_rdpg_G8 :
    let o := step (small .k0 (bytesFrom 0x08000010 countUp) [] [.command 0x8000000008000010#64])
    resp o = some 0x0000001000000000#64 ∧
    after o (fun t => if t.pbuf = bytesFrom 0 countUp then 1 else 0) = some 1 := by decide +kernel

/-- Vector G7; and program P5, locked, over an erased page, where the cell that is not `0xFFFF` in the buffer
fails. -/
theorem test_wrpg_G7_P5 :
    let o := step (small .opened (bytesFrom 0x08000010 cells1234) (bytesFrom 0 countUp)
      [.command 0x9000000008000010#64])
    resp o = some 0x0000001000000000#64 ∧
    after o (fun t => if t.flash = bytesFrom 0x08000010 countUp then 1 else 0) = some 1 ∧
    resp (step (small .k0 [] (bytesFrom 2 [0x55#8, 0xAA#8]) [.command 0x9000000008000000#64])) =
      some 0x0000000400000000#64 := by
  decide +kernel

/-! ### The CRC engine: the examples of 43_crc.md R141 and program P4, vector X1 -/

theorem test_pgcrc_plain :
    resp (step (small .k0 (bytesFrom 0x08000000 countUp) [] [.command 0xA000000008000000#64])) =
      some 0x00000010A97AFF4D#64 := by decide +kernel

theorem test_pgcrc_reflected :
    let s := small .k0 (bytesFrom 0x08000000 countUp) [] [.command 0xA000000008000000#64]
    resp (step { s with cfg := { smallCfg with
      reflectIn := true, reflectOut := true, finalXor := 0xFFFFFFFF#32 } }) =
      some 0x00000010CECEE288#64 := by decide +kernel

theorem test_refl_X1 :
    resp (step (small .k0 [] [] [.command 0xB000000012345678#64])) = some 0x000000101E6A2C48#64 := by
  decide +kernel

/-- The worked values of R139, R140 and R143. -/
theorem test_conditioning :
    bswap16 0x3231#16 = 0x3132#16 ∧ condIn false 0x3231#16 0x3433#16 = 0x31323334#32 ∧
    condIn true 0x3231#16 0x3433#16 = 0x8C4CCC2C#32 ∧
    condOut true 0xFFFFFFFF#32 0x3AF83826#32 = 0x9BE3E0A3#32 := by decide +kernel

/-! ### Stops, illegal words and waits -/

/-- Out of range, no CRC clock, a bad configuration, an illegal word (R58, R33, R6, R85). -/
theorem test_stops :
    refusal (step (small .k0 [] [] [.command 0x5000000008000040#64])) = some .outOfRange ∧
    refusal (step { small .k0 [] [] [.command 0xA000000008000000#64] with crcen := false }) =
      some .crcClockOff ∧
    refusal (step { small .k0 [] [] [] with cfg := { smallCfg with totalSize := 0 } }) =
      some .badConfig ∧
    resp (step (small .k0 [] [] [.command 0xC000000000000000#64])) = some 0x0000000600000000#64 := by
  decide +kernel

/-- Setting the second enable bit (U10). -/
theorem test_bothEnables :
    refusal (setPg { small .opened [] [] [] with crPer := true }) = some .bothEnables ∧
    refusal (setPer { small .opened [] [] [] with crPg := true }) = some .bothEnables := by decide

/-- Program P7: FCTL does not complete, and there is no response. -/
theorem test_wait_P7 :
    let o := step { small .opened [] [] [.command 0x6000123408000000#64] with movesRest := false }
    resp o = none ∧ after o (fun t => if t.run && t.crPg && t.srBsy then 1 else 0) = some 1 ∧
    after o (fun t => t.flash.length) = some 0 := by decide +kernel

/-- What the host asks: a row's word decodes, and the next step after reset runs it. -/
theorem test_host_probe :
    decodeTableWord 64 0xB000000000000001 = some (.refl 1#32) ∧
    resp (step (State.reset.withFetchWord 64 0xB000000000000001)) = some 0x0000001080000000#64 := by
  decide +kernel

/-! ### Witnesses: states that meet the hypotheses of the statements

Each `test_witness_<Name>` is for the statement `Obligations.<Name>`; a statement whose only hypothesis is
`Accepting` shares `test_witness_accepting`. -/

/-- A small idle block meets the invariant, whatever HOST and FCTL do next. -/
theorem small_inv (k : KeySt) {flash pbuf : Memory} (host : List HostMove) (en : Bool)
    (moves : List Bool) (rest : Bool) (h1 : Memory.wf flash)
    (h2 : ∀ x ∈ flash, inFlash smallCfg x.1 1 = true) (h3 : Memory.wf pbuf) (h4 : ∀ x ∈ pbuf, x.1 < 16) :
    Inv { small k flash pbuf host with moves := moves, movesRest := rest, crcen := en } where
  config := test_wf_small
  lock := by simp [small]
  dead := fun _ => rfl
  busy := by simp [small, State.reset]
  start := by simp [small, State.reset]
  idle := fun _ => ⟨⟨rfl, rfl, rfl, rfl, rfl, rfl⟩, rfl⟩
  running := fun h => absurd h (by simp [small, State.reset])
  index := Nat.zero_le _
  flashWf := h1
  flashIn := h2
  pbufWf := h3
  pbufIn := h4

/-- An empty small idle block meets the invariant. -/
theorem empty_inv (k : KeySt) (host : List HostMove) (en : Bool) (moves : List Bool) (rest : Bool) :
    Inv { small k [] [] host with moves := moves, movesRest := rest, crcen := en } :=
  small_inv k host en moves rest (by decide) (by simp) (by decide) (by simp)

/-- `WRHW 0x08000000, 0x1234` that waits for FCTL. -/
def waiting (host : List HostMove) (moves : List Bool) (rest : Bool) : State :=
  { small .opened [] [] host with
    run := true, pos := .wrhwProgram, opc := 0x6#4, a := 0x08000000#32, h := 0x1234#16, crPg := true
    srBsy := true, pend := .prog 0x08000000 0x1234#16, moves := moves, movesRest := rest }

theorem waiting_inv (host : List HostMove) (moves : List Bool) (rest : Bool) :
    Inv (waiting host moves rest) where
  config := test_wf_small
  lock := by simp [waiting, small]
  dead := fun _ => rfl
  busy := by simp [waiting]
  start := by simp [waiting, small, State.reset]
  idle := fun h => absurd h (by simp [waiting])
  running := fun _ => ⟨⟨⟨show halfAligned 0x08000000#32 = true by decide,
    show inFlash smallCfg (0x08000000#32 : Word).toNat 2 = true by decide⟩, rfl, rfl, rfl, rfl⟩, rfl, rfl⟩
  index := Nat.zero_le _
  flashWf := show Memory.wf [] by decide
  flashIn := by simp [waiting, small]
  pbufWf := show Memory.wf [] by decide
  pbufIn := by simp [waiting, small]

/-- The same, over a cell that holds `0x0034`, so that the write fails. -/
def waitingCell0 : State :=
  { waiting [] [] true with flash := bytesFrom 0x08000000 [0x34#8, 0x00#8] }

theorem waitingCell0_inv : Inv waitingCell0 :=
  { waiting_inv [] [] true with
    idle := fun h => absurd h (by simp [waitingCell0, waiting])
    running := (waiting_inv [] [] true).running
    flashWf := show Memory.wf (bytesFrom 0x08000000 [0x34#8, 0x00#8]) by decide
    flashIn := show ∀ x ∈ bytesFrom 0x08000000 [0x34#8, 0x00#8], inFlash smallCfg x.1 1 = true by decide }

/-- Steps in which it goes on: one that ends it, its cell written; one that ends it with an error, the cell not
erased; one that leaves it waiting, HOST's command with it. -/
theorem waiting_goesOn :
    (∃ t, GoesOn (waiting [] [] true) t ∧ t.run = false ∧ t.ok = true) ∧
    (∃ t, GoesOn waitingCell0 t ∧ t.run = false ∧ t.ok = false) ∧
    ∃ t, GoesOn (waiting [.command 0#64] [false] true) t ∧ t.run = true ∧
      t.host = hostAfter (waiting [.command 0#64] [false] true) :=
  ⟨⟨_, ⟨rfl, by decide, rfl⟩, by decide +kernel, by decide +kernel⟩,
    ⟨_, ⟨rfl, by decide, rfl⟩, by decide +kernel, by decide +kernel⟩,
    _, ⟨rfl, by decide, rfl⟩, by decide +kernel, by decide +kernel⟩

/-- `ERPG 0x08000010` that waits for FCTL. -/
def erasing (host : List HostMove) : State :=
  { small .opened [] [] host with
    run := true, pos := .erpgErase, opc := 0x7#4, a := 0x08000010#32, ar := 0x08000010#32, crPer := true
    crStrt := true, srBsy := true, pend := .erase 0x08000010 }

theorem erasing_inv (host : List HostMove) : Inv (erasing host) where
  config := test_wf_small
  lock := by simp [erasing, small]
  dead := fun _ => rfl
  busy := by simp [erasing]
  start := by simp [erasing]
  idle := fun h => absurd h (by simp [erasing])
  running := fun _ => ⟨⟨⟨show pageAligned smallCfg 0x08000010#32 = true by decide,
    show inFlash smallCfg (0x08000010#32 : Word).toNat 16 = true by decide⟩, rfl, rfl, rfl, rfl, rfl⟩, rfl, rfl⟩
  index := Nat.zero_le _
  flashWf := show Memory.wf [] by decide
  flashIn := by simp [erasing, small]
  pbufWf := show Memory.wf [] by decide
  pbufIn := by simp [erasing, small]

/-- The invariant says nothing of FCTL's coming choices. -/
theorem inv_moves {s : State} (v : Inv s) (moves : List Bool) : Inv { s with moves := moves } :=
  { v with
    idle := fun h => ⟨⟨(v.idle h).1.1, (v.idle h).1.2, (v.idle h).1.3, (v.idle h).1.4, (v.idle h).1.5,
      (v.idle h).1.6⟩, (v.idle h).2⟩ }

/-- `WRPG 0x08000010` that waits for its erase. -/
def erasingToWrite (host : List HostMove) : State := { erasing host with pos := .wrpgErase, opc := 0x9#4 }

theorem erasingToWrite_inv (host : List HostMove) : Inv (erasingToWrite host) :=
  { erasing_inv host with
    idle := fun h => absurd h (by simp [erasingToWrite, erasing])
    running := fun _ => ⟨⟨⟨show pageAligned smallCfg 0x08000010#32 = true by decide,
      show inFlash smallCfg (0x08000010#32 : Word).toNat 16 = true by decide⟩, rfl, rfl, rfl, rfl, rfl⟩,
      rfl, rfl⟩ }

/-- `WRPG 0x08000000` that waits for its cell 7, the last. -/
def writingCell (host : List HostMove) : State :=
  { waiting host [] true with
    pos := .wrpgCell, opc := 0x9#4, idx := 7, pend := .prog 0x0800000E 0xFFFF#16 }

theorem writingCell_inv (host : List HostMove) : Inv (writingCell host) :=
  { waiting_inv host [] true with
    busy := by simp [writingCell, waiting]
    start := by simp [writingCell, waiting, small, State.reset]
    idle := fun h => absurd h (by simp [writingCell, waiting])
    index := show 7 ≤ pageCells smallCfg by decide
    running := fun _ => ⟨⟨⟨show pageAligned smallCfg 0x08000000#32 = true by decide,
      show inFlash smallCfg (0x08000000#32 : Word).toNat 16 = true by decide⟩,
      show 7 < pageCells smallCfg by decide,
      show Pend.prog 0x0800000E 0xFFFF#16 = .prog ((0x08000000#32 : Word).toNat + 2 * 7) (readHalf [] 14)
        by decide, rfl, rfl, rfl⟩, rfl, rfl⟩ }

/-- The block, locked or not, accepts a command. -/
theorem test_witness_accepting (k : KeySt) (host : List HostMove) : Accepting (small k [] [] host) :=
  ⟨test_wf_small, rfl⟩

theorem test_witness_StepRunsTheDecodedCommand :
    Accepting (small .k0 [] [] [.command 0x2000000000000000#64]) ∧
    (small .k0 [] [] [.command 0x2000000000000000#64]).host = .command 0x2000000000000000#64 :: [] ∧
    decode 0x2000000000000000#64 = .ok .islocked :=
  ⟨test_witness_accepting _ _, rfl, by decide⟩

theorem test_witness_IllegalCommandTouchesNothing :
    Accepting (small .opened [] [] [.command 0#64]) ∧
    (small .opened [] [] [.command 0#64]).host = .command 0#64 :: [] ∧
    legalWord 0#64 = false :=
  ⟨test_witness_accepting _ _, rfl, by decide⟩

theorem test_witness_DecodeAndEncodeAreInverse :
    decode 0x6000FFFFFFFFFFFF#64 = .ok (.wrhw 0xFFFFFFFF#32 0xFFFF#16) := by decide

theorem test_witness_DecodeFollowsTheOpcodeMap :
    decode 0x1000000000000000#64 = .ok .init ∧ decode 0xFFFFFFFFFFFFFFFF#64 = .error .reservedField := by
  decide

theorem test_witness_AssemblerInvertsMnemonics :
    asmOp "REFL" [0xFFFFFFFF] = some (.refl 0xFFFFFFFF#32) := by decide

theorem test_witness_NoCommandWhileRunning :
    (waiting [.command 0#64] [] false).cfg.wf = true ∧ (waiting [.command 0#64] [] false).run = true ∧
    (waiting [.command 0#64] [] false).host = .command 0#64 :: [] ∧
    ∃ t, step (waiting [.command 0#64] [] false) = .next t :=
  ⟨test_wf_small, rfl, rfl, _, rfl⟩

theorem test_witness_BadConfigurationIsRefused :
    ({ small .k0 [] [] [] with cfg := { smallCfg with pageSize := 2 } } : State).cfg.wf = false := by
  decide

/-- An idle block, and one with a program or an erase in flight. -/
theorem test_witness_ResetEventLeavesTheStatedValues :
    (small .dead [] [] [.reset]).cfg.wf = true ∧ (small .dead [] [] [.reset]).host = .reset :: [] ∧
    (small .dead [] [] [.reset]).pend = .none ∧
    (waiting [.reset] [] true).cfg.wf = true ∧ (waiting [.reset] [] true).host = .reset :: [] :=
  ⟨test_wf_small, rfl, rfl, test_wf_small, rfl⟩

theorem test_witness_ResetKeepsCellsNotInFlight :
    ((waiting [.reset] [] true).cfg.wf = true ∧ (waiting [.reset] [] true).host = .reset :: [] ∧
      (∃ t, step (waiting [.reset] [] true) = .next t) ∧
      (waiting [.reset] [] true).pend = .prog 0x08000000 0x1234#16) ∧
    ((erasing [.reset]).cfg.wf = true ∧ (erasing [.reset]).host = .reset :: [] ∧
      (∃ t, step (erasing [.reset]) = .next t) ∧ (erasing [.reset]).pend = .erase 0x08000010) :=
  ⟨⟨test_wf_small, rfl, ⟨_, rfl⟩, rfl⟩, test_wf_small, rfl, ⟨_, rfl⟩, rfl⟩

/-- The last byte of the buffer, and the first it does not have. -/
theorem test_witness_HostWritesTheBuffer :
    (Accepting (small .k0 [] [] [.pbufWrite 15 0xAA#8]) ∧ 15 < smallCfg.pageSize) ∧
    (Accepting (small .k0 [] [] [.pbufWrite 16 0xAA#8]) ∧ smallCfg.pageSize ≤ 16) :=
  ⟨⟨test_witness_accepting _ _, by decide⟩, test_witness_accepting _ _, by decide⟩

theorem test_witness_IdleBlockExecutesNothing :
    (Accepting (small .k0 [] [] []) ∧ (small .k0 [] [] []).host = []) ∧
    (Accepting (small .k0 [] [] [.idle]) ∧ (small .k0 [] [] [.idle]).host = .idle :: []) :=
  ⟨⟨test_witness_accepting _ _, rfl⟩, test_witness_accepting _ _, rfl⟩

/-- For the statements whose hypotheses are the invariant and a step. -/
theorem test_witness_EveryStepKeepsTheInvariant :
    (Inv (waiting [] [false] true) ∧ ∃ t, step (waiting [] [false] true) = .next t) ∧
    (Inv (small .k0 [] [] []) ∧ ∃ t, step (small .k0 [] [] []) = .next t) :=
  ⟨⟨waiting_inv _ _ _, _, rfl⟩, empty_inv _ _ _ _ _, _, rfl⟩

theorem test_witness_EveryStepKeepsMemoriesCanonical :
    Memory.wf (waiting [] [] true).flash ∧ Memory.wf (waiting [] [] true).pbuf ∧
    ∃ t, step (waiting [] [] true) = .next t :=
  ⟨by decide, by decide, _, rfl⟩

theorem test_witness_NoStepChangesAParameter : ∃ t, step (erasing [.reset]) = .next t := ⟨_, rfl⟩

theorem test_witness_LockBitMatchesTheKeyState :
    ((small .k0 [] [] []).crLock = false ↔ (small .k0 [] [] []).keyst = .opened) ∧
    ((small .opened [] [] []).crLock = false ↔ (small .opened [] [] []).keyst = .opened) ∧
    (∃ t, step (small .k0 [] [] []) = .next t) ∧ ∃ t, step (small .opened [] [] []) = .next t :=
  ⟨by decide, by decide, ⟨_, rfl⟩, _, rfl⟩

theorem test_witness_BusyFlagMatchesTheOperationInFlight :
    (((waiting [] [] true).srBsy = true ↔ (waiting [] [] true).pend ≠ .none) ∧
      ((waiting [] [] true).crStrt = true ↔ ∃ a, (waiting [] [] true).pend = .erase a)) ∧
    ∃ t, step (waiting [] [] true) = .next t :=
  ⟨⟨by simp [waiting], by simp [waiting, small, State.reset]⟩, _, rfl⟩

/-- An operation that waits and ends in the next step. -/
theorem test_witness_IdleBetweenOperations :
    Inv (waiting [] [] true) ∧ ∃ t, step (waiting [] [] true) = .next t ∧ t.run = false :=
  ⟨waiting_inv _ _ _, _, rfl, rfl⟩

/-- A state for each of the four ways a step goes: on, out of the buffer, out of the array, without its
clock. -/
theorem test_witness_StepsStopOnlyWhereTheSpecRefuses :
    Inv (small .k0 [] [] []) ∧ Inv (small .k0 [] [] [.pbufWrite 16 0#8]) ∧
    Inv (small .k0 [] [] [.command 0x5000000008000040#64]) ∧
    Inv { small .k0 [] [] [.command 0xA000000008000030#64] with crcen := false } :=
  ⟨empty_inv _ _ _ _ _, empty_inv _ _ _ _ _, empty_inv _ _ _ _ _, empty_inv _ _ false [] true⟩

theorem test_witness_FairOperationEnds :
    Inv (waiting [] [false, false] true) ∧ (waiting [] [false, false] true).run = true ∧
    (waiting [] [false, false] true).host = [] ∧ Fair (waiting [] [false, false] true) :=
  ⟨waiting_inv _ _ _, rfl, rfl, rfl⟩

theorem test_witness_StuckOperationNeverEnds :
    Inv (waiting [] [false] false) ∧ (waiting [] [false] false).run = true ∧
    (waiting [] [false] false).host = [] ∧ Stuck (waiting [] [false] false) :=
  ⟨waiting_inv _ _ _, rfl, rfl, rfl, by simp [waiting]⟩

/-- A state for each clause: the right first key, the right second key, a wrong first key (the other key), a
wrong second key, an unlocked controller, a locked-out one. -/
theorem test_witness_KeyWriteFollowsTheSequence :
    (small .k0 [] [] []).keyst = .k0 ∧ (small .k1 [] [] []).keyst = .k1 ∧
    (small .k0 [] [] []).cfg.key2 ≠ (small .k0 [] [] []).cfg.key1 ∧
    (small .k1 [] [] []).cfg.key1 ≠ (small .k1 [] [] []).cfg.key2 ∧
    (small .opened [] [] []).keyst = .opened ∧ (small .dead [] [] []).keyst = .dead := by decide

/-- A state for each clause: locked; unlocked, with each enable bit set and clear; ready to start at the first
byte of the array, at its last, and one past it; not ready, for each reason. -/
theorem test_witness_ControlBitsObeyTheLock :
    let s (v : Word) : State := { small .opened [] [] [] with crPer := true, ar := v }
    (small .k0 [] [] []).crLock = true ∧ (s 0#32).crLock = false ∧ (s 0#32).crPer = true ∧
    (s 0#32).srBsy = false ∧ inFlash smallCfg (s 0x08000000#32).ar.toNat 1 = true ∧
    inFlash smallCfg (s 0x0800003F#32).ar.toNat 1 = true ∧
    inFlash smallCfg (s 0x08000040#32).ar.toNat 1 = false ∧
    (small .opened [] [] []).crLock = false ∧ (small .opened [] [] []).crPer = false ∧
    (small .opened [] [] []).crPg = false ∧ (waiting [] [] true).crPg = true ∧
    (waiting [] [] true).crLock = false ∧ (waiting [] [] true).srBsy = true := by decide

theorem test_witness_KeysOpenALockedController :
    Accepting (small .k0 [] [] []) ∧ (small .k0 [] [] []).keyst = .k0 :=
  ⟨test_witness_accepting _ _, rfl⟩

theorem test_witness_KeysDoNotOpenOtherwise :
    (Accepting (small .opened [] [] []) ∧ (small .opened [] [] []).keyst = .opened) ∧
    (Accepting (small .dead [] [] []) ∧ (small .dead [] [] []).keyst = .dead ∧
      (small .dead [] [] []).crLock = true) ∧
    (Accepting (small .k1 [] [] []) ∧ (small .k1 [] [] []).keyst = .k1) :=
  ⟨⟨test_witness_accepting _ _, rfl⟩, ⟨test_witness_accepting _ _, rfl, rfl⟩,
    test_witness_accepting _ _, rfl⟩

/-- An `UNLOCK` that a locked-out controller ignores. -/
theorem test_witness_DeadEndsOnlyAtReset :
    let s := small .dead [] [] [.command 0x3000000000000000#64]
    s.keyst = .dead ∧ s.crLock = true ∧ s.host.head? ≠ some .reset ∧ ∃ t, step s = .next t :=
  ⟨rfl, rfl, by decide, _, rfl⟩

/-- The clause about steps that go on: `waiting_goesOn`. -/
theorem test_witness_OnlyKeyOperationsMoveTheLock :
    Instr.erpg 0x08000010#32 ≠ .init ∧ Instr.erpg 0x08000010#32 ≠ .unlock ∧
    Instr.erpg 0x08000010#32 ≠ .lock ∧
    ∃ t, exec (.erpg 0x08000010#32) { small .opened [] [] [] with movesRest := false } = .next t :=
  ⟨by decide, by decide, by decide, _, rfl⟩

/-- A page write under lock. -/
theorem test_witness_LockedFlashNeverChanges :
    let s := small .k0 [] [] [.command 0x9000000008000000#64]
    Inv s ∧ s.crLock = true ∧ ∃ t, step s = .next t :=
  ⟨empty_inv _ _ _ _ _, rfl, _, rfl⟩

/-- An odd address in the array, and the last one of the address space. -/
theorem test_witness_OddWordOperandsTouchNothing :
    Accepting (small .k0 [] [] []) ∧ (0x08000001#32 : Word).toNat % 2 = 1 ∧
    (0xFFFFFFFF#32 : Word).toNat % 2 = 1 :=
  ⟨test_witness_accepting _ _, by decide, by decide⟩

theorem test_witness_UnalignedPageOperandsTouchNothing :
    Accepting (small .k0 [] [] []) ∧ (0x08000001#32 : Word).toNat % smallCfg.pageSize ≠ 0 ∧
    (0x0800003F#32 : Word).toNat % smallCfg.pageSize ≠ 0 :=
  ⟨test_witness_accepting _ _, by decide, by decide⟩

/-- The last aligned addresses below the array and the first above it, for a word and for a page. -/
theorem test_witness_OutOfRangeOperandsAreRefused :
    Accepting (small .k0 [] [] []) ∧
    inFlash smallCfg (0x07FFFFFE#32 : Word).toNat 2 = false ∧
    inFlash smallCfg (0x08000040#32 : Word).toNat 2 = false ∧
    inFlash smallCfg (0x07FFFFF0#32 : Word).toNat 16 = false ∧
    inFlash smallCfg (0x08000040#32 : Word).toNat 16 = false ∧
    (0x08000040#32 : Word).toNat % smallCfg.pageSize = 0 :=
  ⟨test_witness_accepting _ _, by decide, by decide, by decide, by decide, by decide⟩

/-- The first and the last cell of the array, for the statements about a cell. -/
theorem test_witness_RdhwAnswersTheCell :
    Accepting (small .k0 [] [] []) ∧ (small .k0 [] [] []).srBsy = false ∧
    (0x08000000#32 : Word).toNat % 2 = 0 ∧ inFlash smallCfg (0x08000000#32 : Word).toNat 2 = true ∧
    (0x0800003E#32 : Word).toNat % 2 = 0 ∧ inFlash smallCfg (0x0800003E#32 : Word).toNat 2 = true :=
  ⟨test_witness_accepting _ _, rfl, by decide, by decide, by decide, by decide⟩

/-- Unlocked and FCTL ready, reliable and not; and a write that waits, FCTL ready. -/
theorem test_witness_WrhwProgramsTheCell :
    let s := small .opened [] [] []
    let u : State := { s with cfg := { smallCfg with flashReliable := false } }
    (Accepting s ∧ s.srBsy = false ∧ s.crLock = false ∧ s.crPer = false ∧ fctlReady s = true) ∧
    (Accepting u ∧ u.srBsy = false ∧ u.crLock = false ∧ u.crPer = false ∧ fctlReady u = true) ∧
    (0x0800003E#32 : Word).toNat % 2 = 0 ∧ inFlash smallCfg (0x0800003E#32 : Word).toNat 2 = true ∧
    (let w := waiting [.idle] [true] false
     Inv w ∧ w.run = true ∧ w.pos = .wrhwProgram ∧ w.host.head? ≠ some .reset ∧ fctlReady w = true) :=
  ⟨⟨⟨test_wf_small, rfl⟩, rfl, rfl, rfl, rfl⟩, ⟨⟨test_wf_small, rfl⟩, rfl, rfl, rfl, rfl⟩, by decide,
    by decide, waiting_inv _ _ _, rfl, rfl, by decide, rfl⟩

theorem test_witness_WrhwLockedOnlyCompares :
    let s := small .k0 [] [] []
    Accepting s ∧ s.srBsy = false ∧ s.crPg = false ∧ s.crLock = true ∧
    readHalf s.flash 0x08000000 = 0xFFFF#16 ∧ (0x08000000#32 : Word).toNat % 2 = 0 ∧
    inFlash smallCfg (0x08000000#32 : Word).toNat 2 = true :=
  ⟨test_witness_accepting _ _, rfl, rfl, rfl, by decide, by decide, by decide⟩

/-- A cell and a page, FCTL not ready; and each wait a run can stand at, FCTL not ready. -/
theorem test_witness_OperationsWaitForFctl :
    let s : State := { small .opened [] [] [] with moves := [false] }
    let stuck (w : State) : State := { w with moves := [false] }
    (Accepting s ∧ s.srBsy = false ∧ s.crLock = false ∧ s.crPer = false ∧ s.crPg = false ∧
      fctlReady s = false) ∧
    ((0x08000000#32 : Word).toNat % 2 = 0 ∧ inFlash smallCfg (0x08000000#32 : Word).toNat 2 = true) ∧
    ((0x08000030#32 : Word).toNat % smallCfg.pageSize = 0 ∧
      inFlash smallCfg (0x08000030#32 : Word).toNat smallCfg.pageSize = true) ∧
    (let w := waiting [.command 0#64] [] false
     Inv w ∧ w.run = true ∧ w.host.head? ≠ some .reset ∧ fctlReady w = false) ∧
    (Inv (stuck (erasing [])) ∧ fctlReady (stuck (erasing [])) = false) ∧
    (Inv (stuck (erasingToWrite [])) ∧ fctlReady (stuck (erasingToWrite [])) = false) ∧
    (Inv (stuck (writingCell [])) ∧ fctlReady (stuck (writingCell [])) = false) :=
  ⟨⟨⟨test_wf_small, rfl⟩, rfl, rfl, rfl, rfl, rfl⟩, ⟨by decide, by decide⟩, ⟨by decide, by decide⟩,
    ⟨waiting_inv _ _ _, rfl, by decide, rfl⟩, ⟨inv_moves (erasing_inv []) _, rfl⟩,
    ⟨inv_moves (erasingToWrite_inv []) _, rfl⟩, inv_moves (writingCell_inv []) _, rfl⟩

/-- The first and the last page, on an unlocked block whose flash is reliable, and on one whose flash may
fail; and an erase that waits, FCTL ready. -/
theorem test_witness_ErpgErasesThePage :
    let s := small .opened (bytesFrom 0x08000010 cells1234) [] []
    let u : State := { s with cfg := { smallCfg with flashReliable := false } }
    (Accepting s ∧ s.srBsy = false ∧ s.crLock = false ∧ s.crPg = false ∧ fctlReady s = true ∧
      s.cfg.flashReliable = true) ∧
    (Accepting u ∧ u.srBsy = false ∧ u.crLock = false ∧ u.crPg = false ∧ fctlReady u = true) ∧
    (0x08000000#32 : Word).toNat % smallCfg.pageSize = 0 ∧
    inFlash smallCfg (0x08000000#32 : Word).toNat smallCfg.pageSize = true ∧
    (0x08000030#32 : Word).toNat % smallCfg.pageSize = 0 ∧
    inFlash smallCfg (0x08000030#32 : Word).toNat smallCfg.pageSize = true ∧
    (Inv (erasing []) ∧ (erasing []).run = true ∧ (erasing []).pos = .erpgErase ∧
      (erasing []).host.head? ≠ some .reset ∧ fctlReady (erasing []) = true) :=
  ⟨⟨⟨test_wf_small, rfl⟩, rfl, rfl, rfl, rfl, rfl⟩, ⟨⟨test_wf_small, rfl⟩, rfl, rfl, rfl, rfl⟩, by decide,
    by decide, by decide, by decide, erasing_inv _, rfl, rfl, by decide, rfl⟩

/-- Locked: page 2 is erased, page 1 is not. -/
theorem test_witness_ErpgLockedOnlyScans :
    let s := small .k0 (bytesFrom 0x08000010 cells1234) [] []
    Accepting s ∧ s.srBsy = false ∧ s.crLock = true ∧
    (0x08000020#32 : Word).toNat % s.cfg.pageSize = 0 ∧
    inFlash s.cfg (0x08000020#32 : Word).toNat s.cfg.pageSize = true ∧
    (∀ x, x < s.cfg.pageSize → readByte s.flash ((0x08000020#32 : Word).toNat + x) = 0xFF#8) ∧
    ¬ (∀ x, x < s.cfg.pageSize → readByte s.flash ((0x08000010#32 : Word).toNat + x) = 0xFF#8) :=
  ⟨⟨test_wf_small, rfl⟩, rfl, rfl, by decide, by decide, by decide, by decide⟩

/-- An erase that ends in its own step, and one that ends after a poll. -/
theorem test_witness_ErpgSuccessMeansErased :
    (Inv (small .opened [] [] []) ∧ ∃ t, exec (.erpg 0x08000010#32) (small .opened [] [] []) = .next t ∧
      t.host = [] ∧ t.run = false ∧ t.ok = true) ∧
    (let s : State := { small .opened [] [] [] with moves := [false] }
     Inv s ∧ ∃ t u, exec (.erpg 0x08000010#32) s = .next t ∧ t.host = [] ∧
      Host.Core.run core 1 t = .next u ∧ u.run = false ∧ u.ok = true) :=
  ⟨⟨empty_inv _ _ _ _ _, _, rfl, rfl, by decide +kernel, by decide +kernel⟩,
    empty_inv _ _ true [false] true, _, _, rfl, rfl, rfl, by decide +kernel, by decide +kernel⟩

theorem test_witness_RdpgReadsThePage :
    let s := small .k0 (bytesFrom 0x08000010 countUp) [] []
    Accepting s ∧ s.srBsy = false ∧ (0x08000010#32 : Word).toNat % s.cfg.pageSize = 0 ∧
    inFlash s.cfg (0x08000010#32 : Word).toNat s.cfg.pageSize = true :=
  ⟨⟨test_wf_small, rfl⟩, rfl, by decide, by decide⟩

/-- A state for each clause. A flash that is reliable, and one that may fail: there the erase may leave a cell
that is not `0xFFFF`, or a program one that differs from the buffer, as the free values go. -/
theorem test_witness_WrpgWritesThePage :
    let s := small .opened (bytesFrom 0x08000010 cells1234) (bytesFrom 0 countUp) []
    let u : State := { s with cfg := { smallCfg with flashReliable := false } }
    (Accepting s ∧ s.srBsy = false ∧ s.crLock = false ∧ s.crPg = false ∧ Prompt s ∧
      s.cfg.flashReliable = true) ∧
    (Accepting u ∧ u.srBsy = false ∧ u.crLock = false ∧ u.crPg = false ∧ Prompt u ∧ fctlReady u = true) ∧
    (0x08000010#32 : Word).toNat % smallCfg.pageSize = 0 ∧
    inFlash smallCfg (0x08000010#32 : Word).toNat smallCfg.pageSize = true ∧
    (let w := erasingToWrite [.command 0#64]
     Inv w ∧ w.run = true ∧ w.pos = .wrpgErase ∧ w.host.head? ≠ some .reset ∧ fctlReady w = true) ∧
    (let w := writingCell [.idle]
     Inv w ∧ w.run = true ∧ w.pos = .wrpgCell ∧ w.host.head? ≠ some .reset) :=
  ⟨⟨⟨test_wf_small, rfl⟩, rfl, rfl, rfl, ⟨rfl, fun m h => nomatch h⟩, rfl⟩,
    ⟨⟨test_wf_small, rfl⟩, rfl, rfl, rfl, ⟨rfl, fun m h => nomatch h⟩, rfl⟩, by decide, by decide,
    ⟨erasingToWrite_inv _, rfl, rfl, by decide, rfl⟩, writingCell_inv _, rfl, rfl, by decide⟩

/-- The last page write of a run: from the wait for cell 7, the step ends the operation; with FCTL not ready at the
second of its polls, the step from the wait for the erase stands at the wait for cell 1. -/
theorem test_wrpg_goes_on :
    resp (step (writingCell [])) = some 0x0000001000000000#64 ∧
    after (step { erasingToWrite [] with moves := [true, true, false] }) (fun t =>
      if t.run && t.pos = .wrpgCell then t.idx else 99) = some 1 := by decide +kernel

/-- Locked: page 1 is not erased; page 2 is, and the buffer differs from erased at cell 1, the last cell, or
nowhere. -/
theorem test_witness_WrpgLockedOnlyCompares :
    let s (p : Memory) := small .k0 (bytesFrom 0x08000010 cells1234) p []
    let p1 := bytesFrom 2 [0x55#8, 0xAA#8]
    let p7 := bytesFrom 14 [0x55#8, 0xAA#8]
    (∀ p, Accepting (s p) ∧ (s p).srBsy = false ∧ (s p).crPg = false ∧ (s p).crLock = true) ∧
    (0x08000020#32 : Word).toNat % smallCfg.pageSize = 0 ∧
    inFlash smallCfg (0x08000020#32 : Word).toNat smallCfg.pageSize = true ∧
    ¬ (∀ x, x < 16 → readByte (s p1).flash ((0x08000010#32 : Word).toNat + x) = 0xFF#8) ∧
    (∀ x, x < 16 → readByte (s p1).flash ((0x08000020#32 : Word).toNat + x) = 0xFF#8) ∧
    ((∀ i, i < 1 → readHalf p1 (2 * i) = 0xFFFF#16) ∧ readHalf p1 (2 * 1) ≠ 0xFFFF#16) ∧
    ((∀ i, i < 7 → readHalf p7 (2 * i) = 0xFFFF#16) ∧ readHalf p7 (2 * 7) ≠ 0xFFFF#16) ∧
    (∀ i, i < pageCells smallCfg → readHalf [] (2 * i) = 0xFFFF#16) :=
  ⟨fun _ => ⟨⟨test_wf_small, rfl⟩, rfl, rfl, rfl⟩, by decide, by decide, by decide, by decide,
    by decide, by decide, by decide⟩

/-- A locked page write that fails at cell 1 in its own step, and the block that then stands idle. -/
theorem test_witness_WrpgAbortsAtTheFirstMismatch :
    let s := small .k0 [] (bytesFrom 2 [0x55#8, 0xAA#8]) []
    Inv s ∧ ∃ t u, exec (.wrpg 0x08000000#32) s = .next t ∧ t.host = [] ∧
      Host.Core.run core 1 t = .next u ∧ u.run = false ∧ u.err = errBits .writeVerify ∧ u.idx = 1 :=
  ⟨small_inv .k0 [] true [] true (by decide) (by simp) (by decide) (by decide), _, _, rfl,
    by decide +kernel, rfl, by decide +kernel, by decide +kernel, by decide +kernel⟩

/-- A page write that waits once and ends with success, and the block after it. -/
theorem test_witness_WriteThenReadReturnsTheBuffer :
    let s : State := { small .opened [] (bytesFrom 2 [0x55#8, 0xAA#8]) [] with moves := [false] }
    Inv s ∧ ∃ t u, exec (.wrpg 0x08000000#32) s = .next t ∧ t.host = [] ∧
      Host.Core.run core 1 t = .next u ∧ u.run = false ∧ u.ok = true ∧
      Accepting { u with pbuf := [] } ∧ ({ u with pbuf := [] } : State).srBsy = false :=
  ⟨small_inv .opened [] true [false] true (by decide) (by simp) (by decide) (by decide), _, _, rfl, rfl, rfl,
    by decide +kernel, by decide +kernel, ⟨by decide +kernel, by decide +kernel⟩, by decide +kernel⟩

theorem test_witness_PgcrcIsTheBytewiseCrc :
    let s := small .k0 (bytesFrom 0x08000010 countUp) [] []
    Accepting s ∧ s.srBsy = false ∧ s.crcen = true ∧
    (0x08000010#32 : Word).toNat % s.cfg.pageSize = 0 ∧
    inFlash s.cfg (0x08000010#32 : Word).toNat s.cfg.pageSize = true :=
  ⟨⟨test_wf_small, rfl⟩, rfl, rfl, by decide, by decide⟩

theorem test_witness_PgcrcNeedsItsClock :
    let s : State := { small .opened [] [] [] with crcen := false }
    Accepting s ∧ s.crcen = false ∧ (0x08000030#32 : Word).toNat % s.cfg.pageSize = 0 ∧
    inFlash s.cfg (0x08000030#32 : Word).toNat s.cfg.pageSize = true :=
  ⟨⟨test_wf_small, rfl⟩, rfl, by decide, by decide⟩

/-- The clause about steps that go on: `waiting_goesOn`. -/
theorem test_witness_OnlyInitEnablesTheCrcClock :
    (∃ t, exec .init (small .opened [] [] []) = .next t) ∧
    ∃ t, exec .lock { small .opened [] [] [] with crcen := false } = .next t :=
  ⟨⟨_, rfl⟩, _, rfl⟩

/-- The steps that start and end an operation; the clause about steps that go on: `waiting_goesOn`. -/
theorem test_witness_ResponsesAreConsistent :
    (∃ t, exec (.refl 1#32) (small .k0 [] [] []) = .next t ∧ t.run = false ∧ t.ok = true) ∧
    (∃ t, exec (.rdhw 1#32) (small .k0 [] [] []) = .next t ∧ t.run = false ∧ t.ok = false) ∧
    (∃ t, exec (.rdpg 1#32) (small .k0 [] [] []) = .next t ∧ t.run = false ∧ t.ok = false) ∧
    (∃ t, exec .unlock (small .dead [] [] []) = .next t ∧ t.run = false ∧ t.ok = false) :=
  ⟨⟨_, rfl, rfl, rfl⟩, ⟨_, rfl, rfl, rfl⟩, ⟨_, rfl, rfl, rfl⟩, _, rfl, rfl, rfl⟩

/-- An error in the step that starts the operation, and in one in which it goes on. -/
theorem test_witness_OperationsReportTheirOwnErrors :
    (∃ t, exec (.rdhw 1#32) (small .k0 [] [] []) = .next t ∧ t.run = false ∧ t.ok = false) ∧
    (let s := waitingCell0
     Inv s ∧ s.opc = (Instr.wrhw 0x08000000#32 0x1234#16).opcode ∧
      ∃ t, GoesOn s t ∧ t.run = false ∧ t.ok = false) :=
  ⟨⟨_, rfl, rfl, rfl⟩, waitingCell0_inv, rfl, _, ⟨rfl, by decide, rfl⟩, by decide +kernel,
    by decide +kernel⟩

/-- Register addresses that fit 32 bits, as the suggested bases give; a CRC unit with its clock and one
without. -/
theorem test_witness_RegisterMapFollowsThePrimitives :
    Config.suggested.fctlBase.toNat + 0x14 < 2 ^ 32 ∧ Config.suggested.crcuBase.toNat + 0x08 < 2 ^ 32 ∧
    (small .k0 [] [] []).crcen = true ∧ ({ small .k0 [] [] [] with crcen := false } : State).crcen = false := by
  decide

/-- The clause about steps that go on: `waiting_goesOn`. -/
theorem test_witness_OnlyRdpgWritesTheBuffer :
    (∀ a, Instr.lock ≠ .rdpg a) ∧ ∃ t, exec .lock (small .opened [] [] []) = .next t :=
  ⟨nofun, _, rfl⟩

theorem test_witness_OnlyDestructiveOperationsUseFctl :
    (∀ a h, Instr.lock ≠ .wrhw a h) ∧ (∀ a, Instr.lock ≠ .erpg a ∧ Instr.lock ≠ .wrpg a) ∧
    ∃ t, exec .lock (small .opened [] [] []) = .next t :=
  ⟨nofun, fun _ => ⟨nofun, nofun⟩, _, rfl⟩

/-- The clause about steps that go on: `waiting_inv` and `waiting_goesOn`. -/
theorem test_witness_DestructiveOperationsStayInTheirTarget :
    Inv (small .opened [] [] []) ∧
    (∃ t, exec (.wrhw 0x08000000#32 0#16) (small .opened [] [] []) = .next t) ∧
    (∃ t, exec (.erpg 0x08000000#32) (small .opened [] [] []) = .next t) ∧
    ∃ t, exec (.wrpg 0x08000000#32) (small .opened [] [] []) = .next t :=
  ⟨empty_inv _ _ _ _ _, ⟨_, rfl⟩, ⟨_, rfl⟩, _, rfl⟩

end Sys2Proof.Tests
end

section
/-! A configuration that breaks R6 stops every operation and every step: no operation does anything before
`accept` has checked the configuration, and the command port hands over no command under a bad one. -/

namespace Sys2Proof.Machine

/-- Every operation is accepted before it does anything (R83, R93). -/
theorem exec_eq_accept (i : Instr) : ∃ body, ∀ s,
    exec i s = accept i.opcode i.operandA i.operandH body s := by
  cases i <;>
    simp only [exec, execInit, execIslocked, execUnlock, execLock, execRdhw, execWrhw, execErpg, execRdpg,
      execWrpg, execPgcrc, execRefl] <;>
    exact ⟨_, fun _ => rfl⟩

theorem accept_of_badConfig {s : State} (hw : s.cfg.wf = false) (opc : BitVec 4) (a : Word) (h : Half)
    (body : State → Host.Outcome State Fault Refusal) :
    accept opc a h body s = .refused .badConfig := by
  simp [accept, hw]

theorem exec_of_badConfig {s : State} (hw : s.cfg.wf = false) (i : Instr) :
    exec i s = .refused .badConfig := by
  obtain ⟨body, he⟩ := exec_eq_accept i
  rw [he, accept_of_badConfig hw]

theorem portCommand_of_badConfig {s : State} (hw : s.cfg.wf = false) : portCommand s = none := by
  simp [portCommand, hw]

theorem stepWithoutCommand_of_badConfig {s : State} (hw : s.cfg.wf = false) :
    stepWithoutCommand s = .refused .badConfig := by
  simp [stepWithoutCommand, hw]

theorem step_of_badConfig {s : State} (hw : s.cfg.wf = false) : step s = .refused .badConfig := by
  rw [step, portCommand_of_badConfig hw]
  exact stepWithoutCommand_of_badConfig hw

/-- Settles O8: `accept` guards every operation, and the port's guard leaves a step to
`stepWithoutCommand`, which refuses. -/
theorem badConfigurationIsRefused : Obligations.BadConfigurationIsRefused :=
  fun _ hw => ⟨step_of_badConfig hw, exec_of_badConfig hw⟩

end Sys2Proof.Machine
end

section
/-! What every single action of an operation keeps, and so every operation and every step: the parameters, the
canonical form of both memories, the agreement of the lock bit with the key state, and that of the flags with
what is in flight (10_state.md R16, R18, R29). -/

namespace Sys2Proof.Machine

/-! ### The effect of an action -/

/-- What an action does to the memories, the lock, the CRC clock and the response: it leaves each as it is, or it
is one of the few actions that change it. -/
structure Effect (i : Instr) (s t : State) : Prop where
  flash : t.flash = s.flash ∨ t.flash = (fctlComplete (usePoll s)).flash
  pbuf : t.pbuf = s.pbuf ∨ (∃ a, i = .rdpg a) ∧ ∃ j w, t.pbuf = writeHalf s.pbuf j w
  lock : (t.keyst = s.keyst ∧ t.crLock = s.crLock) ∨ (∃ v, t = keyWrite v s) ∨ t = setLock s
  crcen : t.crcen = s.crcen ∨ i = .init
  response : (t.run = s.run ∧ t.ok = s.ok ∧ t.err = s.err ∧ t.val = s.val) ∨
    (∃ v, t = doneOp v s) ∨ ∃ e, t = failOp e s

theorem Effect.of_same {i : Instr} {s t : State} (hf : t.flash = s.flash) (hp : t.pbuf = s.pbuf)
    (hl : t.keyst = s.keyst ∧ t.crLock = s.crLock) (hc : t.crcen = s.crcen)
    (hr : t.run = s.run ∧ t.ok = s.ok ∧ t.err = s.err ∧ t.val = s.val) : Effect i s t :=
  ⟨.inl hf, .inl hp, .inl hl, .inl hc, .inl hr⟩

theorem Micro.effect {i : Instr} {s t : State} (h : Micro i s t) : Effect i s t := by
  cases h
  case clock hi => exact ⟨.inl rfl, .inl rfl, .inl ⟨rfl, rfl⟩, .inr hi, .inl ⟨rfl, rfl, rfl, rfl⟩⟩
  case key v _ => exact ⟨.inl (by simp), .inl (by simp), .inr (.inl ⟨v, rfl⟩), .inl (by simp), .inl (by simp)⟩
  case lock => exact ⟨.inl rfl, .inl rfl, .inr (.inr rfl), .inl rfl, .inl ⟨rfl, rfl, rfl, rfl⟩⟩
  case complete => exact ⟨.inr rfl, .inl (by simp), .inl (by simp), .inl (by simp), .inl (by simp)⟩
  case buffer j w hi =>
    exact ⟨.inl rfl, .inr ⟨hi, j, w, rfl⟩, .inl ⟨rfl, rfl⟩, .inl rfl, .inl ⟨rfl, rfl, rfl, rfl⟩⟩
  case done v => exact ⟨.inl rfl, .inl rfl, .inl ⟨rfl, rfl⟩, .inl rfl, .inr (.inl ⟨v, rfl⟩)⟩
  case fail e => exact ⟨.inl rfl, .inl rfl, .inl ⟨rfl, rfl⟩, .inl rfl, .inr (.inr ⟨e, rfl⟩)⟩
  case pgOn hq =>
    obtain ⟨b, rfl⟩ := setPg_frame hq
    exact .of_same rfl rfl ⟨rfl, rfl⟩ rfl ⟨rfl, rfl, rfl, rfl⟩
  case perOn hq =>
    obtain ⟨b, rfl⟩ := setPer_frame hq
    exact .of_same rfl rfl ⟨rfl, rfl⟩ rfl ⟨rfl, rfl, rfl, rfl⟩
  case start hq =>
    obtain ⟨b, p, c, rfl⟩ := setStrt_frame hq
    exact .of_same rfl rfl ⟨rfl, rfl⟩ rfl ⟨rfl, rfl, rfl, rfl⟩
  case write hq =>
    obtain ⟨p, c, rfl⟩ := flashWrite16_frame hq
    exact .of_same rfl rfl ⟨rfl, rfl⟩ rfl ⟨rfl, rfl, rfl, rfl⟩
  all_goals exact .of_same (by simp) (by simp) (by simp) (by simp) (by simp)

/-! ### Parameters and memories -/

/-- Settles O17: no action of an operation and no move of HOST writes `cfg`. -/
theorem noStepChangesAParameter : Obligations.NoStepChangesAParameter := by
  intro s t h
  refine step_keeps (P := fun u => u.cfg = s.cfg) (fun i u v hm hu => ?_) (fun _ _ _ _ _ => id)
    (fun _ => id) (fun u hu => ?_) (fun _ _ _ _ => id) (fun _ _ => id) h rfl
  · obtain ⟨-, -, -, -, -, hc⟩ := hm.keeps_latches
    exact hc.trans hu
  · obtain ⟨m, d, d', p, e, -⟩ := resetEvent_spec u
    rw [e]
    exact hu

/-- Both memories are in canonical form. -/
def MemoriesWf (s : State) : Prop := Memory.wf s.flash ∧ Memory.wf s.pbuf

/-- Only FCTL's completion step and the copy into the buffer write a memory, both cell by cell. -/
theorem Micro.keeps_memoriesWf {i : Instr} {s t : State} (h : Micro i s t) (hs : MemoriesWf s) :
    MemoriesWf t := by
  obtain ⟨hf, hp⟩ := hs
  constructor
  · rcases h.effect.flash with e | e <;> rw [e]
    · exact hf
    · exact fctlComplete_flash_wf hf
  · rcases h.effect.pbuf with e | ⟨-, j, w, e⟩ <;> rw [e]
    · exact hp
    · exact wf_writeHalf hp j w

theorem resetEvent_keeps_memoriesWf {s : State} (hs : MemoriesWf s) : MemoriesWf (resetEvent s) := by
  obtain ⟨m, d, d', p, e, hf, hp, -⟩ := resetEvent_spec s
  rw [e]
  exact ⟨hf hs.1, hp hs.2⟩

theorem step_keeps_memoriesWf {s t : State} (h : step s = .next t) (hs : MemoriesWf s) : MemoriesWf t :=
  step_keeps (fun _ _ _ => Micro.keeps_memoriesWf) (fun _ _ _ _ _ => id) (fun _ => id)
    (fun _ => resetEvent_keeps_memoriesWf) (fun _ j b _ hu => ⟨hu.1, wf_writeByte hu.2 j b⟩)
    (fun _ _ => id) h hs

/-- Settles O16: every write of a memory keeps the canonical form, the draws of a reset too. -/
theorem everyStepKeepsMemoriesCanonical : Obligations.EveryStepKeepsMemoriesCanonical :=
  fun _ _ hf hp h => step_keeps_memoriesWf h ⟨hf, hp⟩

/-! ### The lock -/

theorem keyWrite_of_dead (v : Word) {s : State} (hk : s.keyst = .dead) : keyWrite v s = s := by
  simp [keyWrite, hk]

/-- Settles O24: the four cases of R19, as `keyWrite` and `lockout` have them. -/
theorem keyWriteFollowsTheSequence : Obligations.KeyWriteFollowsTheSequence := by
  intro v s
  refine ⟨fun hk hv => ?_, fun hk hv => ?_, ?_, fun hk => ?_⟩
  · simp [keyWrite, hk, hv]
  · simp [keyWrite, hk, hv]
  · rintro (⟨hk, hv⟩ | ⟨hk, hv⟩ | hk)
    · simp [keyWrite, hk, hv, lockout]
    · simp [keyWrite, hk, hv, lockout]
    · simp [keyWrite, hk, lockout]
  · exact keyWrite_of_dead v hk

/-- What a write of the key register can do (R19). -/
theorem keyWrite_cases (v : Word) (s : State) :
    (s.keyst = .k0 ∧ keyWrite v s = { s with keyst := .k1 }) ∨
    (s.keyst = .k1 ∧ keyWrite v s = { s with keyst := .opened, crLock := false }) ∨
    (s.keyst ≠ .dead ∧ keyWrite v s = lockout s) ∨ (s.keyst = .dead ∧ keyWrite v s = s) := by
  unfold keyWrite
  cases hk : s.keyst
  case k0 => by_cases hv : v = s.cfg.key1 <;> simp [hv]
  case k1 => by_cases hv : v = s.cfg.key2 <;> simp [hv]
  case opened => simp
  case dead => simp

/-- `CR.LOCK = 0` if and only if `KEYST = OPEN` (R18). -/
def LockAgrees (s : State) : Prop := s.crLock = false ↔ s.keyst = .opened

theorem lockAgrees_lockout (s : State) : LockAgrees (lockout s) := by
  cases hs : s.cfg.keyLockoutSticky <;> simp [LockAgrees, hs]

theorem lockAgrees_setLock (s : State) : LockAgrees (setLock s) := by
  by_cases hk : s.keyst = .dead <;> simp [LockAgrees, hk]

theorem keyWrite_keeps_lockAgrees (v : Word) {s : State} (hs : LockAgrees s) :
    LockAgrees (keyWrite v s) := by
  rcases keyWrite_cases v s with ⟨hk, e⟩ | ⟨-, e⟩ | ⟨-, e⟩ | ⟨-, e⟩ <;> rw [e]
  · simpa [LockAgrees, hk] using hs
  · simp [LockAgrees]
  · exact lockAgrees_lockout s
  · exact hs

theorem Micro.keeps_lockAgrees {i : Instr} {s t : State} (h : Micro i s t) (hs : LockAgrees s) :
    LockAgrees t := by
  rcases h.effect.lock with ⟨hk, hl⟩ | ⟨v, rfl⟩ | rfl
  · rwa [LockAgrees, hk, hl]
  · exact keyWrite_keeps_lockAgrees v hs
  · exact lockAgrees_setLock s

theorem lockAgrees_resetEvent (s : State) : LockAgrees (resetEvent s) := by
  obtain ⟨m, d, d', p, e, -⟩ := resetEvent_spec s
  simp [LockAgrees, e]

theorem step_keeps_lockAgrees {s t : State} (h : step s = .next t) (hs : LockAgrees s) : LockAgrees t :=
  step_keeps (fun _ _ _ => Micro.keeps_lockAgrees) (fun _ _ _ _ _ => id) (fun _ => id)
    (fun u _ => lockAgrees_resetEvent u) (fun _ _ _ _ => id) (fun _ _ => id) h hs

/-- Settles O18: a lock-out and setting the lock bit lock and leave `OPEN`; only `KEY2` in `K1` unlocks, and
opens. -/
theorem lockBitMatchesTheKeyState : Obligations.LockBitMatchesTheKeyState :=
  ⟨by simp [State.reset], fun _ _ hs h => step_keeps_lockAgrees h hs⟩

/-- `DEAD` is reachable only when the lock-out is sticky (R18). -/
def DeadIsSticky (s : State) : Prop := s.keyst = .dead → s.cfg.keyLockoutSticky = true

theorem keyWrite_keeps_deadIsSticky (v : Word) {s : State} (hs : DeadIsSticky s) :
    DeadIsSticky (keyWrite v s) := by
  rcases keyWrite_cases v s with ⟨-, e⟩ | ⟨-, e⟩ | ⟨-, e⟩ | ⟨-, e⟩ <;> rw [e]
  · simp [DeadIsSticky]
  · simp [DeadIsSticky]
  · simp [DeadIsSticky]
  · exact hs

theorem Micro.keeps_deadIsSticky {i : Instr} {s t : State} (h : Micro i s t) (hs : DeadIsSticky s) :
    DeadIsSticky t := by
  obtain ⟨-, -, -, -, -, hc⟩ := h.keeps_latches
  rcases h.effect.lock with ⟨hk, -⟩ | ⟨v, rfl⟩ | rfl
  · rwa [DeadIsSticky, hk, hc]
  · exact keyWrite_keeps_deadIsSticky v hs
  · simpa [DeadIsSticky] using hs

theorem deadIsSticky_resetEvent (s : State) : DeadIsSticky (resetEvent s) := by
  obtain ⟨m, d, d', p, e, -⟩ := resetEvent_spec s
  simp [DeadIsSticky, e]

theorem step_keeps_deadIsSticky {s t : State} (h : step s = .next t) (hs : DeadIsSticky s) :
    DeadIsSticky t :=
  step_keeps (fun _ _ _ => Micro.keeps_deadIsSticky) (fun _ _ _ _ _ => id) (fun _ => id)
    (fun u _ => deadIsSticky_resetEvent u) (fun _ _ _ _ => id) (fun _ _ => id) h hs

/-- A step that is not the reset event is a sequence of actions, after what HOST and the command port do: they
latch the operands, use up a move and write the buffer (R93, R195). -/
theorem step_trace {s t : State} (h : step s = .next t) (hr : s.host.head? ≠ some .reset) :
    ∃ i b o a w m p,
      Trace i { s with run := b, opc := o, a := a, h := w, host := m, pbuf := p } t := by
  obtain ⟨-, h⟩ := step_cases h
  rcases h with ⟨c, rest, i, -, -, -, h⟩ | ⟨c, rest, e, -, -, -, h⟩ | ⟨u, hu, h⟩ |
    ⟨j, b, rest, -, -, h⟩ | ⟨rest, hh, -⟩
  · exact ⟨i, _, _, _, _, _, s.pbuf, (exec_trace h).2⟩
  · obtain ⟨-, h⟩ := accepting_of_next h
    cases h
    exact ⟨.islocked, _, _, _, _, _, s.pbuf, .one (.fail .illegalCmd _)⟩
  · obtain ⟨m, rfl⟩ : ∃ m, u = { s with host := m } := by
      rcases hu with rfl | ⟨rfl, -⟩
      · exact ⟨u.host, rfl⟩
      · exact ⟨_, rfl⟩
    rcases advance_cases h with ⟨-, rfl⟩ | ⟨-, -, h⟩
    · exact ⟨.islocked, s.run, s.opc, s.a, s.h, m, s.pbuf, .refl⟩
    · exact ⟨_, s.run, s.opc, s.a, s.h, m, s.pbuf, resumeAt_trace h⟩
  · unfold hostPbufWrite at h
    split at h
    · cases h
      exact ⟨.islocked, s.run, s.opc, s.a, s.h, _, _, .refl⟩
    · cases h
  · simp [hh] at hr

/-- In `DEAD` a write of the key register is ignored, and setting the lock bit leaves `DEAD` (R19, R25). -/
theorem Micro.keeps_dead {i : Instr} {s t : State} (h : Micro i s t)
    (hs : s.keyst = .dead ∧ s.crLock = true) : t.keyst = .dead ∧ t.crLock = true := by
  rcases h.effect.lock with ⟨hk, hl⟩ | ⟨v, rfl⟩ | rfl
  · rwa [hk, hl]
  · rwa [keyWrite_of_dead v hs.1]
  · simp [hs.1]

/-- Settles O29: every step but the reset event is a sequence of actions, and each keeps `DEAD`. -/
theorem deadEndsOnlyAtReset : Obligations.DeadEndsOnlyAtReset := by
  intro s t hk hl hr h
  obtain ⟨i, b, o, a, w, m, p, htr⟩ := step_trace h hr
  exact htr.keeps (P := fun u => u.keyst = .dead ∧ u.crLock = true) (fun _ _ => Micro.keeps_dead) ⟨hk, hl⟩

/-- Settles O25: each request of R25, locked and unlocked. -/
theorem controlBitsObeyTheLock : Obligations.ControlBitsObeyTheLock := by
  intro s
  refine ⟨rfl, fun hl => ?_, fun hl => ?_, fun hl he hb => ?_, fun hl hd => ?_⟩
  · simp [setPg, clrPg, setPer, clrPer, setStrt, hl]
  · exact ⟨clrPg_of_open hl, clrPer_of_open hl, setPg_of_open hl, fun he => by simp [setPg, hl, he],
      setPer_of_open hl, fun hg => by simp [setPer, hl, hg]⟩
  · exact ⟨fun hi => by simp [setStrt, hl, he, hb, hi], fun hi => by simp [setStrt, hl, he, hb, hi]⟩
  · rcases hd with he | hb
    · simp [setStrt, hl, he]
    · simp [setStrt, hl, hb]

/-! ### What is in flight -/

/-- `SR.BSY = 1` if and only if something is in flight, `CR.STRT = 1` if and only if an erase is (R29). -/
def FlightAgrees (s : State) : Prop :=
  (s.srBsy = true ↔ s.pend ≠ .none) ∧ (s.crStrt = true ↔ ∃ a, s.pend = .erase a)

theorem flightAgrees_of_none {s : State} (hb : s.srBsy = false) (hp : s.pend = .none)
    (hs : s.crStrt = false) : FlightAgrees s := by simp [FlightAgrees, hb, hp, hs]

theorem setStrt_keeps_flightAgrees {s t : State} (h : setStrt s = .next t) (hs : FlightAgrees s) :
    FlightAgrees t := by
  rcases setStrt_cases h with ⟨-, rfl⟩ | ⟨-, -, -, -, rfl⟩
  · exact hs
  · simp [FlightAgrees]

/-- A program starts only where nothing is in flight, so no erase is. -/
theorem flashWrite16_keeps_flightAgrees {a : Nat} {v : Half} {s t : State}
    (h : flashWrite16 a v s = .next t) (hs : FlightAgrees s) : FlightAgrees t := by
  rcases flashWrite16_cases h with ⟨-, rfl⟩ | ⟨-, hb, rfl⟩
  · exact hs
  · obtain ⟨hbusy, hstart⟩ := hs
    have hp : s.pend = .none := by simpa [hb] using hbusy
    simpa [FlightAgrees, hp] using hstart

/-- After the completion step nothing is in flight and both flags are clear: an erase clears the start bit, and
with a program in flight it was clear. -/
theorem fctlComplete_crStrt {s : State} (hp : s.pend ≠ .none)
    (hs : s.crStrt = true → ∃ a, s.pend = .erase a) : (fctlComplete s).crStrt = false := by
  obtain ⟨m, d, e, -⟩ := fctlComplete_spec s hp
  rw [e]
  cases hq : s.pend <;> simp_all

theorem fctlComplete_keeps_flightAgrees {s : State} (hp : s.pend ≠ .none) (hs : FlightAgrees s) :
    FlightAgrees (fctlComplete s) :=
  flightAgrees_of_none (fctlComplete_srBsy hp) (fctlComplete_pend s) (fctlComplete_crStrt hp hs.2.mp)

theorem Micro.keeps_flightAgrees {i : Instr} {s t : State} (h : Micro i s t) (hs : FlightAgrees s) :
    FlightAgrees t := by
  cases h
  case complete hp => exact fctlComplete_keeps_flightAgrees (s := usePoll s) hp hs
  case pgOn hq => obtain ⟨b, rfl⟩ := setPg_frame hq; exact hs
  case perOn hq => obtain ⟨b, rfl⟩ := setPer_frame hq; exact hs
  case start hq => exact setStrt_keeps_flightAgrees hq hs
  case write hq => exact flashWrite16_keeps_flightAgrees hq hs
  all_goals simpa [FlightAgrees] using hs

theorem flightAgrees_resetEvent (s : State) : FlightAgrees (resetEvent s) := by
  obtain ⟨m, d, d', p, e, -⟩ := resetEvent_spec s
  rw [e]
  exact flightAgrees_of_none rfl rfl rfl

theorem step_keeps_flightAgrees {s t : State} (h : step s = .next t) (hs : FlightAgrees s) :
    FlightAgrees t :=
  step_keeps (fun _ _ _ => Micro.keeps_flightAgrees) (fun _ _ _ _ _ => id) (fun _ => id)
    (fun u _ => flightAgrees_resetEvent u) (fun _ _ _ _ => id) (fun _ _ => id) h hs

/-- Settles O19: what starts something sets the flags, the completion step and the reset clear them, and nothing
else touches them. -/
theorem busyFlagMatchesTheOperationInFlight : Obligations.BusyFlagMatchesTheOperationInFlight :=
  fun _ _ hs h => step_keeps_flightAgrees h hs

end Sys2Proof.Machine
end

section
/-! What the actions of an operation leave as it was, and with what response it ends (10_state.md R33, R37 to R39,
30_encoding.md R87, R88). -/

namespace Sys2Proof.Machine

/-- The operation SEQ goes on with is one of the three that wait, or none. -/
theorem operationAt_ne_init (p : Pos) (s : State) : operationAt p s ≠ .init := by
  cases p <;> simp [operationAt]

theorem operationAt_ne_rdpg (p : Pos) (s : State) (a : Word) : operationAt p s ≠ .rdpg a := by
  cases p <;> simp [operationAt]

/-! ### The CRC clock -/

theorem Micro.keeps_crcen {i : Instr} (hi : i ≠ .init) {s t : State} (h : Micro i s t) :
    t.crcen = s.crcen :=
  h.effect.crcen.resolve_right hi

theorem Trace.keeps_crcen {i : Instr} (hi : i ≠ .init) {s t : State} (h : Trace i s t) :
    t.crcen = s.crcen :=
  h.keeps (P := fun u => u.crcen = s.crcen) (fun _ _ hm hu => (hm.keeps_crcen hi).trans hu) rfl

@[simp] theorem endUnlock_crcen (s : State) : (endUnlock s).crcen = s.crcen := by
  cases hl : s.crLock <;> simp [endUnlock, hl]

/-- Settles O53: `INIT` sets the enable before its key writes, and no action of another operation writes it. -/
theorem onlyInitEnablesTheCrcClock : Obligations.OnlyInitEnablesTheCrcClock := by
  refine ⟨fun i s t h => ⟨?_, fun hi => ?_⟩, fun s t h => ?_⟩
  · rintro rfl
    rw [exec_init (exec_trace h).1] at h
    cases h
    simp [writeKeys]
  · exact (exec_trace h).2.keeps_crcen hi
  · exact (goesOn_trace h).keeps_crcen (operationAt_ne_init _ _)

/-! ### The page buffer -/

theorem Micro.keeps_pbuf {i : Instr} (hi : ∀ a, i ≠ .rdpg a) {s t : State} (h : Micro i s t) :
    t.pbuf = s.pbuf :=
  h.effect.pbuf.resolve_right fun ⟨⟨a, ha⟩, _⟩ => hi a ha

theorem Trace.keeps_pbuf {i : Instr} (hi : ∀ a, i ≠ .rdpg a) {s t : State} (h : Trace i s t) :
    t.pbuf = s.pbuf :=
  h.keeps (P := fun u => u.pbuf = s.pbuf) (fun _ _ hm hu => (hm.keeps_pbuf hi).trans hu) rfl

/-- Settles O58: only the copy of `RDPG` writes the buffer, and `RDPG` never waits. -/
theorem onlyRdpgWritesTheBuffer : Obligations.OnlyRdpgWritesTheBuffer :=
  ⟨fun _ _ _ hi h => (exec_trace h).2.keeps_pbuf hi,
    fun _ _ h => (goesOn_trace h).keeps_pbuf (operationAt_ne_rdpg _ _)⟩

/-! ### FCTL's program and erase -/

/-- Two states agree on the flash array, the bits of FCTL, what is in flight and FCTL's coming choices. -/
def SameFctl (s t : State) : Prop :=
  t.flash = s.flash ∧ t.crPg = s.crPg ∧ t.crPer = s.crPer ∧ t.crStrt = s.crStrt ∧
    t.srBsy = s.srBsy ∧ t.pend = s.pend ∧ t.moves = s.moves

/-- Every request to FCTL, poll and completion belongs to an operation that programs or erases. -/
theorem Micro.sameFctl {i : Instr} (hp : ¬ programs i) (he : ¬ erases i) {s t : State}
    (h : Micro i s t) : SameFctl s t := by
  cases h
  case pgOn h _ => exact absurd h hp
  case pgOff h => exact absurd h hp
  case write h _ => exact absurd h hp
  case perOn h _ => exact absurd h he
  case perOff h => exact absurd h he
  case addr h => exact absurd h he
  case start h _ => exact absurd h he
  case complete h _ _ => exact absurd h (not_or.mpr ⟨hp, he⟩)
  case poll h _ => exact absurd h (not_or.mpr ⟨hp, he⟩)
  all_goals simp [SameFctl]

theorem SameFctl.trans {s t u : State} (h : SameFctl s t) (h' : SameFctl t u) : SameFctl s u := by
  simp_all [SameFctl]

theorem Trace.sameFctl {i : Instr} (hp : ¬ programs i) (he : ¬ erases i) {s t : State}
    (h : Trace i s t) : SameFctl s t :=
  h.keeps (P := SameFctl s) (fun _ _ hm hu => hu.trans (hm.sameFctl hp he))
    ⟨rfl, rfl, rfl, rfl, rfl, rfl, rfl⟩

theorem not_programs {i : Instr} (hw : ∀ a h, i ≠ .wrhw a h) (hp : ∀ a, i ≠ .wrpg a) : ¬ programs i := by
  cases i <;> simp_all [programs]

theorem not_erases {i : Instr} (he : ∀ a, i ≠ .erpg a) (hp : ∀ a, i ≠ .wrpg a) : ¬ erases i := by
  cases i <;> simp_all [erases]

/-- Settles O59: the other operations neither program nor erase. -/
theorem onlyDestructiveOperationsUseFctl : Obligations.OnlyDestructiveOperationsUseFctl :=
  fun _ _ _ hw hp h => (exec_trace h).2.sameFctl (not_programs hw fun a => (hp a).2)
    (not_erases (fun a => (hp a).1) fun a => (hp a).2)

/-! ### Responses -/

theorem responseOk_doneOp (v : Word) (s : State) : ResponseOk (doneOp v s) := by simp [ResponseOk]

theorem responseOk_failOp (e : ErrCode) (s : State) : ResponseOk (failOp e s) := by
  cases e <;> simp [ResponseOk, errBits]

theorem Micro.keeps_responseOk {i : Instr} {s t : State} (h : Micro i s t)
    (hs : s.run = false → ResponseOk s) : t.run = false → ResponseOk t := by
  rcases h.effect.response with ⟨hr, hk, he, hv⟩ | ⟨v, rfl⟩ | ⟨e, rfl⟩
  · rwa [ResponseOk, hr, hk, he, hv]
  · exact fun _ => responseOk_doneOp v s
  · exact fun _ => responseOk_failOp e s

/-- An operation that runs and ends has answered. -/
theorem Trace.responseOk {i : Instr} {s t : State} (h : Trace i s t) (hs : s.run = true) :
    t.run = false → ResponseOk t :=
  h.keeps (P := fun u => u.run = false → ResponseOk u) (fun _ _ => Micro.keeps_responseOk)
    fun h0 => by simp [hs] at h0

/-- Settles O54: an operation ends by `done` or by `fail` only. -/
theorem responsesAreConsistent : Obligations.ResponsesAreConsistent :=
  ⟨fun _ _ _ h => (exec_trace h).2.responseOk rfl, fun _ _ h => (goesOn_trace h).responseOk h.1⟩

end Sys2Proof.Machine
end

section
/-! Reset and HOST's write of the page buffer (10_state.md R38, R43, 70_reset_and_hazards.md R180). -/

namespace Sys2Proof.Machine

/-- Settles O9: the fields of the definition. -/
theorem resetHoldsTheStatedValues : Obligations.ResetHoldsTheStatedValues :=
  ⟨rfl, rfl, rfl, rfl, rfl, rfl, rfl, rfl, rfl, rfl⟩

theorem idleRegs_reset : IdleRegs State.reset := ⟨rfl, rfl, rfl, rfl, rfl, rfl⟩

/-- Settles O14: the idle registers, empty memories and a configuration that meets R6. -/
theorem invariantHoldsAtReset : Obligations.InvariantHoldsAtReset where
  config := by decide
  lock := by simp [State.reset]
  dead := by simp [State.reset]
  busy := by simp [State.reset]
  start := by simp [State.reset]
  idle := fun _ => ⟨idleRegs_reset, rfl⟩
  running := by simp [State.reset]
  index := Nat.zero_le _
  flashWf := reset_memories_wf.1
  flashIn := by simp [State.reset]
  pbufWf := reset_memories_wf.2
  pbufIn := by simp [State.reset]

/-- The command port hands over a command only where HOST's next move is one. -/
theorem portCommand_of_head {s : State} (h : ∀ c, s.host.head? ≠ some (.command c)) :
    portCommand s = none := by
  unfold portCommand
  split
  · rfl
  · split
    · rename_i c rest hh
      exact absurd (by rw [hh]; rfl) (h c)
    · rfl

/-- The reset event comes at any time (R180). -/
theorem step_of_reset {s : State} {rest : List HostMove} (hw : s.cfg.wf = true)
    (hh : s.host = .reset :: rest) : step s = .next (resetEvent (useMove s)) := by
  rw [step, portCommand_of_head (by simp [hh])]
  simp [stepWithoutCommand, hw, hh]

/-- HOST writes the buffer while no operation runs (R38, R72). -/
theorem step_of_pbufWrite {s : State} {j : Nat} {b : Byte} {rest : List HostMove} (ha : Accepting s)
    (hh : s.host = .pbufWrite j b :: rest) : step s = hostPbufWrite j b (useMove s) := by
  rw [step, portCommand_of_head (by simp [hh])]
  simp [stepWithoutCommand, ha.1, ha.2, hh]

/-- Settles O10: what `resetRegs` sets stands in the next state, since drawing the buffer and the cells in flight
touches no register. -/
theorem resetEventLeavesTheStatedValues : Obligations.ResetEventLeavesTheStatedValues := by
  intro s rest hw hh
  obtain ⟨m, d, d', p, e, -, -, hm, -⟩ := resetEvent_spec (useMove s)
  exact ⟨_, (step_of_reset hw hh).trans (congrArg _ e), rfl, rfl, rfl, rfl, rfl, rfl, rfl, rfl, rfl, rfl,
    rfl, hm⟩

/-- Settles O12: the write of one byte, or the fault where the buffer has no such byte. -/
theorem hostWritesTheBuffer : Obligations.HostWritesTheBuffer := by
  intro s j b rest ha hh
  rw [step_of_pbufWrite ha hh]
  refine ⟨fun hj => ⟨writeByte s.pbuf j b, ?_, readByte_writeByte_same _ _ _,
    fun x hx => readByte_writeByte_ne _ _ hx⟩, fun hj => ?_⟩
  · simp [hostPbufWrite, useMove, hj, hh]
  · simp [hostPbufWrite, useMove, Nat.not_lt.mpr hj]

end Sys2Proof.Machine
end

section
/-! The invariant of every run (10_state.md R36, R38, R40, 20_memory.md R50). The clauses about the lock, the flags
and the canonical form are kept by every action. The other clauses, `Placed`, depend on where SEQ stands: between
waits an operation is `Working`, with nothing in flight, and it comes to a wait with exactly what it started in
flight, `Waiting`. Each part of an operation is taken from one of these to the next. -/

namespace Sys2Proof.Machine

/-! ### What is in flight lies inside the array -/

/-- `FLASH` lists bytes of the region only (R50). -/
def ArrayInside (s : State) : Prop := ∀ x ∈ s.flash, inFlash s.cfg x.1 1 = true

/-- `PBUF` lists bytes of the buffer only (R38). -/
def BufferInside (s : State) : Prop := ∀ x ∈ s.pbuf, x.1 < s.cfg.pageSize

/-- The cell or the page that FCTL is changing lies inside the array (R61, R62). -/
def FlightInside (s : State) : Prop :=
  (∀ a v, s.pend = .prog a v → inFlash s.cfg a 2 = true) ∧
  ∀ a, s.pend = .erase a → inFlash s.cfg (pageBase s.cfg a) s.cfg.pageSize = true

theorem inFlash_cellAddr {s : State} (hw : s.cfg.wf = true) (ha : PageOperand s)
    (hi : s.idx < pageCells s.cfg) : inFlash s.cfg (cellAddr s) 2 = true := by
  obtain ⟨-, -, hc, -⟩ := wf_geometry hw
  obtain ⟨h1, h2⟩ := inFlash_iff.mp ha.2
  exact inFlash_iff.mpr (by unfold cellAddr; omega)

theorem inFlash_pageBase {s : State} (hw : s.cfg.wf = true) (ha : PageOperand s) :
    inFlash s.cfg (pageBase s.cfg s.a.toNat) s.cfg.pageSize = true := by
  rw [pageBase_of_aligned hw (pageAligned_iff.mp ha.1) (inFlash_iff.mp ha.2).1]
  exact ha.2

/-- A page of the array contains the byte at its operand, where an erase starts (R62). -/
theorem inFlash_pageOperand {s : State} (hw : s.cfg.wf = true) (ha : PageOperand s) :
    inFlash s.cfg s.a.toNat 1 = true := by
  obtain ⟨h4, -⟩ := wf_geometry hw
  obtain ⟨h1, h2⟩ := inFlash_iff.mp ha.2
  exact inFlash_iff.mpr (by omega)

theorem flightInside_of_prog {s : State} {a : Nat} {v : Half} (hp : s.pend = .prog a v)
    (ha : inFlash s.cfg a 2 = true) : FlightInside s := by
  simp [FlightInside, hp, ha]

theorem flightInside_of_erase {s : State} (hw : s.cfg.wf = true) (ha : PageOperand s)
    (hp : s.pend = .erase s.a.toNat) : FlightInside s := by
  simp [FlightInside, hp, inFlash_pageBase hw ha]

/-- An operation that waits does so for a cell or a page of the array. -/
theorem WaitsFor.flightInside {s : State} (hw : s.cfg.wf = true) (h : WaitsFor s) : FlightInside s := by
  unfold WaitsFor at h
  split at h
  · obtain ⟨ha, hp, -⟩ := h
    exact flightInside_of_prog hp ha.2
  · obtain ⟨ha, hp, -⟩ := h
    exact flightInside_of_erase hw ha hp
  · obtain ⟨ha, hp, -⟩ := h
    exact flightInside_of_erase hw ha hp
  · obtain ⟨ha, hi, hp, -⟩ := h
    exact flightInside_of_prog hp (inFlash_cellAddr hw ha hi)
  · exact h.elim

/-- An operation that waits does so for something. -/
theorem WaitsFor.pend_ne_none {s : State} (h : WaitsFor s) : s.pend ≠ .none := by
  unfold WaitsFor at h
  split at h
  · obtain ⟨-, hp, -⟩ := h
    simp [hp]
  · obtain ⟨-, hp, -⟩ := h
    simp [hp]
  · obtain ⟨-, hp, -⟩ := h
    simp [hp]
  · obtain ⟨-, -, hp, -⟩ := h
    simp [hp]
  · exact h.elim

/-- Writing bytes of the region lists none outside it. -/
theorem inFlash_of_written {c : Config} {m m' : Memory} {a n : Nat}
    (hm : ∀ x ∈ m, inFlash c x.1 1 = true) (ha : inFlash c a n = true)
    (h : ∀ x ∈ m', x ∈ m ∨ (a ≤ x.1 ∧ x.1 < a + n)) : ∀ x ∈ m', inFlash c x.1 1 = true := by
  intro x hx
  rcases h x hx with hx | hx
  · exact hm x hx
  · obtain ⟨h1, h2⟩ := inFlash_iff.mp ha
    exact inFlash_iff.mpr (by omega)

theorem fctlComplete_arrayInside {s : State} (hw : s.cfg.wf = true) (hs : ArrayInside s)
    (hf : FlightInside s) : ArrayInside (fctlComplete s) := by
  obtain ⟨-, -, hc, -⟩ := wf_geometry hw
  obtain ⟨hprog, herase⟩ := hf
  cases hp : s.pend with
  | none => rwa [fctlComplete_of_none hp]
  | prog a v =>
    obtain ⟨m, d, e, -, hm, -⟩ := fctlComplete_spec s (by simp [hp])
    rw [e]
    refine inFlash_of_written hs (hprog a v hp) fun x hx => ?_
    rcases mem_writeHalf (hm a v hp ▸ hx) with h | h | h
    · exact .inr (by omega)
    · exact .inr (by omega)
    · exact .inl h
  | erase a =>
    obtain ⟨m, d, e, -, -, hm⟩ := fctlComplete_spec s (by simp [hp])
    rw [e]
    exact inFlash_of_written hs (herase a hp) (hc ▸ (hm a hp).2)

theorem resetEvent_arrayInside {s : State} (hw : s.cfg.wf = true) (hs : ArrayInside s)
    (hf : FlightInside s) : ArrayInside (resetEvent s) := by
  obtain ⟨-, -, hc, -⟩ := wf_geometry hw
  obtain ⟨hprog, herase⟩ := hf
  obtain ⟨m, d, d', p, e, -, -, hn, -, hm, hm'⟩ := resetEvent_spec s
  rw [e]
  cases hp : s.pend with
  | none => rw [hn hp]; exact hs
  | prog a v => exact inFlash_of_written hs (hprog a v hp) (hm a v hp).2
  | erase a => exact inFlash_of_written hs (herase a hp) (hc ▸ (hm' a hp).2)

/-! ### The clauses that depend on where SEQ stands -/

/-- The clauses of the invariant that depend on where SEQ stands. -/
structure Placed (s : State) : Prop where
  idle : s.run = false → IdleRegs s ∧ s.pos = .idle
  running : s.run = true → WaitsFor s ∧ s.crLock = false ∧ s.crcacc = s.cfg.crcInit
  index : s.idx ≤ pageCells s.cfg
  array : ArrayInside s
  buffer : BufferInside s

theorem Inv.placed {s : State} (v : Inv s) : Placed s :=
  ⟨v.idle, v.running, v.index, v.flashIn, v.pbufIn⟩

/-- A step keeps the invariant when it keeps those clauses: every action keeps the others. -/
theorem Inv.of_placed {s t : State} (v : Inv s) (h : step s = .next t) (p : Placed t) : Inv t where
  config := by rw [noStepChangesAParameter s t h]; exact v.config
  lock := step_keeps_lockAgrees h v.lock
  dead := step_keeps_deadIsSticky h v.dead
  busy := (step_keeps_flightAgrees h ⟨v.busy, v.start⟩).1
  start := (step_keeps_flightAgrees h ⟨v.busy, v.start⟩).2
  idle := p.idle
  running := p.running
  index := p.index
  flashWf := (step_keeps_memoriesWf h ⟨v.flashWf, v.pbufWf⟩).1
  flashIn := p.array
  pbufWf := (step_keeps_memoriesWf h ⟨v.flashWf, v.pbufWf⟩).2
  pbufIn := p.buffer

/-- The invariant says nothing of HOST's moves. -/
theorem Inv.with_host {s : State} (v : Inv s) (m : List HostMove) : Inv { s with host := m } :=
  { v with
    idle := fun hr =>
      have ⟨hidle, hpos⟩ := v.idle hr
      ⟨{ hidle with }, hpos⟩ }

/-- SEQ is between two waits of an operation: nothing is in flight, and the enable bits are `pg` and `per`. -/
structure Working (pg per : Bool) (s : State) : Prop where
  config : s.cfg.wf = true
  run : s.run = true
  bsy : s.srBsy = false
  pend : s.pend = .none
  strt : s.crStrt = false
  acc : s.crcacc = s.cfg.crcInit
  pg : s.crPg = pg
  per : s.crPer = per
  index : s.idx ≤ pageCells s.cfg
  array : ArrayInside s
  buffer : BufferInside s

/-- SEQ comes to the wait at `p`, unlocked and with exactly what it started there in flight. -/
structure Waiting (p : Pos) (s : State) : Prop where
  config : s.cfg.wf = true
  run : s.run = true
  bsy : s.srBsy = true
  strt : s.crStrt = true → ∃ a, s.pend = .erase a
  unlocked : s.crLock = false
  acc : s.crcacc = s.cfg.crcInit
  waits : WaitsFor { s with pos := p }
  index : s.idx ≤ pageCells s.cfg
  array : ArrayInside s
  buffer : BufferInside s

/-- An operation starts from the idle state (R40). -/
theorem Inv.working {s : State} (v : Inv s) (hr : s.run = false) (i : Instr) :
    Working false false (started i s) := by
  obtain ⟨hidle, -⟩ := v.idle hr
  exact ⟨v.config, rfl, hidle.bsy, hidle.pend, hidle.strt, hidle.acc, hidle.pg, hidle.per, v.index,
    v.flashIn, v.pbufIn⟩

theorem Inv.waiting {s : State} (v : Inv s) (hr : s.run = true) : Waiting s.pos s := by
  obtain ⟨hwaits, hl, hacc⟩ := v.running hr
  exact ⟨v.config, hr, v.busy.mpr hwaits.pend_ne_none, v.start.mp, hl, hacc, hwaits, v.index, v.flashIn,
    v.pbufIn⟩

section Steps

variable {pg per : Bool} {p : Pos} {s t : State}

/-- An operation that ends with the enable bits clear leaves the idle state (R40, R166). -/
theorem Working.placed_done (w : Working false false s) (v : Word) : Placed (doneOp v s) :=
  ⟨fun _ => ⟨⟨w.bsy, w.pend, w.pg, w.per, w.strt, w.acc⟩, rfl⟩, nofun, w.index, w.array, w.buffer⟩

theorem Working.placed_fail (w : Working false false s) (e : ErrCode) : Placed (failOp e s) :=
  ⟨fun _ => ⟨⟨w.bsy, w.pend, w.pg, w.per, w.strt, w.acc⟩, rfl⟩, nofun, w.index, w.array, w.buffer⟩

theorem Working.at_index (w : Working pg per s) {n : Nat} (hn : n ≤ pageCells s.cfg) :
    Working pg per { s with idx := n } :=
  { w with index := hn }

/-- Disabling programming clears its bit, which a locked controller never set (R25). -/
theorem Working.after_clrPg (w : Working (!s.crLock) false s) : Working false false (clrPg s) := by
  cases hl : s.crLock
  · rw [clrPg_of_open hl]
    exact { w with pg := rfl }
  · simpa [clrPg, hl] using w

theorem Working.after_clrPer (w : Working false (!s.crLock) s) : Working false false (clrPer s) := by
  cases hl : s.crLock
  · rw [clrPer_of_open hl]
    exact { w with per := rfl }
  · simpa [clrPer, hl] using w

theorem Working.flashWrite16_of_locked (w : Working (!s.crLock) false s) (hl : s.crLock = true) (a : Nat)
    (v : Half) : flashWrite16 a v s = .next s := by
  simp [flashWrite16, w.pg, hl]

/-- The state in which a program of the cell at `a` has started (R61). -/
def programStarted (a : Nat) (v : Half) (s : State) : State :=
  { s with pend := .prog a v, srBsy := true }

theorem Working.flashWrite16_of_open (w : Working (!s.crLock) false s) (hl : s.crLock = false) (a : Nat)
    (v : Half) : flashWrite16 a v s = .next (programStarted a v s) := by
  simp [flashWrite16, w.pg, w.bsy, hl, programStarted]

/-! ### The wait -/

/-- FCTL's completion step brings SEQ from its wait back to work. -/
theorem Waiting.complete (w : Waiting p s) : Working s.crPg s.crPer (fctlComplete (usePoll s)) where
  config := by simpa using w.config
  run := by simpa using w.run
  bsy := fctlComplete_srBsy (s := usePoll s) w.waits.pend_ne_none
  pend := fctlComplete_pend _
  strt := fctlComplete_crStrt (s := usePoll s) w.waits.pend_ne_none w.strt
  acc := by simpa using w.acc
  pg := by simp
  per := by simp
  index := by simpa using w.index
  array := fctlComplete_arrayInside (s := usePoll s) w.config w.array
    (w.waits.flightInside (s := { s with pos := p }) w.config)
  buffer := by simpa [BufferInside] using w.buffer

/-- A poll that finds the flag set leaves SEQ where it waits (R70). -/
theorem Waiting.placed_poll (w : Waiting p s) : Placed { usePoll s with pos := p } :=
  ⟨fun hr => absurd (w.run.symm.trans hr) (by decide), fun _ => ⟨w.waits, w.unlocked, w.acc⟩, w.index, w.array,
    w.buffer⟩

/-- A wait stays, or the rest of the operation goes on after the completion step. -/
theorem Waiting.placed {rest : State → Host.Outcome State Fault Refusal} (w : Waiting p s)
    (hrest : rest (fctlComplete (usePoll s)) = .next t → Placed t)
    (h : waitNotBusy p rest s = .next t) : Placed t := by
  rcases waitNotBusy_cases h with ⟨hb, -⟩ | ⟨-, -, -, h⟩ | ⟨-, -, rfl⟩
  · simp [w.bsy] at hb
  · exact hrest h
  · exact w.placed_poll

/-! ### `WRHW` -/

theorem wrhwVerify_placed (w : Working (!s.crLock) false s) (h : wrhwVerify s = .next t) : Placed t := by
  have wc := w.after_clrPg
  simp only [wrhwVerify, flashRead16_of_ready wc.bsy] at h
  cases h
  split
  · exact wc.placed_done _
  · exact wc.placed_fail _

/-- The rest of `WRHW` from its wait. -/
theorem Waiting.wrhw (w : Waiting .wrhwProgram s)
    (h : waitNotBusy .wrhwProgram wrhwVerify s = .next t) : Placed t := by
  obtain ⟨-, -, hg, he, -⟩ := w.waits
  refine w.placed (wrhwVerify_placed ?_) h
  have wc := w.complete
  rw [show s.crPg = true from hg, show s.crPer = false from he] at wc
  simpa [w.unlocked] using wc

/-- Locked, `WRHW` only compares; unlocked, it starts a program and waits (R111, R105). -/
theorem wrhwWrite_placed (w : Working false false s) (ha : CellOperand s) (ho : s.opc = 0x6#4)
    (h : wrhwWrite s = .next t) : Placed t := by
  unfold wrhwWrite at h
  cases hl : s.crLock
  · have wg : Working (!s.crLock) false { s with crPg := true } := { w with pg := by simp [hl] }
    rw [setPg_of_open hl w.per, andThen_next,
      Working.flashWrite16_of_open (s := { s with crPg := true }) wg hl, andThen_next] at h
    refine Waiting.wrhw ?_ h
    exact { w with
      bsy := rfl, strt := fun hs => absurd (w.strt.symm.trans hs) (by decide), unlocked := hl
      waits := ⟨ha, rfl, rfl, w.per, ho⟩ }
  · have wl : Working (!s.crLock) false s := by simpa [hl] using w
    rw [setPg_of_locked hl, andThen_next, wl.flashWrite16_of_locked hl, andThen_next,
      waitNotBusy_of_ready w.bsy] at h
    exact wrhwVerify_placed wl h

/-! ### The erase of `ERPG` and `WRPG` -/

/-- What comes after a verified erase keeps the clauses, in an operation on a page with the opcode `o`. -/
def PlacedAfterErase (o : BitVec 4) (rest : State → Host.Outcome State Fault Refusal) : Prop :=
  ∀ s t, Working false false s → PageOperand s → s.opc = o → rest s = .next t → Placed t

theorem erpgEnd_placed : PlacedAfterErase 0x7#4 erpgEnd := by
  intro s t w _ _ h
  cases h
  exact w.placed_done _

section Erase

variable {o : BitVec 4} {rest : State → Host.Outcome State Fault Refusal}

theorem eraseVerify_placed (w : Working false (!s.crLock) s) (ha : PageOperand s) (ho : s.opc = o)
    (hrest : PlacedAfterErase o rest) (h : eraseVerify rest s = .next t) : Placed t := by
  have wc := w.after_clrPer
  have hcells := eraseVerify_of_cells rest w.bsy _ fun _ _ => rfl
  rw [hcells] at h
  split at h
  · refine hrest _ t (wc.at_index (by simp)) ?_ (by simpa using ho) h
    simpa [PageOperand] using ha
  · cases h
    refine (wc.at_index ?_).placed_fail _
    simpa using (firstBad_spec _ _).1

/-- The rest of the operation from the wait for its erase, at either of the two positions. -/
theorem Waiting.erase (w : Waiting p s)
    (hp : p = .erpgErase ∧ o = 0x7#4 ∨ p = .wrpgErase ∧ o = 0x9#4) (hrest : PlacedAfterErase o rest)
    (h : waitNotBusy p (eraseVerify rest) s = .next t) : Placed t := by
  obtain ⟨ha, hg, he, ho⟩ : PageOperand s ∧ s.crPg = false ∧ s.crPer = true ∧ s.opc = o := by
    rcases hp with ⟨rfl, rfl⟩ | ⟨rfl, rfl⟩
    · obtain ⟨ha, -, -, hg, he, ho⟩ := w.waits
      exact ⟨ha, hg, he, ho⟩
    · obtain ⟨ha, -, -, hg, he, ho⟩ := w.waits
      exact ⟨ha, hg, he, ho⟩
  have wc := w.complete
  rw [hg, he] at wc
  refine w.placed (eraseVerify_placed (o := o) ?_ ?_ ?_ hrest) h
  · simpa [w.unlocked] using wc
  · simpa [PageOperand] using ha
  · simpa using ho

/-- Locked, the erase only verifies the page; unlocked, it starts and waits (R121, R105). -/
theorem eraseStart_placed (w : Working false false s) (ha : PageOperand s) (ho : s.opc = o)
    (hp : p = .erpgErase ∧ o = 0x7#4 ∨ p = .wrpgErase ∧ o = 0x9#4) (hrest : PlacedAfterErase o rest)
    (h : eraseStart p rest s = .next t) : Placed t := by
  cases hl : s.crLock
  · rw [eraseStart_of_open p rest w.bsy hl w.pg (inFlash_pageOperand w.config ha)] at h
    refine Waiting.erase ?_ hp hrest h
    exact { w with
      bsy := rfl, strt := fun _ => ⟨_, rfl⟩, unlocked := hl
      waits := by
        rcases hp with ⟨rfl, rfl⟩ | ⟨rfl, rfl⟩
        · exact ⟨ha, rfl, rfl, w.pg, rfl, ho⟩
        · exact ⟨ha, rfl, rfl, w.pg, rfl, ho⟩ }
  · rw [eraseStart_of_locked p rest w.bsy hl] at h
    refine eraseVerify_placed (s := { s with ar := s.a }) ?_ ha ho hrest h
    simpa [hl] using { w with }

end Erase

/-! ### The loop of `WRPG` -/

theorem wrpgVerify_placed {rest : State → Host.Outcome State Fault Refusal}
    (w : Working (!s.crLock) false s) (hrest : rest (nextIdx s) = .next t → Placed t)
    (h : wrpgVerify rest s = .next t) : Placed t := by
  simp only [wrpgVerify, flashRead16_of_ready w.bsy] at h
  split at h
  · exact hrest h
  · cases h
    exact w.after_clrPg.placed_fail _

/-- The rest of `WRPG` from the wait for cell `IDX`, where what follows the verification of that cell keeps the
clauses. -/
theorem Waiting.wrpgCell {rest : State → Host.Outcome State Fault Refusal} (w : Waiting .wrpgCell s)
    (hrest : ∀ u, Working (!u.crLock) false (nextIdx u) → PageOperand u → u.opc = 0x9#4 → u.idx = s.idx →
      u.cfg = s.cfg → rest (nextIdx u) = .next t → Placed t)
    (h : waitNotBusy .wrpgCell (wrpgVerify rest) s = .next t) : Placed t := by
  obtain ⟨ha, hi, -, hg, he, ho⟩ := w.waits
  have wc := w.complete
  rw [show s.crPg = true from hg, show s.crPer = false from he] at wc
  have wv : Working (!(fctlComplete (usePoll s)).crLock) false (fctlComplete (usePoll s)) := by
    simpa [w.unlocked] using wc
  refine w.placed (wrpgVerify_placed wv (hrest _ ?_ ?_ ?_ ?_ ?_)) h
  · exact wv.at_index (by simpa using hi)
  · simpa [PageOperand] using ha
  · simpa using ho
  · simp
  · simp

/-- Locked, the loop only compares; unlocked, it starts a program for each cell and waits (R123, R105). -/
theorem wrpgCells_placed (n : Nat) (w : Working (!s.crLock) false s) (ha : PageOperand s)
    (ho : s.opc = 0x9#4) (hn : s.idx + n = pageCells s.cfg) (h : wrpgCells n s = .next t) : Placed t := by
  induction n generalizing s with
  | zero =>
    cases h
    exact w.after_clrPg.placed_done _
  | succ n ih =>
    unfold wrpgCells at h
    cases hl : s.crLock
    · rw [w.flashWrite16_of_open hl, andThen_next] at h
      refine Waiting.wrpgCell ?_ (fun u wu hau hou hiu hcu => ih wu hau hou ?_) h
      · exact { w with
          bsy := rfl, strt := fun hs => absurd (w.strt.symm.trans hs) (by decide), unlocked := hl
          waits := ⟨ha, show s.idx < pageCells s.cfg by omega, rfl, show s.crPg = true by simp [w.pg, hl],
            w.per, ho⟩ }
      · simp [hiu, hcu, programStarted]; omega
    · rw [w.flashWrite16_of_locked hl, andThen_next, waitNotBusy_of_ready w.bsy] at h
      refine wrpgVerify_placed w (fun h => ih (s := nextIdx s) (w.at_index (by omega)) ha ho ?_ h) h
      simp; omega

theorem wrpgLoop_placed (w : Working (!s.crLock) false s) (ha : PageOperand s) (ho : s.opc = 0x9#4)
    (h : wrpgLoop s = .next t) : Placed t :=
  wrpgCells_placed (s := startIdx s) _ (w.at_index (Nat.zero_le _)) ha ho (Nat.zero_add _) h

theorem wrpgEnable_placed : PlacedAfterErase 0x9#4 wrpgEnable := by
  intro s t w ha ho h
  unfold wrpgEnable at h
  cases hl : s.crLock
  · rw [setPg_of_open hl w.per, andThen_next, waitNotBusy_of_ready (s := { s with crPg := true }) w.bsy] at h
    refine wrpgLoop_placed (s := { s with crPg := true }) ?_ ha ho h
    exact { w with pg := by simp [hl] }
  · rw [setPg_of_locked hl, andThen_next, waitNotBusy_of_ready w.bsy] at h
    exact wrpgLoop_placed (by simpa [hl] using w) ha ho h

/-! ### The operations that never wait -/

theorem endUnlock_placed (w : Working false false s) : Placed (endUnlock s) := by
  unfold endUnlock
  split
  · exact w.placed_fail _
  · exact w.placed_done _

theorem Working.after_keyWrite (w : Working pg per s) (v : Word) : Working pg per (keyWrite v s) := by
  rcases keyWrite_cases v s with ⟨-, e⟩ | ⟨-, e⟩ | ⟨-, e⟩ | ⟨-, e⟩ <;> rw [e]
  · exact { w with }
  · exact { w with }
  · exact { w with }
  · exact w

/-- The copy of `RDPG` stays inside the buffer (R122, R38). -/
theorem rdpgCells_working (n : Nat) (w : Working pg per s) (hn : s.idx + n = pageCells s.cfg) :
    Working pg per (rdpgCells n s) := by
  induction n generalizing s with
  | zero => exact w
  | succ n ih =>
    obtain ⟨-, -, hc, -⟩ := wf_geometry w.config
    simp only [rdpgCells, flashRead16_of_ready w.bsy]
    refine ih ?_ (by simp; omega)
    refine { w with index := by simp; omega, buffer := fun x hx => ?_ }
    simp only [nextIdx_cfg, nextIdx_pbuf] at hx ⊢
    rcases mem_writeHalf hx with h | h | h
    · omega
    · omega
    · exact w.buffer x h

/-- `PGCRC` leaves the accumulator as a reset of it does (R141, R40). -/
theorem endPgcrc_placed (w : Working false false s) :
    Placed (endPgcrc (crcWords (pageWords s.cfg) (startIdx (crcReset s)))) := by
  obtain ⟨-, -, hc, hq, -⟩ := wf_geometry w.config
  rw [crcWords_spec (s := startIdx (crcReset s)) w.bsy]
  refine Working.placed_done ?_ _
  exact { w with acc := rfl, index := by simp [startIdx]; omega }

/-! ### Every operation and every step -/

theorem wordOp_placed {a : Word} {body : State → Host.Outcome State Fault Refusal}
    (w : Working false false s) (hbody : halfAligned a = true → inFlash s.cfg a.toNat 2 = true →
      body s = .next t → Placed t) (h : wordOp a body s = .next t) : Placed t := by
  rcases wordOp_cases a body s with ⟨-, e⟩ | ⟨-, -, e⟩ | ⟨h1, h2, e⟩ <;> rw [e] at h
  · cases h
    exact w.placed_fail _
  · cases h
  · exact hbody h1 h2 h

theorem pageOp_placed {a : Word} {body : State → Host.Outcome State Fault Refusal}
    (w : Working false false s) (hbody : pageAligned s.cfg a = true →
      inFlash s.cfg a.toNat s.cfg.pageSize = true → body s = .next t → Placed t)
    (h : pageOp a body s = .next t) : Placed t := by
  rcases pageOp_cases a body s with ⟨-, e⟩ | ⟨-, -, e⟩ | ⟨h1, h2, e⟩ <;> rw [e] at h
  · cases h
    exact w.placed_fail _
  · cases h
  · exact hbody h1 h2 h

theorem exec_placed (v : Inv s) {i : Instr} (h : exec i s = .next t) : Placed t := by
  have hacc : Accepting s := (exec_trace h).1
  have w := v.working hacc.2 i
  cases i with
  | init =>
    rw [exec_init hacc] at h
    cases h
    have wc : Working false false { started .init s with crcen := true } := { w with }
    exact endUnlock_placed ((wc.after_keyWrite _).after_keyWrite _)
  | islocked =>
    rw [exec_islocked hacc] at h
    cases h
    exact w.placed_done _
  | unlock =>
    rw [exec_unlock hacc] at h
    cases h
    exact endUnlock_placed ((w.after_keyWrite _).after_keyWrite _)
  | lock =>
    rw [exec_lock hacc] at h
    cases h
    have wl : Working false false (setLock (started .lock s)) := { w with }
    exact wl.placed_done _
  | rdhw a =>
    rw [exec_rdhw hacc] at h
    refine wordOp_placed w (fun _ _ h => ?_) h
    rw [flashRead16_of_ready w.bsy] at h
    cases h
    exact w.placed_done _
  | wrhw a d =>
    rw [exec_wrhw hacc] at h
    refine wordOp_placed w (fun h1 h2 h => ?_) h
    rw [waitNotBusy_of_ready w.bsy] at h
    exact wrhwWrite_placed w ⟨h1, h2⟩ rfl h
  | erpg a =>
    rw [exec_erpg hacc] at h
    refine pageOp_placed w (fun h1 h2 h => ?_) h
    rw [waitNotBusy_of_ready w.bsy] at h
    exact eraseStart_placed w ⟨h1, h2⟩ rfl (.inl ⟨rfl, rfl⟩) erpgEnd_placed h
  | rdpg a =>
    rw [exec_rdpg hacc] at h
    refine pageOp_placed w (fun _ _ h => ?_) h
    cases h
    exact (rdpgCells_working _ (w.at_index (Nat.zero_le _)) (Nat.zero_add _)).placed_done _
  | wrpg a =>
    rw [exec_wrpg hacc] at h
    refine pageOp_placed w (fun h1 h2 h => ?_) h
    rw [waitNotBusy_of_ready w.bsy] at h
    exact eraseStart_placed w ⟨h1, h2⟩ rfl (.inr ⟨rfl, rfl⟩) wrpgEnable_placed h
  | pgcrc a =>
    rw [exec_pgcrc hacc] at h
    refine pageOp_placed w (fun _ _ h => ?_) h
    split at h
    · cases h
    · cases h
      exact endPgcrc_placed w
  | refl x =>
    rw [exec_refl hacc] at h
    cases h
    exact w.placed_done _

theorem illegalCommand_placed (v : Inv s) {c : Packet} (h : illegalCommand c s = .next t) : Placed t := by
  obtain ⟨ha, h⟩ := accepting_of_next h
  cases h
  have w : Working false false { s with run := true, opc := cmdOpc c, a := cmdA c, h := cmdH c } :=
    { v.working ha.2 .islocked with }
  exact w.placed_fail _

/-- An operation that waits stands at one of four positions (R42). -/
theorem resumeAt_placed (v : Inv s) (hr : s.run = true) (h : resumeAt s.pos s = .next t) : Placed t := by
  have w := v.waiting hr
  have hwaits := w.waits
  cases hp : s.pos <;> rw [hp] at h w hwaits
  case wrhwProgram => exact w.wrhw h
  case erpgErase => exact w.erase (.inl ⟨rfl, rfl⟩) erpgEnd_placed h
  case wrpgErase => exact w.erase (.inr ⟨rfl, rfl⟩) wrpgEnable_placed h
  case wrpgCell =>
    obtain ⟨-, hi, -⟩ : PageOperand s ∧ s.idx < pageCells s.cfg ∧ _ := hwaits
    refine w.wrpgCell (fun u wu ha ho hiu hcu => wrpgCells_placed _ wu ha ho ?_) h
    simp [hiu, hcu, cellsLeft]; omega
  all_goals exact hwaits.elim

theorem advance_placed (v : Inv s) (h : advance s = .next t) : Placed t := by
  rcases advance_cases h with ⟨-, rfl⟩ | ⟨hr, -, h⟩
  · exact v.placed
  · exact resumeAt_placed v hr h

theorem hostPbufWrite_placed (v : Inv s) {j : Nat} {b : Byte} (h : hostPbufWrite j b s = .next t)
    (hr : s.run = false) : Placed t := by
  unfold hostPbufWrite at h
  split at h
  · rename_i hj
    cases h
    obtain ⟨hidle, hpos⟩ := v.idle hr
    refine ⟨fun _ => ⟨{ hidle with }, hpos⟩, fun h => absurd (hr.symm.trans h) (by decide), v.index,
      v.flashIn, fun x hx => ?_⟩
    rcases mem_writeByte hx with h | h
    · rwa [h]
    · exact v.pbufIn x h
  · cases h

/-- The reset event leaves the idle state; what it draws is inside both memories and in the range of `IDX` (R43,
R181). -/
theorem resetEvent_placed (v : Inv s) : Placed (resetEvent s) := by
  have hf : FlightInside s := by
    cases hr : s.run
    · simp [FlightInside, (v.idle hr).1.pend]
    · exact (v.running hr).1.flightInside v.config
  have harray := resetEvent_arrayInside v.config v.flashIn hf
  obtain ⟨m, d, d', p, e, -, -, -, hp, -⟩ := resetEvent_spec s
  rw [e] at harray ⊢
  refine ⟨fun _ => ⟨⟨rfl, rfl, rfl, rfl, rfl, rfl⟩, rfl⟩, nofun, Nat.le_of_lt_succ (Nat.mod_lt _ (Nat.succ_pos _)),
    harray, fun x hx => ?_⟩
  exact (hp x hx).elim (v.pbufIn x) id

theorem step_placed (v : Inv s) (hstep : step s = .next t) : Placed t := by
  have vm : Inv (useMove s) := v.with_host _
  obtain ⟨-, h⟩ := step_cases hstep
  rcases h with ⟨c, rest, i, -, -, -, h⟩ | ⟨c, rest, e, -, -, -, h⟩ | ⟨u, hu, h⟩ |
    ⟨j, b, rest, hr, -, h⟩ | ⟨rest, -, rfl⟩
  · exact exec_placed vm h
  · exact illegalCommand_placed vm h
  · rcases hu with rfl | ⟨rfl, -⟩
    · exact advance_placed v h
    · exact advance_placed vm h
  · exact hostPbufWrite_placed vm h hr
  · exact resetEvent_placed vm

end Steps

/-- Settles O15: the clauses that depend on where SEQ stands by `step_placed`, the others action by action. -/
theorem everyStepKeepsTheInvariant : Obligations.EveryStepKeepsTheInvariant :=
  fun _ _ v h => v.of_placed h (step_placed v h)

/-- Settles O20: a step ends idle where it ends with `RUN = 0`, as the invariant says. -/
theorem idleBetweenOperations : Obligations.IdleBetweenOperations :=
  ⟨idleRegs_reset, fun s t v h hr => ((everyStepKeepsTheInvariant s t v h).idle hr).1⟩

end Sys2Proof.Machine
end

section
/-! Cells in the byte memory, and operands outside the array (20_memory.md R53, R58). -/

namespace Sys2Proof.Machine

/-- Settles O35: the laws of the byte memories. -/
theorem cellsAreLittleEndian : Obligations.CellsAreLittleEndian :=
  fun m a h => ⟨lowByte_halfOf _ _, highByte_halfOf _ _, readHalf_writeHalf_same m a h,
    fun _ hx => readByte_writeHalf_outside m h hx⟩

theorem wordOp_of_outside {s : State} {a : Word} (ha : halfAligned a = true)
    (hi : inFlash s.cfg a.toNat 2 = false) (body : State → Host.Outcome State Fault Refusal) :
    wordOp a body s = .refused .outOfRange := by
  simp [wordOp, ha, hi]

theorem pageOp_of_outside {s : State} {a : Word} (ha : pageAligned s.cfg a = true)
    (hi : inFlash s.cfg a.toNat s.cfg.pageSize = false)
    (body : State → Host.Outcome State Fault Refusal) : pageOp a body s = .refused .outOfRange := by
  simp [pageOp, ha, hi]

/-- Settles O34: after the alignment check comes the range check, before the body of the operation. -/
theorem outOfRangeOperandsAreRefused : Obligations.OutOfRangeOperandsAreRefused := by
  intro s a h hacc
  refine ⟨fun ha ho => ?_, fun ha ho => ?_⟩
  · have hal := halfAligned_iff.mpr ha
    have hout : inFlash s.cfg a.toNat 2 = false := Bool.eq_false_iff.mpr fun hi => ho (inFlash_iff.mp hi)
    rw [exec_rdhw hacc, exec_wrhw hacc]
    constructor <;> exact wordOp_of_outside (s := started _ s) hal hout _
  · have hal := pageAligned_iff.mpr ha
    have hout : inFlash s.cfg a.toNat s.cfg.pageSize = false :=
      Bool.eq_false_iff.mpr fun hi => ho (inFlash_iff.mp hi)
    rw [exec_erpg hacc, exec_rdpg hacc, exec_wrpg hacc, exec_pgcrc hacc]
    refine ⟨?_, ?_, ?_, ?_⟩ <;> exact pageOp_of_outside (s := started _ s) hal hout _

end Sys2Proof.Machine
end

section
/-! Progress (20_memory.md R58, R69, R70, 10_state.md R33, 60_exceptions.md R155). From a state of the invariant an
operation whose operands have passed their checks does not stop, and a step that leaves it waiting has used up a
poll that FCTL let pass; a fair FCTL lists finitely many of those. `EndsOrPolls` says both, and each part of an
operation is shown to fulfil it. -/

namespace Sys2Proof.Machine

/-- From `s` on, a part of an operation answers a next state in which the operation has ended, or, with a fair FCTL,
fewer polls are listed than in `s`. -/
def EndsOrPolls (s : State) (o : Host.Outcome State Fault Refusal) : Prop :=
  ∃ t, o = .next t ∧ (t.run = true → Fair t → t.moves.length < s.moves.length)

theorem EndsOrPolls.answers {s : State} {o : Host.Outcome State Fault Refusal} (h : EndsOrPolls s o) :
    ∃ t, o = .next t :=
  h.imp fun _ => And.left

theorem endsOrPolls_of_ended {s t : State} (h : t.run = false) : EndsOrPolls s (.next t) :=
  ⟨t, rfl, fun hr => absurd (h.symm.trans hr) (by decide)⟩

/-- What ends or polls from a later state, with no more polls listed, does so from the earlier. -/
theorem EndsOrPolls.of_later {s u : State} {o : Host.Outcome State Fault Refusal} (h : EndsOrPolls u o)
    (hm : u.moves.length ≤ s.moves.length) : EndsOrPolls s o := by
  obtain ⟨t, ho, ht⟩ := h
  exact ⟨t, ho, fun hr hf => Nat.lt_of_lt_of_le (ht hr hf) hm⟩

/-- A fair FCTL lets only a listed poll pass: this is where a waiting operation comes closer to its end (R69). -/
theorem lt_length_of_not_pollReady {s : State} (hf : Fair s) {i : Nat} (h : pollReady s i = false) :
    i < s.moves.length := by
  rcases Nat.lt_or_ge i s.moves.length with hi | hi
  · exact hi
  · rw [pollReady, List.getD_eq_default _ _ hi, hf] at h
    cases h

section Parts

variable {p : Pos} {s : State} {rest : State → Host.Outcome State Fault Refusal}

/-- A wait for something in flight goes on with the rest of the operation, or its poll was listed (R70). -/
theorem waitNotBusy_endsOrPolls (hb : s.srBsy = true) (hp : s.pend ≠ .none)
    (hrest : EndsOrPolls (fctlComplete (usePoll s)) (rest (fctlComplete (usePoll s)))) :
    EndsOrPolls s (waitNotBusy p rest s) := by
  cases hr : fctlReady s
  · rw [waitNotBusy_of_not_ready hb hr]
    refine ⟨_, rfl, fun _ hf => ?_⟩
    have := lt_length_of_not_pollReady (s := s) hf ((fctlReady_eq_pollReady s).symm.trans hr)
    simp only [usePoll_moves, List.length_tail]
    omega
  · rw [waitNotBusy_of_complete hb hr hp]
    exact hrest.of_later (by simp)

/-! ### `WRHW` -/

theorem wrhwVerify_endsOrPolls (s : State) : EndsOrPolls s (wrhwVerify s) := by
  refine endsOrPolls_of_ended ?_
  split <;> rfl

theorem wrhwWrite_endsOrPolls (w : Working false false s) : EndsOrPolls s (wrhwWrite s) := by
  unfold wrhwWrite
  cases hl : s.crLock
  · have wg : Working (!s.crLock) false { s with crPg := true } := { w with pg := by simp [hl] }
    rw [setPg_of_open hl w.per, andThen_next,
      Working.flashWrite16_of_open (s := { s with crPg := true }) wg hl, andThen_next]
    exact waitNotBusy_endsOrPolls (s := programStarted _ _ _) rfl nofun (wrhwVerify_endsOrPolls _)
  · have wl : Working (!s.crLock) false s := by simpa [hl] using w
    rw [setPg_of_locked hl, andThen_next, wl.flashWrite16_of_locked hl, andThen_next,
      waitNotBusy_of_ready w.bsy]
    exact wrhwVerify_endsOrPolls s

/-! ### The erase of `ERPG` and `WRPG` -/

/-- What comes after a verified erase ends or polls. -/
def EndsOrPollsAfterErase (rest : State → Host.Outcome State Fault Refusal) : Prop :=
  ∀ s, Working false false s → EndsOrPolls s (rest s)

theorem erpgEnd_endsOrPolls : EndsOrPollsAfterErase erpgEnd :=
  fun _ _ => endsOrPolls_of_ended rfl

theorem eraseVerify_endsOrPolls (w : Working false (!s.crLock) s) (hrest : EndsOrPollsAfterErase rest) :
    EndsOrPolls s (eraseVerify rest s) := by
  have hcells := eraseVerify_of_cells rest w.bsy _ fun _ _ => rfl
  rw [hcells]
  split
  · exact (hrest _ (w.after_clrPer.at_index (by simp))).of_later (by simp)
  · exact endsOrPolls_of_ended rfl

theorem Waiting.erase_endsOrPolls (w : Waiting p s) (hg : s.crPg = false) (he : s.crPer = true)
    (hrest : EndsOrPollsAfterErase rest) : EndsOrPolls s (waitNotBusy p (eraseVerify rest) s) := by
  have wc := w.complete
  rw [hg, he] at wc
  exact waitNotBusy_endsOrPolls w.bsy w.waits.pend_ne_none
    (eraseVerify_endsOrPolls (by simpa [w.unlocked] using wc) hrest)

/-- An erase that has started waits for its page, in the operation whose opcode `OPC` is (R121, R62). -/
theorem Working.waiting_eraseStarted (w : Working false false s) (hl : s.crLock = false) (ha : PageOperand s)
    (hp : p = .erpgErase ∧ s.opc = 0x7#4 ∨ p = .wrpgErase ∧ s.opc = 0x9#4) :
    Waiting p (eraseStarted s) :=
  { w with
    bsy := rfl, strt := fun _ => ⟨_, rfl⟩, unlocked := hl
    waits := by
      rcases hp with ⟨rfl, ho⟩ | ⟨rfl, ho⟩
      · exact ⟨ha, rfl, rfl, w.pg, rfl, ho⟩
      · exact ⟨ha, rfl, rfl, w.pg, rfl, ho⟩ }

theorem eraseStart_endsOrPolls (w : Working false false s) (ha : PageOperand s)
    (hp : p = .erpgErase ∧ s.opc = 0x7#4 ∨ p = .wrpgErase ∧ s.opc = 0x9#4)
    (hrest : EndsOrPollsAfterErase rest) : EndsOrPolls s (eraseStart p rest s) := by
  cases hl : s.crLock
  · rw [eraseStart_of_open p rest w.bsy hl w.pg (inFlash_pageOperand w.config ha)]
    exact (w.waiting_eraseStarted hl ha hp).erase_endsOrPolls w.pg rfl hrest
  · rw [eraseStart_of_locked p rest w.bsy hl]
    exact eraseVerify_endsOrPolls (s := { s with ar := s.a }) (by simpa [hl] using { w with }) hrest

/-! ### The loop of `WRPG` -/

theorem wrpgVerify_endsOrPolls (hb : s.srBsy = false) (hrest : EndsOrPolls (nextIdx s) (rest (nextIdx s))) :
    EndsOrPolls s (wrpgVerify rest s) := by
  simp only [wrpgVerify, flashRead16_of_ready hb]
  split
  · exact hrest
  · exact endsOrPolls_of_ended rfl

/-- With programming enabled the loop waits only at a cell whose poll FCTL lets pass (R123, R70). -/
theorem wrpgCells_endsOrPolls_of_enabled (n : Nat) (hb : s.srBsy = false) (hn : s.pend = .none)
    (hl : s.crLock = false) (hg : s.crPg = true) : EndsOrPolls s (wrpgCells n s) := by
  obtain ⟨m, -, -, h⟩ := wrpgCells_spec n hb hn hl hg
  rw [h]
  split
  · rename_i hw
    obtain ⟨-, hlt⟩ := hw
    obtain ⟨-, -, hbad⟩ := firstBad_spec (fun i => !pollReady s i) n
    refine ⟨_, rfl, fun _ hf => ?_⟩
    have := lt_length_of_not_pollReady (s := s) hf (by simpa using hbad hlt)
    simp only [List.length_drop]
    omega
  · refine endsOrPolls_of_ended ?_
    split <;> rfl

/-- With programming not enabled nothing is written, so the loop never waits (R61, R123). -/
theorem wrpgCells_endsOrPolls_of_disabled (n : Nat) (hb : s.srBsy = false) (hg : s.crPg = false) :
    EndsOrPolls s (wrpgCells n s) := by
  induction n generalizing s with
  | zero => exact endsOrPolls_of_ended rfl
  | succ n ih =>
    have hw : flashWrite16 (cellAddr s) (pbufCell s) s = .next s := by simp [flashWrite16, hg]
    rw [wrpgCells, hw, andThen_next, waitNotBusy_of_ready hb]
    exact wrpgVerify_endsOrPolls hb (ih (s := nextIdx s) hb hg)

theorem wrpgEnable_endsOrPolls : EndsOrPollsAfterErase wrpgEnable := by
  intro s w
  unfold wrpgEnable
  cases hl : s.crLock
  · rw [setPg_of_open hl w.per, andThen_next, waitNotBusy_of_ready (s := { s with crPg := true }) w.bsy]
    exact wrpgCells_endsOrPolls_of_enabled (s := startIdx { s with crPg := true }) _ w.bsy w.pend hl rfl
  · rw [setPg_of_locked hl, andThen_next, waitNotBusy_of_ready w.bsy]
    exact wrpgCells_endsOrPolls_of_disabled (s := startIdx s) _ w.bsy w.pg

theorem Waiting.wrpgCell_endsOrPolls (w : Waiting .wrpgCell s) (n : Nat) :
    EndsOrPolls s (waitNotBusy .wrpgCell (wrpgVerify (wrpgCells n)) s) := by
  obtain ⟨-, -, -, hg, -⟩ := w.waits
  have wc := w.complete
  refine waitNotBusy_endsOrPolls w.bsy w.waits.pend_ne_none (wrpgVerify_endsOrPolls wc.bsy ?_)
  exact wrpgCells_endsOrPolls_of_enabled n wc.bsy wc.pend (by simpa using w.unlocked) (wc.pg.trans hg)

/-! ### A running operation -/

/-- An operation that waits stands at one of four positions (R42). -/
theorem resumeAt_endsOrPolls (v : Inv s) (hr : s.run = true) : EndsOrPolls s (resumeAt s.pos s) := by
  have w := v.waiting hr
  have hwaits := w.waits
  cases hp : s.pos <;> rw [hp] at w hwaits
  case wrhwProgram => exact waitNotBusy_endsOrPolls w.bsy w.waits.pend_ne_none (wrhwVerify_endsOrPolls _)
  case erpgErase =>
    obtain ⟨-, -, -, hg, he, -⟩ := hwaits
    exact w.erase_endsOrPolls hg he erpgEnd_endsOrPolls
  case wrpgErase =>
    obtain ⟨-, -, -, hg, he, -⟩ := hwaits
    exact w.erase_endsOrPolls hg he wrpgEnable_endsOrPolls
  case wrpgCell => exact w.wrpgCell_endsOrPolls _
  all_goals exact hwaits.elim

theorem step_endsOrPolls_of_running (v : Inv s) (hr : s.run = true) (hh : s.host.head? ≠ some .reset) :
    EndsOrPolls s (step s) := by
  rw [step_of_waiting v hr rfl hh]
  exact resumeAt_endsOrPolls (s := { s with host := hostAfter s }) (v.with_host _) hr

/-! ### The start of an operation -/

/-- The operation `i` answers a next state, or it is refused as R58 or R33 says. -/
def AnswersOrRefuses (i : Instr) (s : State) (o : Host.Outcome State Fault Refusal) : Prop :=
  (∃ t, o = .next t) ∨
  (o = .refused .outOfRange ∧ inFlash s.cfg i.operandA.toNat (bytesAddressed s.cfg i) = false) ∨
  (o = .refused .crcClockOff ∧ s.crcen = false ∧ ∃ a, i = .pgcrc a)

theorem EndsOrPolls.answersOrRefuses {o : Host.Outcome State Fault Refusal} (h : EndsOrPolls s o) (i : Instr) :
    AnswersOrRefuses i s o :=
  .inl h.answers

theorem wordOp_answersOrRefuses {i : Instr} (hn : bytesAddressed s.cfg i = 2)
    (hbody : AnswersOrRefuses i s (rest s)) : AnswersOrRefuses i s (wordOp i.operandA rest s) := by
  rcases wordOp_cases i.operandA rest s with ⟨-, e⟩ | ⟨-, hi, e⟩ | ⟨-, -, e⟩ <;> rw [e]
  · exact .inl ⟨_, rfl⟩
  · exact .inr (.inl ⟨rfl, hn ▸ hi⟩)
  · exact hbody

theorem pageOp_answersOrRefuses {i : Instr} (hn : bytesAddressed s.cfg i = s.cfg.pageSize)
    (hbody : pageAligned s.cfg i.operandA = true → inFlash s.cfg i.operandA.toNat s.cfg.pageSize = true →
      AnswersOrRefuses i s (rest s)) : AnswersOrRefuses i s (pageOp i.operandA rest s) := by
  rcases pageOp_cases i.operandA rest s with ⟨-, e⟩ | ⟨-, hi, e⟩ | ⟨ha, hi, e⟩ <;> rw [e]
  · exact .inl ⟨_, rfl⟩
  · exact .inr (.inl ⟨rfl, hn ▸ hi⟩)
  · exact hbody ha hi

theorem exec_answersOrRefuses (v : Inv s) (hr : s.run = false) (i : Instr) :
    AnswersOrRefuses i s (exec i s) := by
  have hacc : Accepting s := ⟨v.config, hr⟩
  have w := v.working hr i
  cases i with
  | init => exact .inl ⟨_, exec_init hacc⟩
  | islocked => exact .inl ⟨_, exec_islocked hacc⟩
  | unlock => exact .inl ⟨_, exec_unlock hacc⟩
  | lock => exact .inl ⟨_, exec_lock hacc⟩
  | rdhw a =>
    rw [exec_rdhw hacc]
    exact wordOp_answersOrRefuses (i := .rdhw a) (s := started (.rdhw a) s) rfl (.inl ⟨_, rfl⟩)
  | wrhw a d =>
    rw [exec_wrhw hacc]
    refine wordOp_answersOrRefuses (i := .wrhw a d) (s := started (.wrhw a d) s) rfl ?_
    rw [waitNotBusy_of_ready w.bsy]
    exact (wrhwWrite_endsOrPolls w).answersOrRefuses _
  | erpg a =>
    rw [exec_erpg hacc]
    refine pageOp_answersOrRefuses (i := .erpg a) (s := started (.erpg a) s) rfl fun ha hi => ?_
    rw [waitNotBusy_of_ready w.bsy]
    exact (eraseStart_endsOrPolls w ⟨ha, hi⟩ (.inl ⟨rfl, rfl⟩) erpgEnd_endsOrPolls).answersOrRefuses _
  | rdpg a =>
    rw [exec_rdpg hacc]
    exact pageOp_answersOrRefuses (i := .rdpg a) (s := started (.rdpg a) s) rfl fun _ _ => .inl ⟨_, rfl⟩
  | wrpg a =>
    rw [exec_wrpg hacc]
    refine pageOp_answersOrRefuses (i := .wrpg a) (s := started (.wrpg a) s) rfl fun ha hi => ?_
    rw [waitNotBusy_of_ready w.bsy]
    exact (eraseStart_endsOrPolls w ⟨ha, hi⟩ (.inr ⟨rfl, rfl⟩) wrpgEnable_endsOrPolls).answersOrRefuses _
  | pgcrc a =>
    rw [exec_pgcrc hacc]
    refine pageOp_answersOrRefuses (i := .pgcrc a) (s := started (.pgcrc a) s) rfl fun _ _ => ?_
    split
    · rename_i hc
      exact .inr (.inr ⟨rfl, by simpa using hc, a, rfl⟩)
    · exact .inl ⟨_, rfl⟩
  | refl x => exact .inl ⟨_, exec_refl hacc x⟩

/-! ### Every step -/

theorem portCommand_of_command {c : Packet} {m : List HostMove} (ha : Accepting s)
    (hh : s.host = .command c :: m) : portCommand s = some c := by
  simp [portCommand, ha.1, ha.2, hh]

/-- An accepting block executes the operation that HOST's command decodes to (R93, R94). -/
theorem step_of_decoded {c : Packet} {m : List HostMove} {i : Instr} (ha : Accepting s)
    (hh : s.host = .command c :: m) (hd : decode c = .ok i) : step s = exec i (useMove s) := by
  simp only [step, portCommand_of_command ha hh, hd]

/-- A command that decodes to none ends at once (R85). -/
theorem step_of_illegal {c : Packet} {m : List HostMove} {e : Illegal} (ha : Accepting s)
    (hh : s.host = .command c :: m) (hd : decode c = .error e) :
    step s = .next (failOp .illegalCmd
      { useMove s with run := true, opc := cmdOpc c, a := cmdA c, h := cmdH c }) := by
  simp only [step, portCommand_of_command ha hh, hd]
  exact accept_of_accepting (s := useMove s) ha _ _ _ _

/-- A block to which HOST presents nothing, or a move that does nothing, has a next state (R180). -/
theorem step_answers_of_idle (ha : Accepting s) (hh : s.host = [] ∨ ∃ m, s.host = .idle :: m) :
    ∃ t, step s = .next t := by
  have hc : portCommand s = none := portCommand_of_head (by rcases hh with hh | ⟨m, hh⟩ <;> simp [hh])
  rw [step, hc]
  rcases hh with hh | ⟨m, hh⟩
  · exact ⟨s, by simp [stepWithoutCommand, advance, ha.1, ha.2, hh]⟩
  · exact ⟨useMove s, by simp [stepWithoutCommand, advance, ha.1, ha.2, hh]⟩

end Parts

/-- Settles O21: a running operation never stops (`step_endsOrPolls_of_running`), nor does the reset; an idle block
does what HOST's next move asks for, and only a write outside the buffer and the commands of
`exec_answersOrRefuses` stop it. -/
theorem stepsStopOnlyWhereTheSpecRefuses : Obligations.StepsStopOnlyWhereTheSpecRefuses := by
  intro s v
  cases hr : s.run
  case true =>
    refine .inl ?_
    by_cases hh : s.host.head? = some .reset
    · obtain ⟨m, hm⟩ := List.head?_eq_some_iff.mp hh
      exact ⟨_, step_of_reset v.config hm⟩
    · exact (step_endsOrPolls_of_running v hr hh).answers
  case false =>
    have ha : Accepting s := ⟨v.config, hr⟩
    rcases hh : s.host with _ | ⟨c | ⟨j, b⟩ | _ | _, m⟩
    · exact .inl (step_answers_of_idle ha (.inl hh))
    · cases hd : decode c with
      | error e => exact .inl ⟨_, step_of_illegal ha hh hd⟩
      | ok i =>
        rw [step_of_decoded ha hh hd]
        rcases exec_answersOrRefuses (s := useMove s) (v.with_host _) hr i with h | h | h
        · exact .inl h
        · exact .inr (.inr ⟨c, m, i, rfl, hd, .inl h⟩)
        · exact .inr (.inr ⟨c, m, i, rfl, hd, .inr h⟩)
    · have hs := step_of_pbufWrite ha hh
      by_cases hj : j < s.cfg.pageSize
      · exact .inl ⟨_, hs.trans (if_pos hj)⟩
      · exact .inr (.inl ⟨j, b, m, rfl, Nat.le_of_not_lt hj, hs.trans (if_neg hj)⟩)
    · exact .inl (step_answers_of_idle ha (.inr ⟨m, hh⟩))
    · exact .inl ⟨_, step_of_reset v.config hh⟩

/-! ### A fair FCTL -/

theorem run_succ_of_next {s t : State} (h : step s = .next t) (k : Nat) :
    Host.Core.run core (k + 1) s = Host.Core.run core k t := by
  simp only [Host.Core.run, show core.step s = .next t from h]

/-- By induction on the number of polls still listed: each step of a waiting operation ends it or uses one up. -/
theorem ends_within {n : Nat} {s : State} (v : Inv s) (hr : s.run = true) (hh : s.host = []) (hf : Fair s)
    (hn : s.moves.length < n) : ∃ k t, k ≤ n ∧ Host.Core.run core k s = .next t ∧ t.run = false := by
  induction n generalizing s with
  | zero => exact absurd hn (Nat.not_lt_zero _)
  | succ n ih =>
    have hreset : s.host.head? ≠ some .reset := by simp [hh]
    obtain ⟨t, h, hpoll⟩ := step_endsOrPolls_of_running v hr hreset
    have hrun := run_succ_of_next h
    obtain ⟨-, -, -, hhost, hrest, -⟩ := (goesOn_trace ⟨hr, hreset, h⟩).keeps_latches
    cases htr : t.run
    · exact ⟨1, t, by omega, hrun 0, htr⟩
    · have hft : Fair t := hrest.trans hf
      have hlt := hpoll htr hft
      obtain ⟨k, u, hk, hu, hur⟩ := ih (everyStepKeepsTheInvariant s t v h) htr
        (hhost.trans (by simp [hostAfter, hh])) hft (by omega)
      exact ⟨k + 1, u, by omega, (hrun k).trans hu, hur⟩

/-- Settles O22: the bound of `ends_within` is one more than the polls listed. -/
theorem fairOperationEnds : Obligations.FairOperationEnds :=
  fun s v hr hh hf => ends_within v hr hh hf (Nat.lt_succ_self s.moves.length)

end Sys2Proof.Machine
end

section
/-! Decoding and encoding (30_encoding.md R80 to R84, R94): a word decodes to an operation exactly when its four
fields are the operation's, so decoding and encoding are inverse, and each row of the opcode map asks of the
fields what the decoder asks of them. -/

namespace Sys2Proof

/-! ### What the decoder accepts -/

/-- Where the encoding of every operation puts what (R80, R81). -/
theorem fields_of_encode (i : Instr) : Laws.WordLegal.Statement i := fields_of_append _ _ _ _

theorem encode_eq_of_fields {c : Packet} {i : Instr} (ho : cmdOpc c = i.opcode) (hr : cmdRsv c = 0#12)
    (hh : cmdH c = i.operandH) (ha : cmdA c = i.operandA) : encode i = c := by
  rw [encode, ← ho, ← hr, ← hh, ← ha, append_of_fields]

theorem decodeN_eq_ok_iff {c : Packet} {i j : Instr} :
    decodeN c i = .ok j ↔ cmdH c = 0#16 ∧ cmdA c = 0#32 ∧ i = j := by
  unfold decodeN
  split <;> simp_all

theorem decodeA_eq_ok_iff {c : Packet} {f : Word → Instr} {j : Instr} :
    decodeA c f = .ok j ↔ cmdH c = 0#16 ∧ f (cmdA c) = j := by
  unfold decodeA
  split <;> simp_all

/-- A word with the fields of an operation decodes to it. -/
theorem decode_of_fields {c : Packet} {i : Instr} (ho : cmdOpc c = i.opcode) (hr : cmdRsv c = 0#12)
    (hh : cmdH c = i.operandH) (ha : cmdA c = i.operandA) : decode c = .ok i := by
  unfold decode
  rw [if_neg (not_not_intro hr), ho]
  cases i with
  | init => exact decodeN_eq_ok_iff.mpr ⟨hh, ha, rfl⟩
  | islocked => exact decodeN_eq_ok_iff.mpr ⟨hh, ha, rfl⟩
  | unlock => exact decodeN_eq_ok_iff.mpr ⟨hh, ha, rfl⟩
  | lock => exact decodeN_eq_ok_iff.mpr ⟨hh, ha, rfl⟩
  | rdhw a => exact decodeA_eq_ok_iff.mpr ⟨hh, congrArg _ ha⟩
  | wrhw a h => exact congrArg₂ (fun a h => Except.ok (Instr.wrhw a h)) ha hh
  | erpg a => exact decodeA_eq_ok_iff.mpr ⟨hh, congrArg _ ha⟩
  | rdpg a => exact decodeA_eq_ok_iff.mpr ⟨hh, congrArg _ ha⟩
  | wrpg a => exact decodeA_eq_ok_iff.mpr ⟨hh, congrArg _ ha⟩
  | pgcrc a => exact decodeA_eq_ok_iff.mpr ⟨hh, congrArg _ ha⟩
  | refl v => exact decodeA_eq_ok_iff.mpr ⟨hh, congrArg _ ha⟩

/-- A word that decodes to an operation has its fields. -/
theorem fields_of_decode {c : Packet} {i : Instr} (h : decode c = .ok i) :
    cmdOpc c = i.opcode ∧ cmdRsv c = 0#12 ∧ cmdH c = i.operandH ∧ cmdA c = i.operandA := by
  unfold decode at h
  split at h
  · cases h
  · rename_i hr
    have hr := Decidable.not_not.mp hr
    have opcode {n : Nat} (hn : (cmdOpc c).toNat = n) : cmdOpc c = BitVec.ofNat 4 n := by
      rw [← hn, BitVec.ofNat_toNat, BitVec.setWidth_eq]
    split at h
    case h_6 ho =>
      cases h
      exact ⟨opcode ho, hr, rfl, rfl⟩
    case h_12 => cases h
    case h_1 | h_2 | h_3 | h_4 =>
      obtain ⟨hh, ha, rfl⟩ := decodeN_eq_ok_iff.mp h
      exact ⟨opcode ‹_›, hr, hh, ha⟩
    all_goals
      obtain ⟨hh, rfl⟩ := decodeA_eq_ok_iff.mp h
      exact ⟨opcode ‹_›, hr, hh, rfl⟩

/-- Settles O3: decoding an operation's word reads the operation's fields back, and a word is put together from
its fields. -/
theorem decodeAndEncodeAreInverse : Obligations.DecodeAndEncodeAreInverse := by
  refine ⟨fun i => ?_, fun c i h => ?_⟩
  · obtain ⟨ho, hr, hh, ha⟩ := fields_of_encode i
    exact decode_of_fields ho hr hh ha
  · obtain ⟨ho, hr, hh, ha⟩ := fields_of_decode h
    exact encode_eq_of_fields ho hr hh ha

/-! ### The opcode map -/

/-- The bits of `H` that the row of an opcode fixes to zero: all of them, but for `WRHW` (R81). -/
def fixedH (o : BitVec 4) : Half := if o = 0x6#4 then 0#16 else 0xFFFF#16

/-- The bits of `A` that the row of an opcode fixes to zero: all of them in format `N`, else none (R81). -/
def fixedA (o : BitVec 4) : Word := if o ≤ 0x4#4 then 0xFFFFFFFF#32 else 0#32

/-- The row of an operation, put together from the four fields of its match and of its mask. -/
def Instr.row (i : Instr) : OpcodeRow :=
  ⟨i.mnemonic, i.opcode ++ 0#12 ++ 0#16 ++ 0#32, 0xF#4 ++ 0xFFF#12 ++ fixedH i.opcode ++ fixedA i.opcode⟩

/-- One operation of each kind, in the order of the opcode map. -/
def operationKinds : List Instr :=
  [.init, .islocked, .unlock, .lock, .rdhw 0#32, .wrhw 0#32 0#16, .erpg 0#32, .rdpg 0#32, .wrpg 0#32,
    .pgcrc 0#32, .refl 0#32]

theorem opcodeRows_eq_map_row : opcodeRows = operationKinds.map Instr.row := by decide

/-- Two words agree exactly when their four fields do. -/
theorem append_eq_append_iff {o o' : BitVec 4} {r r' : BitVec 12} {h h' : Half} {a a' : Word} :
    o ++ r ++ h ++ a = o' ++ r' ++ h' ++ a' ↔ o = o' ∧ r = r' ∧ h = h' ∧ a = a' := by
  constructor
  · intro e
    obtain ⟨h1, h2, h3, h4⟩ := fields_of_append o r h a
    obtain ⟨h1', h2', h3', h4'⟩ := fields_of_append o' r' h' a'
    rw [e] at h1 h2 h3 h4
    exact ⟨h1.symm.trans h1', h2.symm.trans h2', h3.symm.trans h3', h4.symm.trans h4'⟩
  · rintro ⟨rfl, rfl, rfl, rfl⟩
    rfl

theorem append_and_append {o o' : BitVec 4} {r r' : BitVec 12} {h h' : Half} {a a' : Word} :
    (o ++ r ++ h ++ a) &&& (o' ++ r' ++ h' ++ a') = (o &&& o') ++ (r &&& r') ++ (h &&& h') ++ (a &&& a') := by
  simp only [BitVec.and_append]

/-- What the row of an operation asks of the fields of a word (R81). -/
theorem matchesWord_row_iff {i : Instr} {c : Packet} :
    i.row.matchesWord c = true ↔ cmdOpc c = i.opcode ∧ cmdRsv c = 0#12 ∧
      cmdH c &&& fixedH i.opcode = 0#16 ∧ cmdA c &&& fixedA i.opcode = 0#32 := by
  have all4 : cmdOpc c &&& 0xF#4 = cmdOpc c := BitVec.and_allOnes
  have all12 : cmdRsv c &&& 0xFFF#12 = cmdRsv c := BitVec.and_allOnes
  have masked : c &&& i.row.mask = cmdOpc c ++ cmdRsv c ++ (cmdH c &&& fixedH i.opcode) ++
      (cmdA c &&& fixedA i.opcode) := by
    conv_lhs => rw [← append_of_fields c]
    refine append_and_append.trans ?_
    rw [all4, all12]
  rw [OpcodeRow.matchesWord, beq_iff_eq, masked]
  exact append_eq_append_iff

/-- The operands of an operation lie where its row leaves the bits free. -/
theorem operands_and_fixed (i : Instr) :
    i.operandH &&& fixedH i.opcode = 0#16 ∧ i.operandA &&& fixedA i.opcode = 0#32 := by
  cases i <;> simp [Instr.operandH, Instr.operandA, Instr.opcode, fixedH, fixedA]

/-- A word that decodes to an operation matches the rows with that operation's opcode. -/
theorem matchesWord_row_iff_of_decode {i j : Instr} {c : Packet} (h : decode c = .ok i) :
    j.row.matchesWord c = true ↔ i.opcode = j.opcode := by
  obtain ⟨ho, hr, hh, ha⟩ := fields_of_decode h
  obtain ⟨hh', ha'⟩ := operands_and_fixed i
  rw [matchesWord_row_iff, ho, hh, ha]
  exact ⟨And.left, fun e => ⟨e, hr, e ▸ hh', e ▸ ha'⟩⟩

/-- A word that matches a row decodes: the fields that are not operands are zero. -/
theorem decodes_of_matchesWord_row {j : Instr} {c : Packet} (h : j.row.matchesWord c = true) :
    ∃ i, decode c = .ok i := by
  obtain ⟨ho, hr, hh, ha⟩ := matchesWord_row_iff.mp h
  have zeroH (hf : fixedH j.opcode = BitVec.allOnes 16) : cmdH c = 0#16 := by
    rwa [hf, BitVec.and_allOnes] at hh
  have zeroA (hf : fixedA j.opcode = BitVec.allOnes 32) : cmdA c = 0#32 := by
    rwa [hf, BitVec.and_allOnes] at ha
  cases j with
  | init | islocked | unlock | lock => exact ⟨_, decode_of_fields ho hr (zeroH rfl) (zeroA rfl)⟩
  | rdhw => exact ⟨.rdhw (cmdA c), decode_of_fields ho hr (zeroH rfl) rfl⟩
  | wrhw => exact ⟨.wrhw (cmdA c) (cmdH c), decode_of_fields ho hr rfl rfl⟩
  | erpg => exact ⟨.erpg (cmdA c), decode_of_fields ho hr (zeroH rfl) rfl⟩
  | rdpg => exact ⟨.rdpg (cmdA c), decode_of_fields ho hr (zeroH rfl) rfl⟩
  | wrpg => exact ⟨.wrpg (cmdA c), decode_of_fields ho hr (zeroH rfl) rfl⟩
  | pgcrc => exact ⟨.pgcrc (cmdA c), decode_of_fields ho hr (zeroH rfl) rfl⟩
  | refl => exact ⟨.refl (cmdA c), decode_of_fields ho hr (zeroH rfl) rfl⟩

/-- The opcode map has one row for each opcode. -/
theorem mnemonics_of_opcode (i : Instr) :
    ((operationKinds.filter fun j => decide (i.opcode = j.opcode)).map Instr.mnemonic) = [i.mnemonic] := by
  cases i <;> rfl

/-- A word that decodes matches the row of its operation and no other (R81, R82). -/
theorem matching_rows_of_decode {c : Packet} {i : Instr} (h : decode c = .ok i) :
    (opcodeRows.filter (·.matchesWord c)).map OpcodeRow.mnemonic = [i.mnemonic] := by
  have hp : (OpcodeRow.matchesWord · c) ∘ Instr.row = fun j => decide (i.opcode = j.opcode) :=
    funext fun j => Bool.eq_iff_iff.mpr ((matchesWord_row_iff_of_decode h).trans decide_eq_true_iff.symm)
  rw [opcodeRows_eq_map_row, List.filter_map, hp, List.map_map]
  exact mnemonics_of_opcode i

/-- A word matches a row exactly when it decodes (R84, R85). -/
theorem legalWord_iff_decodes {c : Packet} : legalWord c = true ↔ ∃ i, decode c = .ok i := by
  constructor
  · intro h
    obtain ⟨r, hr, hm⟩ := List.any_eq_true.mp h
    rw [opcodeRows_eq_map_row] at hr
    obtain ⟨j, -, rfl⟩ := List.mem_map.mp hr
    exact decodes_of_matchesWord_row hm
  · rintro ⟨i, h⟩
    have hm : i.mnemonic ∈ (opcodeRows.filter (·.matchesWord c)).map OpcodeRow.mnemonic := by
      rw [matching_rows_of_decode h]
      exact List.mem_singleton_self _
    obtain ⟨r, hr, -⟩ := List.mem_map.mp hm
    obtain ⟨hr, hm⟩ := List.mem_filter.mp hr
    exact List.any_eq_true.mpr ⟨r, hr, hm⟩

/-- Settles O4: what each row asks of a word's fields is what the decoder asks of them. -/
theorem decodeFollowsTheOpcodeMap : Obligations.DecodeFollowsTheOpcodeMap := by
  refine fun c => ⟨fun i h => matching_rows_of_decode h, fun e h => ?_⟩
  rw [← Bool.not_eq_true, legalWord_iff_decodes]
  rintro ⟨i, hi⟩
  simp [h] at hi

/-- Settles O5: the decoder runs on each of the eight words. -/
theorem wordsOfTheSpecDecode : Obligations.WordsOfTheSpecDecode :=
  ⟨by decide, by decide, by decide, by decide, by decide, by decide, by decide, by decide⟩

end Sys2Proof
end

section
/-! The command port (30_encoding.md R85, R91 to R93): a command runs, or ends at once as illegal, or waits while an
operation runs; and the assembler's mnemonics. -/

namespace Sys2Proof.Machine

/-! ### Commands -/

theorem useMove_of_host {s : State} {m : HostMove} {rest : List HostMove} (h : s.host = m :: rest) :
    useMove s = { s with host := rest } := by
  simp [useMove, h]

/-- Settles O1: the port hands over the command, and the step decodes it. -/
theorem stepRunsTheDecodedCommand : Obligations.StepRunsTheDecodedCommand := by
  intro s c rest i ha hh hd
  rw [step_of_decoded ha hh hd, useMove_of_host hh]

/-- Settles O2: a word of no row does not decode (`legalWord_iff_decodes`), so its step is a failed end. -/
theorem illegalCommandTouchesNothing : Obligations.IllegalCommandTouchesNothing := by
  intro s c rest ha hh hl
  cases hd : decode c with
  | ok i => rw [legalWord_iff_decodes.mpr ⟨i, hd⟩] at hl; cases hl
  | error e =>
    rw [step_of_illegal ha hh hd, useMove_of_host hh, failOp, ← ha.2]
    rfl

theorem accept_of_running {s : State} (hw : s.cfg.wf = true) (hr : s.run = true) (opc : BitVec 4) (a : Word)
    (h : Half) (body : State → Host.Outcome State Fault Refusal) :
    accept opc a h body s = .refused .commandWhileRunning := by
  simp [accept, hw, hr]

/-- Settles O7: `accept` guards every operation, and in a step in which an operation goes on HOST's moves are
those of `hostAfter`, which keeps a command. -/
theorem noCommandWhileRunning : Obligations.NoCommandWhileRunning := by
  refine ⟨fun i s hw hr => ?_, fun s t c rest hr hh h => ?_⟩
  · obtain ⟨body, he⟩ := exec_eq_accept i
    rw [he, accept_of_running hw hr]
  · have goesOn : GoesOn s t := ⟨hr, by simp [hh], h⟩
    obtain ⟨-, -, -, hhost, -⟩ := (goesOn_trace goesOn).keeps_latches
    exact hhost.trans (if_neg (by simp [hh]))

/-! ### The assembler -/

/-- A number that must fit its field: it is taken as it is, never truncated (R91). -/
theorem some_ofNat_of_fits_iff {w n : Nat} {x : BitVec w} :
    (if n < 2 ^ w then some (BitVec.ofNat w n) else none) = some x ↔ n = x.toNat := by
  split
  · rw [Option.some.injEq, ← BitVec.toNat_inj, BitVec.toNat_ofNat, Nat.mod_eq_of_lt ‹_›]
  · have := x.isLt
    simp only [reduceCtorEq, false_iff]
    omega

theorem asmWord_eq_some_iff {n : Nat} {a : Word} : asmWord n = some a ↔ n = a.toNat :=
  some_ofNat_of_fits_iff

theorem asmHalf_eq_some_iff {n : Nat} {h : Half} : asmHalf n = some h ↔ n = h.toNat :=
  some_ofNat_of_fits_iff

@[simp] theorem asmWord_toNat (a : Word) : asmWord a.toNat = some a := asmWord_eq_some_iff.mpr rfl

@[simp] theorem asmHalf_toNat (h : Half) : asmHalf h.toNat = some h := asmHalf_eq_some_iff.mpr rfl

theorem asmOp_mnemonic (i : Instr) : asmOp i.mnemonic (asmArgs i) = some i := by
  cases i <;> simp [asmOp, Instr.mnemonic, asmArgs]

theorem of_map_asmWord {n : Nat} {f : Word → Instr} {i : Instr} (h : (asmWord n).map f = some i) :
    ∃ a, n = a.toNat ∧ i = f a := by
  obtain ⟨a, ha, rfl⟩ := Option.map_eq_some_iff.mp h
  exact ⟨a, asmWord_eq_some_iff.mp ha, rfl⟩

theorem asmOp_eq_some {m : String} {args : List Nat} {i : Instr} (h : asmOp m args = some i) :
    m = i.mnemonic ∧ args = asmArgs i := by
  unfold asmOp at h
  split at h
  case h_1 =>
    repeat' split at h
    all_goals cases h
    all_goals exact ⟨‹_›, rfl⟩
  case h_2 n =>
    repeat' split at h
    case isFalse => cases h
    all_goals
      obtain ⟨a, rfl, rfl⟩ := of_map_asmWord h
      exact ⟨‹_›, rfl⟩
  case h_3 n k =>
    split at h
    · obtain ⟨a, ha, h⟩ := Option.bind_eq_some_iff.mp h
      obtain ⟨w, hw, rfl⟩ := Option.map_eq_some_iff.mp h
      rw [asmWord_eq_some_iff.mp ha, asmHalf_eq_some_iff.mp hw]
      exact ⟨‹_›, rfl⟩
    · cases h
  case h_4 => cases h

/-- Settles O6: an operation assembles from its mnemonic, and each mnemonic from its operation alone. -/
theorem assemblerInvertsMnemonics : Obligations.AssemblerInvertsMnemonics :=
  ⟨asmOp_mnemonic, fun _ _ _ => asmOp_eq_some⟩

end Sys2Proof.Machine
end

section
/-! Words that HOST reads: the response word and the registers of the memory map (30_encoding.md R87, R89, R90). -/

namespace Sys2Proof.Machine

/-! ### The response word -/

theorem responseWord_val (s : State) : (responseWord s).extractLsb' 0 32 = s.val :=
  BitVec.extractLsb'_append_eq_right

theorem responseWord_err (s : State) : (responseWord s).extractLsb' 32 4 = s.err := by
  rw [responseWord, BitVec.extractLsb'_append_eq_of_le (by omega)]
  exact BitVec.extractLsb'_append_eq_right

theorem responseWord_ok (s : State) : (responseWord s).getLsbD 36 = s.ok := by
  simp only [responseWord, BitVec.getLsbD_append]
  simp

theorem responseWord_unused (s : State) : (responseWord s).extractLsb' 37 27 = 0#27 := by
  rw [responseWord, BitVec.extractLsb'_append_eq_of_le (by omega),
    BitVec.extractLsb'_append_eq_of_le (by omega)]
  exact BitVec.extractLsb'_append_eq_left

/-- Settles O56, one field of the word after another. -/
theorem responseWordFields : Obligations.ResponseWordFields :=
  fun s => ⟨responseWord_val s, responseWord_err s, responseWord_ok s, responseWord_unused s⟩

/-! ### The register map -/

theorem regAddr_fctl {c : Config} (h : c.fctlBase.toNat + 0x14 < 2 ^ 32) :
    (regAddr c .keyr).toNat = c.fctlBase.toNat + 0x04 ∧ (regAddr c .sr).toNat = c.fctlBase.toNat + 0x0C ∧
      (regAddr c .cr).toNat = c.fctlBase.toNat + 0x10 ∧ (regAddr c .ar).toNat = c.fctlBase.toNat + 0x14 := by
  simp only [regAddr, BitVec.toNat_add, BitVec.toNat_ofNat]
  omega

theorem regAddr_crcu {c : Config} (h : c.crcuBase.toNat + 0x08 < 2 ^ 32) :
    (regAddr c .crcDr).toNat = c.crcuBase.toNat ∧ (regAddr c .crcCr).toNat = c.crcuBase.toNat + 0x08 := by
  simp only [regAddr, BitVec.toNat_add, BitVec.toNat_ofNat]
  omega

theorem srWord_bits (s : State) :
    (srWord s).getLsbD 0 = s.srBsy ∧ (srWord s).extractLsb' 1 31 = 0#31 := by
  unfold srWord
  cases s.srBsy <;> decide

/-- Each bit of the control register where R89 puts it, whatever the four bits are. -/
theorem crWord_bits (s : State) :
    (crWord s).getLsbD 0 = s.crPg ∧ (crWord s).getLsbD 1 = s.crPer ∧ (crWord s).getLsbD 6 = s.crStrt ∧
      (crWord s).getLsbD 7 = s.crLock ∧ (crWord s).extractLsb' 2 4 = 0#4 ∧
      (crWord s).extractLsb' 8 24 = 0#24 := by
  unfold crWord
  generalize s.crPg = pg, s.crPer = per, s.crStrt = strt, s.crLock = lock
  revert pg per strt lock
  decide

/-- The four bits of the control register that can be set, and no other (R25). -/
theorem regSetBit_eq (bit : Nat) (s : State) : regSetBit bit s =
    if bit = 0 then setPg s else if bit = 1 then setPer s else if bit = 6 then setStrt s
    else if bit = 7 then .next (setLock s) else .refused .registerAccess := by
  unfold regSetBit
  split
  case h_5 h0 h1 h6 h7 => rw [if_neg h0, if_neg h1, if_neg h6, if_neg h7]
  all_goals rfl

/-- The two bits of the control register that can be cleared, and no other (R25). -/
theorem regClrBit_eq (bit : Nat) (s : State) : regClrBit bit s =
    if bit = 0 then .next (clrPg s) else if bit = 1 then .next (clrPer s)
    else .refused .registerAccess := by
  unfold regClrBit
  split
  case h_3 h0 h1 => rw [if_neg h0, if_neg h1]
  all_goals rfl

/-- With its clock on, the CRC unit's registers are its primitives (R90, R135 to R137). -/
theorem crcRegs_of_clocked {s : State} (h : s.crcen = true) (v : Word) :
    regRead .crcDr s = .ok s.crcacc ∧
      regWrite .crcDr v s = .next { s with crcacc := crcStep s.cfg.poly s.crcacc v } ∧
      regRead .crcCr s = .ok 0#32 ∧
      regWrite .crcCr v s =
        .next (if v.getLsbD 0 then { s with crcacc := s.cfg.crcInit } else s) :=
  ⟨if_pos h, if_pos h, if_pos h, if_pos h⟩

/-- With its clock off, every access to the CRC unit is refused (R33). -/
theorem crcRegs_of_unclocked {s : State} (h : s.crcen = false) (v : Word) :
    regRead .crcDr s = .error .crcClockOff ∧ regWrite .crcDr v s = .refused .crcClockOff ∧
      regRead .crcCr s = .error .crcClockOff ∧ regWrite .crcCr v s = .refused .crcClockOff := by
  simp [regRead, regWrite, h]

/-- Settles O57: the accesses of FCTL's registers are its primitives by definition. -/
theorem registerMapFollowsThePrimitives : Obligations.RegisterMapFollowsThePrimitives :=
  ⟨fun _ => ⟨regAddr_fctl, regAddr_crcu⟩, fun s v =>
    ⟨srWord_bits s, crWord_bits s, rfl, rfl, rfl, rfl, rfl, rfl, rfl, rfl, fun bit => regSetBit_eq bit s,
      fun bit => regClrBit_eq bit s, fun h => crcRegs_of_clocked h v, fun h => crcRegs_of_unclocked h v⟩⟩

end Sys2Proof.Machine
end

section
/-! The lock (40_lock.md R100 to R105): what the two key writes of `INIT` and `UNLOCK` do from each key state, that no
other operation but `LOCK` moves the lock, and that a locked controller leaves the flash array as it is. -/

namespace Sys2Proof.Machine

/-! ### The flash array under lock -/

/-- The controller is locked, programming is not enabled and nothing is busy, while the array holds `m`: FCTL acts
on no request (R25, R61, R105). -/
structure Inert (m : Memory) (s : State) : Prop where
  locked : s.crLock = true
  pg : s.crPg = false
  bsy : s.srBsy = false
  flash : s.flash = m

/-- An operation that programs or erases writes no key, so nothing it requests is carried out. -/
theorem Micro.keeps_inert {i : Instr} (hi : programs i ∨ erases i) {m : Memory} {s t : State}
    (h : Micro i s t) (hs : Inert m s) : Inert m t := by
  obtain ⟨hl, hg, hb, hf⟩ := hs
  cases h
  case key h => rcases h with rfl | rfl <;> simp [programs, erases] at hi
  case pgOn hq =>
    cases (setPg_of_locked hl).symm.trans hq
    exact ⟨hl, hg, hb, hf⟩
  case perOn hq =>
    cases (setPer_of_locked hl).symm.trans hq
    exact ⟨hl, hg, hb, hf⟩
  case start hq =>
    rcases setStrt_cases hq with ⟨-, rfl⟩ | ⟨ho, -⟩
    · exact ⟨hl, hg, hb, hf⟩
    · simp [hl] at ho
  case write hq =>
    rcases flashWrite16_cases hq with ⟨-, rfl⟩ | ⟨hp, -⟩
    · exact ⟨hl, hg, hb, hf⟩
    · simp [hg] at hp
  case complete hp _ => simp [hb] at hp
  case poll hp => simp [hb] at hp
  all_goals exact ⟨by simp [hl], by simp [hg], by simp [hb], by simp [hf]⟩

/-- Actions that begin with FCTL inert leave the array as it is: those of a key operation ask nothing of FCTL, and
those of another leave it inert. -/
theorem Trace.keeps_flash_of_inert {i : Instr} {m : Memory} {s t : State} (h : Trace i s t)
    (hs : Inert m s) : t.flash = m := by
  by_cases hi : programs i ∨ erases i
  · exact (h.keeps (fun _ _ => Micro.keeps_inert hi) hs).flash
  · obtain ⟨hp, he⟩ := not_or.mp hi
    exact (h.sameFctl hp he).1.trans hs.flash

/-- A locked controller runs no operation, and between operations it is idle (R40, R42). -/
theorem Inv.idleRegs_of_locked {s : State} (v : Inv s) (hl : s.crLock = true) : IdleRegs s := by
  cases hr : s.run
  · exact (v.idle hr).1
  · obtain ⟨-, ho, -⟩ := v.running hr
    simp [hl] at ho

/-- The reset event changes only the cells of what is in flight (R181). -/
theorem resetEvent_flash_of_none {s : State} (hp : s.pend = .none) : (resetEvent s).flash = s.flash := by
  obtain ⟨m, d, d', p, e, -, -, hm, -⟩ := resetEvent_spec s
  rw [e]
  exact hm hp

/-- Settles O31: a locked controller is idle, so the reset event finds nothing in flight, and every other step is a
sequence of actions that begins with FCTL inert. -/
theorem lockedFlashNeverChanges : Obligations.LockedFlashNeverChanges := by
  intro s t v hl h
  have hidle := v.idleRegs_of_locked hl
  by_cases hr : s.host.head? = some .reset
  · obtain ⟨rest, hh⟩ := List.head?_eq_some_iff.mp hr
    cases (step_of_reset v.config hh).symm.trans h
    exact resetEvent_flash_of_none (s := useMove s) hidle.pend
  · obtain ⟨i, b, o, a, w, m, p, htr⟩ := step_trace h hr
    exact htr.keeps_flash_of_inert ⟨hl, hidle.pg, hidle.bsy, rfl⟩

/-! ### Operations that leave the lock as it is -/

/-- Only the key register's writes and setting the lock bit move the lock (R18, R21). -/
theorem Micro.keeps_lock {i : Instr} (hi : i ≠ .init) (hu : i ≠ .unlock) (hl : i ≠ .lock) {s t : State}
    (h : Micro i s t) : t.keyst = s.keyst ∧ t.crLock = s.crLock := by
  cases h
  case key h => exact absurd h (not_or.mpr ⟨hi, hu⟩)
  case lock h => exact absurd h hl
  case pgOn hq => obtain ⟨b, rfl⟩ := setPg_frame hq; exact ⟨rfl, rfl⟩
  case perOn hq => obtain ⟨b, rfl⟩ := setPer_frame hq; exact ⟨rfl, rfl⟩
  case start hq => obtain ⟨b, p, c, rfl⟩ := setStrt_frame hq; exact ⟨rfl, rfl⟩
  case write hq => obtain ⟨p, c, rfl⟩ := flashWrite16_frame hq; exact ⟨rfl, rfl⟩
  all_goals exact ⟨by simp, by simp⟩

theorem Trace.keeps_lock {i : Instr} (hi : i ≠ .init) (hu : i ≠ .unlock) (hl : i ≠ .lock) {s t : State}
    (h : Trace i s t) : t.keyst = s.keyst ∧ t.crLock = s.crLock := by
  refine h.keeps (P := fun u => u.keyst = s.keyst ∧ u.crLock = s.crLock) (fun u v hm hs => ?_) ⟨rfl, rfl⟩
  obtain ⟨hk, hc⟩ := hm.keeps_lock hi hu hl
  exact ⟨hk.trans hs.1, hc.trans hs.2⟩

theorem operationAt_ne_unlock (p : Pos) (s : State) : operationAt p s ≠ .unlock := by
  cases p <;> simp [operationAt]

theorem operationAt_ne_lock (p : Pos) (s : State) : operationAt p s ≠ .lock := by
  cases p <;> simp [operationAt]

/-- Settles O30: no action of another operation moves the lock, and the three that do never wait. -/
theorem onlyKeyOperationsMoveTheLock : Obligations.OnlyKeyOperationsMoveTheLock :=
  ⟨fun _ _ _ hi hu hl h => (exec_trace h).2.keeps_lock hi hu hl,
    fun _ _ h => (goesOn_trace h).keeps_lock (operationAt_ne_init _ _) (operationAt_ne_unlock _ _)
      (operationAt_ne_lock _ _)⟩

/-! ### The key writes of `INIT` and `UNLOCK` -/

/-- The check after the key writes succeeds exactly where they opened the controller (R102). -/
theorem endUnlock_of_open {s : State} (hl : s.crLock = false) : endUnlock s = doneOp 0#32 s := by
  simp [endUnlock, hl]

theorem endUnlock_of_locked {s : State} (hl : s.crLock = true) : endUnlock s = failOp .unlock s := by
  simp [endUnlock, hl]

/-- From `K0` both keys are accepted (R102). -/
theorem writeKeys_of_k0 {s : State} (hk : s.keyst = .k0) :
    writeKeys s = { s with crLock := false, keyst := .opened } := by
  simp [writeKeys, keyWrite, hk]

/-- From `OPEN` the first key locks out; `KEY2` is then ignored, or is judged as a first key (R19, R185). -/
theorem writeKeys_of_opened {s : State} (hk : s.keyst = .opened) :
    writeKeys s = { s with
      crLock := true
      keyst := if s.cfg.keyLockoutSticky then .dead else if s.cfg.key1 = s.cfg.key2 then .k1 else .k0 } := by
  have h1 : keyWrite s.cfg.key1 s = lockout s := by simp [keyWrite, hk]
  rw [writeKeys, h1]
  cases hs : s.cfg.keyLockoutSticky
  · by_cases he : s.cfg.key1 = s.cfg.key2
    · simp [keyWrite, lockout, hs, he]
    · simp [keyWrite, lockout, hs, he, Ne.symm he]
  · simp [keyWrite, lockout, hs]

/-- From `K1` the first of two equal keys opens and the second locks out; of two different keys the first locks out,
and `KEY2` is then ignored or locks out again (R19, R102). -/
theorem writeKeys_of_k1 {s : State} (hk : s.keyst = .k1) :
    writeKeys s = { s with crLock := true, keyst := if s.cfg.keyLockoutSticky then .dead else .k0 } := by
  by_cases he : s.cfg.key1 = s.cfg.key2
  · simp [writeKeys, keyWrite, lockout, hk, he]
  · have h1 : keyWrite s.cfg.key1 s = lockout s := by simp [keyWrite, hk, he]
    rw [writeKeys, h1]
    cases hs : s.cfg.keyLockoutSticky <;> simp [keyWrite, lockout, hs, Ne.symm he]

theorem writeKeys_of_dead {s : State} (hk : s.keyst = .dead) : writeKeys s = s := by
  rw [writeKeys, keyWrite_of_dead _ hk, keyWrite_of_dead _ hk]

/-- Settles O26: from `K0` both keys are accepted. -/
theorem keysOpenALockedController : Obligations.KeysOpenALockedController := by
  intro s ha hk
  rw [exec_init ha, exec_unlock ha, writeKeys_of_k0 (s := { started .init s with crcen := true }) hk,
    writeKeys_of_k0 (s := started .unlock s) hk, endUnlock_of_open rfl, endUnlock_of_open rfl]
  exact ⟨rfl, rfl⟩

/-- Settles O27: from each of the three states the key writes leave the controller locked. -/
theorem keysDoNotOpenOtherwise : Obligations.KeysDoNotOpenOtherwise := by
  intro s ha
  rw [exec_init ha, exec_unlock ha]
  refine ⟨fun hk => ?_, fun hk hl => ?_, fun hk => ?_⟩
  · rw [writeKeys_of_opened (s := { started .init s with crcen := true }) hk,
      writeKeys_of_opened (s := started .unlock s) hk, endUnlock_of_locked rfl, endUnlock_of_locked rfl]
    exact ⟨rfl, rfl⟩
  · rw [writeKeys_of_dead (s := { started .init s with crcen := true }) hk,
      writeKeys_of_dead (s := started .unlock s) hk,
      endUnlock_of_locked (s := { started .init s with crcen := true }) hl,
      endUnlock_of_locked (s := started .unlock s) hl]
    exact ⟨rfl, rfl⟩
  · rw [writeKeys_of_k1 (s := { started .init s with crcen := true }) hk,
      writeKeys_of_k1 (s := started .unlock s) hk, endUnlock_of_locked rfl, endUnlock_of_locked rfl]
    exact ⟨rfl, rfl⟩

/-- Settles O28: the lock bit as a word, and setting the lock bit. -/
theorem lockAndItsQuery : Obligations.LockAndItsQuery := by
  intro s ha
  rw [exec_islocked ha, exec_lock ha]
  refine ⟨?_, rfl⟩
  have hv : (BitVec.ofBool s.crLock).setWidth 32 = if s.crLock then 1#32 else 0#32 := by
    cases s.crLock <;> rfl
  rw [hv]
  rfl

/-! ### `WRHW` under lock -/

/-- With programming not enabled a flash write is ignored (R61). -/
theorem flashWrite16_of_disabled {s : State} (hg : s.crPg = false) (a : Nat) (v : Half) :
    flashWrite16 a v s = .next s := by
  simp [flashWrite16, hg]

theorem clrPg_of_locked {s : State} (hl : s.crLock = true) : clrPg s = s := by
  simp [clrPg, hl]

theorem wordOp_of_inside {s : State} {a : Word} (ha : halfAligned a = true)
    (hi : inFlash s.cfg a.toNat 2 = true) (body : State → Host.Outcome State Fault Refusal) :
    wordOp a body s = body s := by
  simp [wordOp, ha, hi]

/-- Locked, `WRHW` after its first wait only compares its cell with `H` (R111, R105). -/
theorem wrhwWrite_of_locked {s : State} (hl : s.crLock = true) (hg : s.crPg = false) (hb : s.srBsy = false) :
    wrhwWrite s = .next (if readHalf s.flash s.a.toNat = s.h then doneOp 0#32 s else failOp .writeVerify s) := by
  rw [wrhwWrite, setPg_of_locked hl, andThen_next, flashWrite16_of_disabled hg, andThen_next,
    waitNotBusy_of_ready hb, wrhwVerify, clrPg_of_locked hl, flashRead16_of_ready hb]

/-- Settles O38: nothing is busy and no program starts, so `WRHW` comes to its comparison at once. -/
theorem wrhwLockedOnlyCompares : Obligations.WrhwLockedOnlyCompares := by
  intro s a h ha hb hg hl hal hi
  rw [exec_wrhw ha, wordOp_of_inside (s := started _ s) (halfAligned_iff.mpr hal) hi,
    waitNotBusy_of_ready (s := started _ s) hb, wrhwWrite_of_locked (s := started _ s) hl hg hb]
  rfl

end Sys2Proof.Machine
end

section
/-! `RDHW` and `WRHW` (41_word_io.md R110 to R112), and where the operations that wait for FCTL start their wait, stay
in it and leave it (20_memory.md R61 to R63, R70). -/

namespace Sys2Proof.Machine

/-! ### Operands -/

theorem wordOp_of_odd {s : State} {a : Word} (ha : a.toNat % 2 = 1)
    (body : State → Host.Outcome State Fault Refusal) : wordOp a body s = .next (failOp .alignHw s) := by
  have hal : halfAligned a = false := Bool.eq_false_iff.mpr fun h => by
    have := halfAligned_iff.mp h
    omega
  simp [wordOp, hal]

theorem pageOp_of_inside {s : State} {a : Word} (ha : pageAligned s.cfg a = true)
    (hi : inFlash s.cfg a.toNat s.cfg.pageSize = true)
    (body : State → Host.Outcome State Fault Refusal) : pageOp a body s = body s := by
  simp [pageOp, ha, hi]

/-- Settles O32: the alignment check comes before everything else. -/
theorem oddWordOperandsTouchNothing : Obligations.OddWordOperandsTouchNothing := by
  intro s a h hacc ha
  rw [exec_rdhw hacc, exec_wrhw hacc, wordOp_of_odd ha, wordOp_of_odd ha]
  exact ⟨rfl, rfl⟩

/-- Settles O36: with the operand's checks passed and nothing busy, `RDHW` is one read of its cell. -/
theorem rdhwAnswersTheCell : Obligations.RdhwAnswersTheCell := by
  intro s a hacc hb ha hi
  rw [exec_rdhw hacc, wordOp_of_inside (s := started _ s) (halfAligned_iff.mpr ha) hi,
    flashRead16_of_ready (s := started _ s) hb]
  rfl

/-! ### The start of a wait -/

/-- The state in which `WRHW` has started its program (R111, R61). -/
def wrhwStarted (s : State) : State := programStarted s.a.toNat s.h { s with crPg := true }

/-- Unlocked, `WRHW` enables programming, starts its program and comes to its wait (R111, R61). -/
theorem wrhwWrite_of_open {s : State} (hb : s.srBsy = false) (hl : s.crLock = false)
    (he : s.crPer = false) : wrhwWrite s = resumeAt .wrhwProgram (wrhwStarted s) := by
  have hw : flashWrite16 s.a.toNat s.h { s with crPg := true } = .next (wrhwStarted s) := by
    simp [flashWrite16, hb, wrhwStarted, programStarted]
  rw [wrhwWrite, setPg_of_open hl he, andThen_next, hw, andThen_next, resumeAt]

theorem exec_wrhw_of_open {s : State} {a : Word} (h : Half) (hacc : Accepting s) (hb : s.srBsy = false)
    (hl : s.crLock = false) (he : s.crPer = false) (ha : a.toNat % 2 = 0)
    (hi : inFlash s.cfg a.toNat 2 = true) :
    exec (.wrhw a h) s = resumeAt .wrhwProgram (wrhwStarted (started (.wrhw a h) s)) := by
  rw [exec_wrhw hacc, wordOp_of_inside (s := started _ s) (halfAligned_iff.mpr ha) hi,
    waitNotBusy_of_ready (s := started _ s) hb, wrhwWrite_of_open (s := started _ s) hb hl he]

/-- Unlocked, a page operation whose operand passes its checks comes to the wait for its erase (R121, R62). -/
theorem pageOp_eraseStart_of_open {s : State} (q p : Pos) (rest : State → Host.Outcome State Fault Refusal)
    (hw : s.cfg.wf = true) (hb : s.srBsy = false) (hl : s.crLock = false) (hg : s.crPg = false)
    (ha : PageOperand s) :
    pageOp s.a (waitNotBusy q (eraseStart p rest)) s =
      waitNotBusy p (eraseVerify rest) (eraseStarted s) := by
  rw [pageOp_of_inside ha.1 ha.2, waitNotBusy_of_ready hb,
    eraseStart_of_open p rest hb hl hg (inFlash_pageOperand hw ha)]

/-! ### The end of `WRHW` -/

/-- What the program of `WRHW` leaves in its cell (R63, R64). -/
def wrhwResult (s : State) : Half := programmed s.cfg s.draws (readHalf s.flash s.a.toNat) s.h

/-- The state after the wait of `WRHW` for its program, with programming disabled (R111, R63). -/
def wrhwDone (s : State) : State :=
  { s with
    flash := writeHalf s.flash s.a.toNat (wrhwResult s), crPg := false, srBsy := false, pend := .none
    moves := s.moves.tail, draws := drawsAfter s 1 }

theorem wrhwVerify_of_open {s : State} (hb : s.srBsy = false) (hl : s.crLock = false) :
    wrhwVerify s = .next (
      if readHalf s.flash s.a.toNat = s.h then doneOp 0#32 { s with crPg := false }
      else failOp .writeVerify { s with crPg := false }) := by
  rw [wrhwVerify, clrPg_of_open hl, flashRead16_of_ready (s := { s with crPg := false }) hb]

/-- Where FCTL completes before the poll, the wait for the program ends, and `WRHW` compares the program's result with
`H` (R111, R63). -/
theorem resumeAt_wrhwProgram_of_ready {s : State} (hb : s.srBsy = true) (hr : fctlReady s = true)
    (hp : s.pend = .prog s.a.toNat s.h) (hl : s.crLock = false) :
    resumeAt .wrhwProgram s = .next (
      if wrhwResult s = s.h then doneOp 0#32 (wrhwDone s) else failOp .writeVerify (wrhwDone s)) := by
  have hread : readHalf (wrhwDone s).flash s.a.toNat = wrhwResult s := readHalf_writeHalf_same _ _ _
  rw [resumeAt, waitNotBusy_of_complete hb hr (by simp [hp]), fctlComplete_prog (s := usePoll s) hp, ← hread]
  exact wrhwVerify_of_open rfl hl

/-- Settles O37: both a `WRHW` that starts and one that goes on come to the end of the wait for its program. -/
theorem wrhwProgramsTheCell : Obligations.WrhwProgramsTheCell := by
  refine ⟨fun s a h hacc hb hl he hr ha hi => ?_, fun s v hrun hpos hh hr => ?_⟩
  · refine ⟨_, readHalf_writeHalf_same s.flash a.toNat _,
      fun _ hx => readByte_writeHalf_outside _ _ hx, ?_⟩
    rw [exec_wrhw_of_open h hacc hb hl he ha hi,
      resumeAt_wrhwProgram_of_ready (s := wrhwStarted (started (.wrhw a h) s)) rfl hr rfl hl]
    simp only [succeeded, failed, hb]
    rfl
  · refine ⟨_, readHalf_writeHalf_same s.flash s.a.toNat _,
      fun _ hx => readByte_writeHalf_outside _ _ hx, ?_⟩
    have w := v.waiting hrun
    rw [hpos] at w
    obtain ⟨-, hp, -, -, ho⟩ := w.waits
    rw [step_of_waiting v hrun hpos hh,
      resumeAt_wrhwProgram_of_ready (s := { s with host := hostAfter s }) w.bsy hr hp w.unlocked]
    simp only [succeeded, failed, Instr.opcode, ← show s.opc = 0x6#4 from ho]
    rfl

/-! ### A poll that finds the busy flag set -/

/-- Wherever SEQ stands but between operations, it goes on with a wait (R42). -/
theorem resumeAt_eq_waitNotBusy {p : Pos} (hp : p ≠ .idle) (s : State) :
    ∃ rest, resumeAt p s = waitNotBusy p rest s := by
  cases p
  case idle => exact absurd rfl hp
  all_goals exact ⟨_, rfl⟩

theorem resumeAt_of_not_ready {p : Pos} {s : State} (hp : p ≠ .idle) (hb : s.srBsy = true)
    (hr : fctlReady s = false) : resumeAt p s = .next { usePoll s with pos := p } := by
  obtain ⟨rest, he⟩ := resumeAt_eq_waitNotBusy hp s
  rw [he, waitNotBusy_of_not_ready hb hr]

/-- SEQ waits nowhere between operations. -/
theorem Waiting.pos_ne_idle {p : Pos} {s : State} (w : Waiting p s) : p ≠ .idle := by
  rintro rfl
  exact w.waits.elim

/-- Settles O39: each operation comes to a wait in the step that starts it, and at every wait a poll that finds the
busy flag set only uses up FCTL's choice. -/
theorem operationsWaitForFctl : Obligations.OperationsWaitForFctl := by
  refine ⟨fun s a h hacc hb hl he hr ha hi => ?_, fun s a hacc hb hl hg hr ha hi => ?_,
    fun s v hrun hh hr => ?_⟩
  · rw [exec_wrhw_of_open h hacc hb hl he ha hi,
      resumeAt_of_not_ready (p := .wrhwProgram) (s := wrhwStarted (started _ s)) nofun rfl hr]
    rfl
  · have hal := pageAligned_iff.mpr ha
    rw [exec_erpg hacc, exec_wrpg hacc]
    constructor
    · exact (pageOp_eraseStart_of_open (s := started (.erpg a) s) _ _ _ hacc.1 hb hl hg ⟨hal, hi⟩).trans
        (waitNotBusy_of_not_ready (s := eraseStarted (started (.erpg a) s)) rfl hr _ _)
    · exact (pageOp_eraseStart_of_open (s := started (.wrpg a) s) _ _ _ hacc.1 hb hl hg ⟨hal, hi⟩).trans
        (waitNotBusy_of_not_ready (s := eraseStarted (started (.wrpg a) s)) rfl hr _ _)
  · have w := v.waiting hrun
    rw [step_of_waiting v hrun rfl hh,
      resumeAt_of_not_ready (s := { s with host := hostAfter s }) w.pos_ne_idle w.bsy hr]
    rfl

end Sys2Proof.Machine
end

section
/-! `WRHW` changes only its cell, `ERPG` and `WRPG` only their page (41_word_io.md R111, 42_page_io.md R121, R123).
Locked, FCTL acts on no request. Unlocked, what is in flight at a wait lies in the target at the latch `A`, and what
comes after the completion step changes no more of the array, or starts the program of a later cell of the page. -/

namespace Sys2Proof.Machine

/-! ### Bytes outside a range -/

theorem sameOutside_of_eq {m m' : Memory} (h : m' = m) (a n : Nat) : SameOutside m m' a n :=
  fun _ _ => h ▸ rfl

theorem SameOutside.trans {m m' m'' : Memory} {a n : Nat} (h : SameOutside m m' a n)
    (h' : SameOutside m' m'' a n) : SameOutside m m'' a n :=
  fun x hx => (h' x hx).trans (h x hx)

/-- Bytes unchanged outside a range are unchanged outside a wider one. -/
theorem SameOutside.widen {m m' : Memory} {a n b k : Nat} (h : SameOutside m m' b k) (ha : a ≤ b)
    (hn : b + k ≤ a + n) : SameOutside m m' a n :=
  fun x hx => h x (by omega)

/-- From `s` on, a part of an operation leaves the array as it is outside `n` bytes from `a`. -/
def StaysIn (a n : Nat) (s : State) (o : Host.Outcome State Fault Refusal) : Prop :=
  ∀ t, o = .next t → SameOutside s.flash t.flash a n

section Parts

variable {a n : Nat} {p : Pos} {s : State} {o : Host.Outcome State Fault Refusal}
  {rest : State → Host.Outcome State Fault Refusal}

theorem staysIn_of_flash_eq {t : State} (h : t.flash = s.flash) : StaysIn a n s (.next t) := by
  rintro _ ⟨⟩
  exact sameOutside_of_eq h a n

theorem staysIn_of_refused {r : Refusal} : StaysIn a n s (.refused r) := by
  rintro _ ⟨⟩

theorem StaysIn.after {u : State} (h : StaysIn a n u o) (hs : SameOutside s.flash u.flash a n) :
    StaysIn a n s o :=
  fun t ht => hs.trans (h t ht)

theorem StaysIn.widen {b k : Nat} (h : StaysIn b k s o) (ha : a ≤ b) (hn : b + k ≤ a + n) :
    StaysIn a n s o :=
  fun t ht => (h t ht).widen ha hn

theorem wordOp_staysIn {b : Word} (hbody : halfAligned b = true → inFlash s.cfg b.toNat 2 = true →
    StaysIn a n s (rest s)) : StaysIn a n s (wordOp b rest s) := by
  rcases wordOp_cases b rest s with ⟨-, e⟩ | ⟨-, -, e⟩ | ⟨h1, h2, e⟩ <;> rw [e]
  · exact staysIn_of_flash_eq rfl
  · exact staysIn_of_refused
  · exact hbody h1 h2

theorem pageOp_staysIn {b : Word} (hbody : pageAligned s.cfg b = true →
    inFlash s.cfg b.toNat s.cfg.pageSize = true → StaysIn a n s (rest s)) :
    StaysIn a n s (pageOp b rest s) := by
  rcases pageOp_cases b rest s with ⟨-, e⟩ | ⟨-, -, e⟩ | ⟨h1, h2, e⟩ <;> rw [e]
  · exact staysIn_of_flash_eq rfl
  · exact staysIn_of_refused
  · exact hbody h1 h2

/-! ### The completion step -/

/-- What FCTL is changing lies in the target of the operation at the latch `A`. -/
def FlightInTarget (s : State) : Prop :=
  (∃ b v, s.pend = .prog b v ∧ s.a.toNat ≤ b ∧ b + 2 ≤ s.a.toNat + bytesInFlight s) ∨
  ∃ b, s.pend = .erase b ∧ pageBase s.cfg b = s.a.toNat ∧ s.cfg.pageSize = bytesInFlight s

/-- An operation that waits does so for the cell of `WRHW`, for the page of `ERPG` or `WRPG`, or for a cell of that
page. -/
theorem WaitsFor.flightInTarget (hw : s.cfg.wf = true) (h : WaitsFor s) : FlightInTarget s := by
  have hpage : PageOperand s → pageBase s.cfg s.a.toNat = s.a.toNat := fun ha =>
    pageBase_of_aligned hw (pageAligned_iff.mp ha.1) (inFlash_iff.mp ha.2).1
  unfold WaitsFor at h
  split at h
  · obtain ⟨-, hp, -, -, ho⟩ := h
    exact .inl ⟨_, _, hp, Nat.le_refl _, by simp [bytesInFlight, ho]⟩
  · obtain ⟨ha, hp, -, -, -, ho⟩ := h
    exact .inr ⟨_, hp, hpage ha, by simp [bytesInFlight, ho]⟩
  · obtain ⟨ha, hp, -, -, -, ho⟩ := h
    exact .inr ⟨_, hp, hpage ha, by simp [bytesInFlight, ho]⟩
  · obtain ⟨-, hi, hp, -, -, ho⟩ := h
    obtain ⟨-, -, hc, -⟩ := wf_geometry hw
    have hn : bytesInFlight s = s.cfg.pageSize := by simp [bytesInFlight, ho]
    exact .inl ⟨_, _, hp, Nat.le_add_right _ _, by unfold cellAddr; omega⟩
  · exact h.elim

/-- The completion step changes the cell or the page in flight only (R63, R65). -/
theorem FlightInTarget.complete (hw : s.cfg.wf = true) (h : FlightInTarget s) :
    SameOutside s.flash (fctlComplete s).flash s.a.toNat (bytesInFlight s) := by
  rcases h with ⟨b, v, hp, h1, h2⟩ | ⟨b, hp, hb, hn⟩
  · have hcell : SameOutside s.flash (fctlComplete s).flash b 2 := fun x hx => by
      rw [fctlComplete_prog hp]
      exact readByte_writeHalf_outside _ _ hx
    exact hcell.widen h1 h2
  · obtain ⟨-, -, hc, -⟩ := wf_geometry hw
    obtain ⟨m, e, hs, -⟩ := fctlComplete_erase hp
    rw [hb, hc, hn] at hs
    rw [e]
    exact hs

/-- A wait stays in the target when what comes after the completion step does. -/
theorem Waiting.staysIn (w : Waiting p s)
    (hrest : StaysIn s.a.toNat (bytesInFlight s) (fctlComplete (usePoll s)) (rest (fctlComplete (usePoll s)))) :
    StaysIn s.a.toNat (bytesInFlight s) s (waitNotBusy p rest s) := by
  have hf : FlightInTarget (usePoll s) := WaitsFor.flightInTarget (s := { s with pos := p }) w.config w.waits
  cases hr : fctlReady s
  · rw [waitNotBusy_of_not_ready w.bsy hr]
    exact staysIn_of_flash_eq rfl
  · rw [waitNotBusy_of_complete w.bsy hr w.waits.pend_ne_none]
    exact hrest.after (hf.complete (s := usePoll s) w.config)

/-! ### What comes after a wait -/

theorem wrhwVerify_staysIn (hb : s.srBsy = false) (hl : s.crLock = false) : StaysIn a n s (wrhwVerify s) := by
  rw [wrhwVerify_of_open hb hl]
  refine staysIn_of_flash_eq ?_
  split <;> rfl

/-- The loop of `WRPG` over `n` cells changes none but those (R123). -/
theorem WritesCells.staysIn {k : Nat} (h : WritesCells k s o) :
    StaysIn (s.a.toNat + 2 * s.idx) (2 * k) s o := by
  obtain ⟨m, hs, -, rfl⟩ := h
  have hw := (firstBad_spec (fun i => !pollReady s i) k).1
  refine (staysIn_of_flash_eq (s := { s with flash := m }) ?_).after (hs.widen (Nat.le_refl _) ?_)
  · split
    · rfl
    · split <;> rfl
  · split <;> omega

/-- What comes after a verified erase changes the page only. -/
def StaysInAfterErase (rest : State → Host.Outcome State Fault Refusal) : Prop :=
  ∀ s, Working false false s → s.crLock = false → StaysIn s.a.toNat s.cfg.pageSize s (rest s)

theorem erpgEnd_staysIn : StaysInAfterErase erpgEnd :=
  fun _ _ _ => staysIn_of_flash_eq rfl

theorem wrpgEnable_staysIn : StaysInAfterErase wrpgEnable := by
  intro s w hl
  obtain ⟨-, -, hc, -⟩ := wf_geometry w.config
  rw [wrpgEnable, setPg_of_open hl w.per, andThen_next, waitNotBusy_of_ready (s := { s with crPg := true }) w.bsy,
    ← hc]
  exact (wrpgCells_spec (s := startIdx { s with crPg := true }) _ w.bsy w.pend hl rfl).staysIn

theorem eraseVerify_staysIn (w : Working false true s) (hl : s.crLock = false) (hrest : StaysInAfterErase rest) :
    StaysIn s.a.toNat s.cfg.pageSize s (eraseVerify rest s) := by
  have wc : Working false false { s with crPer := false } := { w with per := rfl }
  have hcells := eraseVerify_of_cells rest w.bsy _ fun _ _ => rfl
  rw [hcells, clrPer_of_open hl]
  split
  · exact hrest _ (wc.at_index (Nat.le_refl _)) hl
  · exact staysIn_of_flash_eq rfl

theorem Waiting.erase_staysIn (w : Waiting p s) (hg : s.crPg = false) (he : s.crPer = true)
    (hn : bytesInFlight s = s.cfg.pageSize) (hrest : StaysInAfterErase rest) :
    StaysIn s.a.toNat (bytesInFlight s) s (waitNotBusy p (eraseVerify rest) s) := by
  have wc := w.complete
  rw [hg, he] at wc
  have h := eraseVerify_staysIn wc (by simpa using w.unlocked) hrest
  refine w.staysIn ?_
  simpa [hn] using h

/-- After the wait for cell `IDX` the loop goes on over cells of the page only (R123). -/
theorem Waiting.wrpgCell_staysIn (w : Waiting .wrpgCell s) :
    StaysIn s.a.toNat (bytesInFlight s) s
      (waitNotBusy .wrpgCell (wrpgVerify (wrpgCells (cellsLeft s - 1))) s) := by
  obtain ⟨-, hi, -, hg, -, ho⟩ : _ ∧ s.idx < pageCells s.cfg ∧ _ ∧ s.crPg = true ∧ _ ∧ s.opc = 0x9#4 :=
    w.waits
  have wc := w.complete
  refine w.staysIn ?_
  simp only [wrpgVerify, flashRead16_of_ready wc.bsy]
  split
  · have hcells := (wrpgCells_spec (s := nextIdx (fctlComplete (usePoll s))) (cellsLeft s - 1) wc.bsy wc.pend
      (by simpa using w.unlocked) (wc.pg.trans hg)).staysIn
    obtain ⟨-, -, hc, -⟩ := wf_geometry w.config
    have hn : bytesInFlight s = s.cfg.pageSize := by simp [bytesInFlight, ho]
    have hl : cellsLeft s = pageCells s.cfg - s.idx := rfl
    refine hcells.widen ?_ ?_ <;>
      simp only [nextIdx_a, nextIdx_idx, fctlComplete_a, fctlComplete_idx, usePoll_a, usePoll_idx] <;> omega
  · exact staysIn_of_flash_eq (by simp)

/-- SEQ goes on from a wait in the target of its operation. -/
theorem Waiting.resumeAt_staysIn (w : Waiting p s) :
    StaysIn s.a.toNat (bytesInFlight s) s (resumeAt p s) := by
  have hwaits := w.waits
  cases p
  case wrhwProgram =>
    exact w.staysIn (wrhwVerify_staysIn w.complete.bsy (by simpa using w.unlocked))
  case erpgErase =>
    obtain ⟨-, -, -, hg, he, ho⟩ := hwaits
    exact w.erase_staysIn hg he (by simp [bytesInFlight, show s.opc = _ from ho]) erpgEnd_staysIn
  case wrpgErase =>
    obtain ⟨-, -, -, hg, he, ho⟩ := hwaits
    exact w.erase_staysIn hg he (by simp [bytesInFlight, show s.opc = _ from ho]) wrpgEnable_staysIn
  case wrpgCell => exact w.wrpgCell_staysIn
  all_goals exact hwaits.elim

/-! ### The start of an operation -/

/-- Unlocked, `WRHW` waits for the program that it has started (R111, R61). -/
theorem Working.waiting_wrhwStarted (w : Working false false s) (hl : s.crLock = false) (ha : CellOperand s)
    (ho : s.opc = 0x6#4) : Waiting .wrhwProgram (wrhwStarted s) :=
  { w with
    bsy := rfl, strt := fun hs => absurd (w.strt.symm.trans hs) (by decide), unlocked := hl
    waits := ⟨ha, rfl, rfl, w.per, ho⟩ }

/-- Unlocked, `WRHW` stays in its cell from its start on (R111, R63). -/
theorem wrhw_staysIn (w : Working false false s) (hl : s.crLock = false) (ho : s.opc = 0x6#4) :
    StaysIn s.a.toNat 2 s (wordOp s.a (waitNotBusy .wrhwFirst wrhwWrite) s) := by
  refine wordOp_staysIn fun h1 h2 => ?_
  have hn : bytesInFlight (wrhwStarted s) = 2 := by simp [bytesInFlight, wrhwStarted, programStarted, ho]
  rw [waitNotBusy_of_ready w.bsy, wrhwWrite_of_open w.bsy hl w.per, ← hn]
  exact (w.waiting_wrhwStarted hl ⟨h1, h2⟩ ho).resumeAt_staysIn

/-- Unlocked, `ERPG` and `WRPG` stay in their page from their start on (R121, R123). -/
theorem pageErase_staysIn {q : Pos} (w : Working false false s) (hl : s.crLock = false)
    (hp : p = .erpgErase ∧ s.opc = 0x7#4 ∨ p = .wrpgErase ∧ s.opc = 0x9#4) (hrest : StaysInAfterErase rest) :
    StaysIn s.a.toNat s.cfg.pageSize s (pageOp s.a (waitNotBusy q (eraseStart p rest)) s) := by
  refine pageOp_staysIn fun h1 h2 => ?_
  have hn : bytesInFlight (eraseStarted s) = s.cfg.pageSize := by
    rcases hp with ⟨-, ho⟩ | ⟨-, ho⟩ <;> simp [bytesInFlight, eraseStarted, ho]
  rw [waitNotBusy_of_ready w.bsy, eraseStart_of_open p rest w.bsy hl w.pg (inFlash_pageOperand w.config ⟨h1, h2⟩),
    ← hn]
  exact (w.waiting_eraseStarted hl ⟨h1, h2⟩ hp).erase_staysIn w.pg rfl hn hrest

/-- An operation that starts under lock finds FCTL inert and changes nothing (R105), so it stays where it does
unlocked. -/
theorem exec_staysIn (v : Inv s) {i : Instr}
    (hopen : Working false false (started i s) → s.crLock = false → Accepting s → StaysIn a n s (exec i s)) :
    StaysIn a n s (exec i s) := by
  intro t h
  obtain ⟨hacc, htr⟩ := exec_trace h
  cases hl : s.crLock
  · exact hopen (v.working hacc.2 i) hl hacc t h
  · have hidle := v.idleRegs_of_locked hl
    exact sameOutside_of_eq (htr.keeps_flash_of_inert ⟨hl, hidle.pg, hidle.bsy, rfl⟩) a n

end Parts

/-- Settles O60: an operation that starts locked changes nothing, and unlocked it comes to its wait; at every wait it
goes on in its target. -/
theorem destructiveOperationsStayInTheirTarget : Obligations.DestructiveOperationsStayInTheirTarget := by
  refine ⟨fun s t a v => ⟨fun h => ?_, ?_, ?_⟩, fun s t v h => ?_⟩
  · refine exec_staysIn v (fun w hl hacc => ?_) t
    rw [exec_wrhw hacc]
    exact wrhw_staysIn w hl rfl
  · refine exec_staysIn v (fun w hl hacc => ?_) t
    rw [exec_erpg hacc]
    exact pageErase_staysIn w hl (.inl ⟨rfl, rfl⟩) erpgEnd_staysIn
  · refine exec_staysIn v (fun w hl hacc => ?_) t
    rw [exec_wrpg hacc]
    exact pageErase_staysIn w hl (.inr ⟨rfl, rfl⟩) wrpgEnable_staysIn
  · obtain ⟨-, -, hres⟩ := goesOn_cases h
    exact ((v.with_host (hostAfter s)).waiting h.1).resumeAt_staysIn t hres

end Sys2Proof.Machine
end

section
/-! What `ERPG`, `RDPG` and `WRPG` do with their page in the step that starts them and in the step that goes on from a
wait (42_page_io.md R121 to R125). -/

namespace Sys2Proof.Machine

/-! ### Operands -/

theorem pageOp_of_unaligned {s : State} {a : Word} (ha : a.toNat % s.cfg.pageSize ≠ 0)
    (body : State → Host.Outcome State Fault Refusal) : pageOp a body s = .next (failOp .alignPage s) := by
  have hal : pageAligned s.cfg a = false := Bool.eq_false_iff.mpr fun h => ha (pageAligned_iff.mp h)
  simp [pageOp, hal]

/-- Settles O33: the alignment check comes before everything else. -/
theorem unalignedPageOperandsTouchNothing : Obligations.UnalignedPageOperandsTouchNothing := by
  intro s a hacc ha
  rw [exec_erpg hacc, exec_rdpg hacc, exec_wrpg hacc, exec_pgcrc hacc]
  refine ⟨?_, ?_, ?_, ?_⟩ <;> exact pageOp_of_unaligned (s := started _ s) ha _

/-! ### `RDPG` -/

/-- Settles O43: the loop over the cells of the page starts at the first. -/
theorem rdpgReadsThePage : Obligations.RdpgReadsThePage := by
  intro s a hacc hb ha hi
  obtain ⟨-, -, hc, -⟩ := wf_geometry hacc.1
  obtain ⟨p, he, hin, hout⟩ := rdpgCells_spec (s := startIdx (started (.rdpg a) s)) hb (pageCells s.cfg)
  rw [startIdx_idx, Nat.zero_add] at he
  rw [startIdx_idx, Nat.zero_add, hc] at hin hout
  refine ⟨p, fun x hx => hin x (Nat.zero_le x) hx, fun x hx => hout x (.inr hx), ?_⟩
  rw [exec_rdpg hacc, pageOp_of_inside (s := started _ s) (pageAligned_iff.mpr ha) hi]
  exact congrArg (fun t => Host.Outcome.next (doneOp 0#32 t)) he

/-! ### Under lock -/

theorem clrPer_of_locked {s : State} (hl : s.crLock = true) : clrPer s = s := by
  simp [clrPer, hl]

/-- The first number below `n` at which two lists of cells differ, or `n` where they agree. -/
theorem firstBad_ne_spec (f g : Nat → Half) (n : Nat) :
    firstBad (fun i => f i != g i) n ≤ n ∧ (∀ i, i < firstBad (fun i => f i != g i) n → f i = g i) ∧
      (firstBad (fun i => f i != g i) n < n →
        f (firstBad (fun i => f i != g i) n) ≠ g (firstBad (fun i => f i != g i) n)) := by
  simpa using firstBad_spec (fun i => f i != g i) n

/-- The first cell of the page at `A` that is not `0xFFFF`, or past the last. -/
def firstUnerased (s : State) : Nat :=
  firstBad (fun i => readHalf s.flash (s.a.toNat + 2 * i) != 0xFFFF#16) (pageCells s.cfg)

/-- Where no cell is found to be other than `0xFFFF`, each is. -/
theorem firstUnerased_eq_iff {s : State} : firstUnerased s = pageCells s.cfg ↔
    ∀ i, i < pageCells s.cfg → readHalf s.flash (s.a.toNat + 2 * i) = 0xFFFF#16 := by
  constructor
  · exact fun h i hi => (firstBad_ne_spec _ _ _).2.1 i (hi.trans_eq h.symm)
  · exact fun h => firstBad_none fun i hi => by simp [h i hi]

/-- Locked, a page operation that erases only writes the address register and verifies the page as it is (R121,
R105). -/
theorem pageOp_eraseStart_of_locked {s : State} (q p : Pos) (rest : State → Host.Outcome State Fault Refusal)
    (hb : s.srBsy = false) (hl : s.crLock = true) (ha : PageOperand s) :
    pageOp s.a (waitNotBusy q (eraseStart p rest)) s =
      if firstUnerased s = pageCells s.cfg then rest { s with ar := s.a, idx := pageCells s.cfg }
      else .next (failOp .eraseVerify { s with ar := s.a, idx := firstUnerased s }) := by
  have hcells := eraseVerify_of_cells (s := { s with ar := s.a }) rest hb _ fun _ _ => rfl
  rw [pageOp_of_inside ha.1 ha.2, waitNotBusy_of_ready hb, eraseStart_of_locked p rest hb hl, hcells,
    clrPer_of_locked (s := { s with ar := s.a }) hl]
  rfl

/-- Settles O41: after the scan of the page `ERPG` has nothing more to do. -/
theorem erpgLockedOnlyScans : Obligations.ErpgLockedOnlyScans := by
  intro s a hacc hb hl ha hi
  refine ⟨firstBad_eq_iff_erased hacc.1 s.flash a.toNat, ?_⟩
  have h := pageOp_eraseStart_of_locked (s := started (.erpg a) s) .erpgFirst .erpgErase erpgEnd hb hl
    ⟨pageAligned_iff.mpr ha, hi⟩
  rw [exec_erpg hacc]
  exact h.trans (apply_ite Host.Outcome.next _ _ _).symm

/-- Locked, `WRPG` after the scan of an erased page stops at the first cell whose value in the buffer is not `0xFFFF`
(R123, R105). -/
theorem wrpgEnable_of_locked {s : State} (hb : s.srBsy = false) (hl : s.crLock = true) (hg : s.crPg = false)
    (he : firstUnerased s = pageCells s.cfg) :
    wrpgEnable s =
      let k := firstBad (fun i => readHalf s.pbuf (2 * i) != 0xFFFF#16) (pageCells s.cfg)
      .next (if k < pageCells s.cfg then failOp .writeVerify { s with idx := k }
        else doneOp 0#32 { s with idx := pageCells s.cfg }) := by
  have h := wrpgCells_of_locked (s := startIdx s) (pageCells s.cfg) hb hl hg fun i hi => by
    simpa using firstUnerased_eq_iff.mp he i hi
  rw [wrpgEnable, setPg_of_locked hl, andThen_next, waitNotBusy_of_ready hb, wrpgLoop, h]
  simp [cellValue, startIdx]

/-- Settles O45: nothing is erased and nothing is programmed, so `WRPG` scans the page and then compares. -/
theorem wrpgLockedOnlyCompares : Obligations.WrpgLockedOnlyCompares := by
  intro s a hacc hb hg hl ha hi
  refine ⟨firstBad_eq_iff_erased hacc.1 s.flash a.toNat, ?_⟩
  have h := pageOp_eraseStart_of_locked (s := started (.wrpg a) s) .wrpgFirst .wrpgErase wrpgEnable hb hl
    ⟨pageAligned_iff.mpr ha, hi⟩
  rw [exec_wrpg hacc]
  refine h.trans ?_
  have hle : firstUnerased (started (.wrpg a) s) ≤ pageCells s.cfg := (firstBad_spec _ _).1
  split
  next hj =>
    refine (wrpgEnable_of_locked (s := { started (.wrpg a) s with ar := a, idx := pageCells s.cfg }) hb hl hg
      hj).trans (congrArg Host.Outcome.next ?_)
    exact (if_neg (Nat.not_lt.mpr (Nat.le_of_eq hj.symm))).symm
  next hj => exact congrArg Host.Outcome.next (if_pos (Nat.lt_of_le_of_ne hle hj)).symm

/-! ### The erase -/

theorem erased_of_reliable {c : Config} (h : c.flashReliable = true) (d : Nat) : erased c d = 0xFFFF#16 := by
  simp [erased, h]

/-- The first cell of the page that the erase leaves other than `0xFFFF`, or past the last (R64). -/
def firstFailed (s : State) : Nat :=
  firstBad (fun i => erased s.cfg (s.draws + i) != 0xFFFF#16) (pageCells s.cfg)

/-- What an erase that ended with its cells verified leaves: the array `m`, erasing disabled, the loop index at `j`
(R121). -/
def eraseDone (m : Memory) (j : Nat) (s : State) : State := { pageDone m s with crPer := false, idx := j }

/-- The erase of the page at `A` left `m`: each cell as its erase gives, no other byte changed (R64, R65). -/
def ErasedTo (s : State) (m : Memory) : Prop :=
  (∀ i, i < pageCells s.cfg → readHalf m (s.a.toNat + 2 * i) = erased s.cfg (s.draws + i)) ∧
    SameOutside s.flash m s.a.toNat s.cfg.pageSize

/-- Where FCTL completes before the poll, the wait for the erase ends, and the operation goes on if every cell is
`0xFFFF`, and else fails at the first that is not (R121, R65). -/
theorem eraseWait_of_open {s : State} (p : Pos) (rest : State → Host.Outcome State Fault Refusal)
    (hw : s.cfg.wf = true) (hb : s.srBsy = true) (hp : s.pend = .erase s.a.toNat) (hr : fctlReady s = true)
    (hl : s.crLock = false) (ha : PageOperand s) :
    ∃ m, ErasedTo s m ∧ waitNotBusy p (eraseVerify rest) s =
      if firstFailed s = pageCells s.cfg then rest (eraseDone m (firstFailed s) s)
      else .next (failOp .eraseVerify (eraseDone m (firstFailed s) s)) := by
  obtain ⟨m, hm, hs, h⟩ := eraseWait_of_ready p rest hw hb hp hr (pageAligned_iff.mp ha.1) ha.2
  refine ⟨m, ⟨hm, hs⟩, ?_⟩
  rw [h, eraseVerify_of_cells (s := pageDone m s) rest rfl _ hm, clrPer_of_open (s := pageDone m s) hl]
  refine ite_congr rfl (fun hj => ?_) fun _ => rfl
  rw [show firstFailed s = _ from hj]
  rfl

/-- On a reliable flash an erase fails nowhere and leaves `0xFF` in every byte of its page (R64). -/
theorem ErasedTo.of_reliable {s : State} {m : Memory} (h : ErasedTo s m) (hw : s.cfg.wf = true)
    (hrel : s.cfg.flashReliable = true) : firstFailed s = pageCells s.cfg ∧
      ∀ x, x < s.cfg.pageSize → readByte m (s.a.toNat + x) = 0xFF#8 := by
  have he : ∀ i, erased s.cfg (s.draws + i) = 0xFFFF#16 := fun i => erased_of_reliable hrel _
  refine ⟨firstBad_none fun i _ => by simp [he], (firstBad_eq_iff_erased hw m _).mp ?_⟩
  exact firstBad_none fun i hi => by simp [h.1 i hi, he]

/-- Settles O40: both an `ERPG` that starts and one that goes on come to the end of the wait for its erase. -/
theorem erpgErasesThePage : Obligations.ErpgErasesThePage := by
  refine ⟨fun s a hacc hb hl hg hr ha hi => ?_, fun s v hrun hpos hh hr => ?_⟩
  · have hpage : PageOperand (started (.erpg a) s) := ⟨pageAligned_iff.mpr ha, hi⟩
    obtain ⟨m, hm, h⟩ := eraseWait_of_open (s := eraseStarted (started (.erpg a) s)) .erpgErase erpgEnd hacc.1
      rfl rfl hr hl hpage
    refine ⟨m, hm.1, hm.2, hm.of_reliable hacc.1, ?_⟩
    rw [exec_erpg hacc]
    refine (pageOp_eraseStart_of_open (s := started (.erpg a) s) _ _ _ hacc.1 hb hl hg hpage).trans (h.trans ?_)
    refine (apply_ite Host.Outcome.next _ _ _).symm.trans ?_
    simp only [succeeded, failed, hb]
    rfl
  · have w := v.waiting hrun
    rw [hpos] at w
    obtain ⟨ha, hp, har, -, -, ho⟩ := w.waits
    obtain ⟨m, hm, h⟩ := eraseWait_of_open (s := { s with host := hostAfter s }) .erpgErase erpgEnd v.config
      w.bsy hp hr w.unlocked ha
    refine ⟨m, hm.1, hm.2, ?_⟩
    rw [step_of_waiting v hrun hpos hh]
    refine h.trans ((apply_ite Host.Outcome.next _ _ _).symm.trans ?_)
    simp only [succeeded, failed, Instr.opcode, ← show s.opc = 0x7#4 from ho]
    rfl

end Sys2Proof.Machine
end

section
/-! What an unlocked `WRPG` does in the step that starts it and in the step that goes on from each of its waits
(42_page_io.md R123, R124). -/

namespace Sys2Proof.Machine

/-! ### Cells and free values -/

/-- The first bad number below `n` depends on the numbers below `n` only. -/
theorem firstBad_congr {f g : Nat → Bool} {n : Nat} (h : ∀ i, i < n → f i = g i) :
    firstBad f n = firstBad g n := by
  obtain ⟨h1, h2, h3⟩ := firstBad_spec g n
  exact firstBad_eq h1 (fun i hi => (h i (by omega)).trans (h2 i hi)) fun hlt => (h _ hlt).trans (h3 hlt)

/-- Two memories that agree in cells agree in the bytes of those cells. -/
theorem readByte_eq_of_cells {m p : Memory} {a n : Nat}
    (h : ∀ i, i < n → readHalf m (a + 2 * i) = readHalf p (2 * i)) (x : Nat) (hx : x < 2 * n) :
    readByte m (a + x) = readByte p x := by
  obtain ⟨h0, h1⟩ := halfOf_inj (h (x / 2) (by omega))
  rcases Nat.mod_two_eq_zero_or_one x with hx2 | hx2
  · rwa [show 2 * (x / 2) = x by omega] at h0
  · rwa [show 2 * (x / 2) + 1 = x by omega, show a + 2 * (x / 2) + 1 = a + x by omega] at h1

theorem readHalf_eq_of_outside {m m' : Memory} {a n x : Nat} (h : SameOutside m m' a n)
    (hx : x + 2 ≤ a ∨ a + n ≤ x) : readHalf m' x = readHalf m x := by
  rw [readHalf, readHalf, h x (by omega), h (x + 1) (by omega)]

theorem programmed_after_cells (s : State) (n i : Nat) (old v : Half) :
    programmed s.cfg (drawsAfter s n + i) old v = programmed s.cfg (s.draws + n + i) old v := by
  unfold programmed drawsAfter
  split <;> rfl

/-- On a reliable flash programming an erased cell leaves the value programmed (R64). -/
theorem programmed_of_reliable {c : Config} (h : c.flashReliable = true) (d : Nat) (v : Half) :
    programmed c d 0xFFFF#16 v = v := by
  rw [programmed, if_pos h, show (0xFFFF#16 : Half) = BitVec.allOnes 16 from rfl, BitVec.allOnes_and]

theorem drawsAfter_after (s : State) (n k : Nat) :
    drawsAfter { s with draws := drawsAfter s n } k = drawsAfter s (n + k) := by
  unfold drawsAfter
  split <;> simp [Nat.add_assoc]

/-! ### The waits for the erase and for a cell -/

/-- After its erase is verified an unlocked `WRPG` enables programming and goes over the cells from the first on
(R123). -/
theorem wrpgEnable_writesCells {s : State} (hb : s.srBsy = false) (hn : s.pend = .none) (hl : s.crLock = false)
    (he : s.crPer = false) :
    WritesCells (pageCells s.cfg) { s with crPg := true, idx := 0 } (wrpgEnable s) := by
  rw [wrpgEnable, setPg_of_open hl he, andThen_next, waitNotBusy_of_ready (s := { s with crPg := true }) hb]
  exact wrpgCells_spec (s := startIdx { s with crPg := true }) (pageCells s.cfg) hb hn hl rfl

/-- Where FCTL completes before the poll, `WRPG` goes on from the wait for its erase to the cells, or fails at the
first that the erase leaves other than `0xFFFF` (R123, R162). -/
theorem resumeAt_wrpgErase_of_ready {s : State} (hw : s.cfg.wf = true) (hb : s.srBsy = true)
    (hp : s.pend = .erase s.a.toNat) (hr : fctlReady s = true) (hl : s.crLock = false) (ha : PageOperand s) :
    ∃ m, ErasedTo s m ∧
      if firstFailed s < pageCells s.cfg then
        resumeAt .wrpgErase s = .next (failOp .eraseVerify (eraseDone m (firstFailed s) s))
      else WritesCells (pageCells s.cfg) { eraseDone m 0 s with crPg := true } (resumeAt .wrpgErase s) := by
  obtain ⟨m, hm, h⟩ := eraseWait_of_open .wrpgErase wrpgEnable hw hb hp hr hl ha
  have hle : firstFailed s ≤ pageCells s.cfg := (firstBad_spec _ _).1
  refine ⟨m, hm, ?_⟩
  rw [resumeAt, h]
  split
  next hj => rw [if_neg (Nat.ne_of_lt hj)]
  next hj =>
    rw [if_pos (Nat.le_antisymm hle (Nat.not_lt.mp hj))]
    exact wrpgEnable_writesCells (s := eraseDone m (firstFailed s) s) rfl rfl hl rfl

/-- The state in which a `WRPG` has started its erase (R123, R62). -/
def wrpgStarted (a : Word) (s : State) : State := eraseStarted (started (.wrpg a) s)

/-- The state in which the loop of a `WRPG` that has just started begins, its erase having left `m`. -/
def wrpgLoopStart (m : Memory) (a : Word) (s : State) : State :=
  { eraseDone m 0 (wrpgStarted a s) with crPg := true }

/-- Where FCTL completes before the first poll, a `WRPG` that starts goes on to the cells, or fails at the first that
the erase leaves other than `0xFFFF` (R123, R162). -/
theorem exec_wrpg_of_ready {s : State} {a : Word} (hacc : Accepting s) (hb : s.srBsy = false)
    (hl : s.crLock = false) (hg : s.crPg = false) (hr : fctlReady s = true) (ha : a.toNat % s.cfg.pageSize = 0)
    (hi : inFlash s.cfg a.toNat s.cfg.pageSize = true) :
    ∃ m, ErasedTo (wrpgStarted a s) m ∧
      if firstFailed (wrpgStarted a s) < pageCells s.cfg then
        exec (.wrpg a) s =
          .next (failOp .eraseVerify (eraseDone m (firstFailed (wrpgStarted a s)) (wrpgStarted a s)))
      else WritesCells (pageCells s.cfg) (wrpgLoopStart m a s) (exec (.wrpg a) s) := by
  have hpage : PageOperand (started (.wrpg a) s) := ⟨pageAligned_iff.mpr ha, hi⟩
  have hopen := pageOp_eraseStart_of_open (s := started (.wrpg a) s) .wrpgFirst .wrpgErase wrpgEnable hacc.1 hb hl hg
    hpage
  rw [exec_wrpg hacc, show pageOp a _ _ = _ from hopen]
  exact resumeAt_wrpgErase_of_ready (s := wrpgStarted a s) hacc.1 rfl rfl hr hl hpage

/-- The wait for cell `IDX` is the one that the loop comes to from that cell (R123). -/
theorem resumeAt_wrpgCell {s : State} (hb : s.srBsy = true) (hp : s.pend = .prog (cellAddr s) (pbufCell s))
    (hg : s.crPg = true) (hi : s.idx < pageCells s.cfg) :
    resumeAt .wrpgCell s = wrpgCells (cellsLeft s) { s with srBsy := false, pend := .none } := by
  obtain ⟨n, hn⟩ : ∃ n, cellsLeft s = n + 1 :=
    Nat.exists_eq_succ_of_ne_zero (Nat.sub_ne_zero_of_lt hi)
  have hs : programStarted (cellAddr s) (pbufCell s) { s with srBsy := false, pend := .none } = s := by
    simp only [programStarted, ← hp, ← hb]
  have hw : flashWrite16 (cellAddr s) (pbufCell s) { s with srBsy := false, pend := .none } = .next s := by
    rw [flashWrite16, if_pos (by simp [hg])]
    exact congrArg _ hs
  rw [resumeAt, hn]
  exact (congrArg (fun o => andThen o (waitNotBusy .wrpgCell (wrpgVerify (wrpgCells n)))) hw).symm

/-! ### `WRPG` with FCTL completing before every poll -/

theorem pollReady_of_prompt {s : State} (h : Prompt s) (i : Nat) : pollReady s i = true := by
  obtain ⟨hrest, hm⟩ := h
  rcases Nat.lt_or_ge i s.moves.length with hi | hi
  · rw [pollReady, List.getD_eq_getElem _ _ hi]
    exact hm _ (List.getElem_mem hi)
  · rw [pollReady, List.getD_eq_default _ _ hi, hrest]

/-- What programming cell `i` of an erased page with the buffer's value leaves in it, each cell in turn (R64). -/
def pageProgrammed (s : State) (i : Nat) : Half :=
  programmed s.cfg (s.draws + i) 0xFFFF#16 (readHalf s.pbuf (2 * i))

/-- The first cell whose program leaves another value than the buffer's, or past the last. -/
def firstMismatch (s : State) : Nat :=
  firstBad (fun i => pageProgrammed s i != readHalf s.pbuf (2 * i)) (pageCells s.cfg)

/-- Over an erased page and with FCTL completing before every poll, the loop of `WRPG` never waits: it ends past the
last cell, or at the first whose program leaves another value than the buffer's, the cells above still erased (R123,
R124). -/
theorem WritesCells.of_prompt {s : State} {o : Host.Outcome State Fault Refusal}
    (h : WritesCells (pageCells s.cfg) s o) (hp : Prompt s) (hi : s.idx = 0)
    (he : firstUnerased s = pageCells s.cfg) :
    ∃ m, SameOutside s.flash m s.a.toNat (2 * pageCells s.cfg) ∧
      if firstMismatch s < pageCells s.cfg then
        (∀ i, i ≤ firstMismatch s → readHalf m (s.a.toNat + 2 * i) = pageProgrammed s i) ∧
        (∀ i, firstMismatch s < i → i < pageCells s.cfg → readHalf m (s.a.toNat + 2 * i) = 0xFFFF#16) ∧
        o = .next (failOp .writeVerify { s with
          flash := m, idx := firstMismatch s, crPg := false
          moves := s.moves.drop (firstMismatch s + 1), draws := drawsAfter s (firstMismatch s + 1) })
      else
        (∀ i, i < pageCells s.cfg → readHalf m (s.a.toNat + 2 * i) = readHalf s.pbuf (2 * i)) ∧
        o = .next (doneOp 0#32 { s with
          flash := m, idx := pageCells s.cfg, crPg := false
          moves := s.moves.drop (pageCells s.cfg), draws := drawsAfter s (pageCells s.cfg) }) := by
  have herased := firstUnerased_eq_iff.mp he
  have hv : ∀ i, cellValue s i = readHalf s.pbuf (2 * i) := fun i => by rw [cellValue, hi, Nat.zero_add]
  have hr : ∀ i, i < pageCells s.cfg → cellResult s i = pageProgrammed s i := fun i hin => by
    rw [cellResult, hv, hi, Nat.zero_add, herased i hin, pageProgrammed]
  have hk : firstBad (fun i => cellResult s i != cellValue s i) (pageCells s.cfg) = firstMismatch s :=
    firstBad_congr fun i hin => by rw [hr i hin, hv]
  have hw : firstBad (fun i => !pollReady s i) (pageCells s.cfg) = pageCells s.cfg :=
    firstBad_none fun i _ => by rw [pollReady_of_prompt hp]; rfl
  obtain ⟨m, hs, hlo, ho⟩ := h
  obtain ⟨hle, hgood, -⟩ : firstMismatch s ≤ pageCells s.cfg ∧ (∀ i, i < firstMismatch s → _) ∧ _ :=
    firstBad_ne_spec _ _ _
  simp only [hk, hw, hi, Nat.zero_add, Nat.mul_zero, Nat.add_zero, Nat.lt_irrefl, and_false, ↓reduceIte]
    at hs hlo ho
  split
  next hlt =>
    rw [if_neg (by omega)] at hs hlo
    rw [if_pos hlt] at ho
    refine ⟨m, hs.widen (by omega) (by omega), fun i hin => ?_, fun i h1 h2 => ?_, ho⟩
    · rw [hlo i (by omega), hr i (by omega)]
    · rw [readHalf_eq_of_outside hs (.inr (by omega)), herased i h2]
  next hlt =>
    rw [if_pos (by omega)] at hs hlo
    rw [if_neg hlt] at ho
    refine ⟨m, hs, fun i hin => ?_, ho⟩
    rw [hlo i hin, hr i hin, hgood i (by omega)]

/-- Where no erase fails every cell of the page is `0xFFFF`. -/
theorem ErasedTo.erased {s : State} {m : Memory} (h : ErasedTo s m) (hj : ¬ firstFailed s < pageCells s.cfg)
    (i : Nat) (hi : i < pageCells s.cfg) : readHalf m (s.a.toNat + 2 * i) = 0xFFFF#16 := by
  rw [h.1 i hi]
  exact (firstBad_ne_spec _ _ _).2.1 i (Nat.lt_of_lt_of_le hi (Nat.not_lt.mp hj))

theorem pageProgrammed_wrpgLoopStart (m : Memory) (a : Word) (s : State) (i : Nat) :
    pageProgrammed (wrpgLoopStart m a s) i =
      programmed s.cfg (s.draws + pageCells s.cfg + i) 0xFFFF#16 (readHalf s.pbuf (2 * i)) :=
  programmed_after_cells s _ i _ _

theorem drawsAfter_wrpgLoopStart (m : Memory) (a : Word) (s : State) (n : Nat) :
    drawsAfter (wrpgLoopStart m a s) n = drawsAfter s (pageCells s.cfg + n) :=
  drawsAfter_after s _ n

/-- Settles O44: both a `WRPG` that starts and one that goes on from the wait for its erase come to the end of that
wait and then to the loop; the wait for a cell stands inside the loop; and with FCTL prompt the loop never waits. -/
theorem wrpgWritesThePage : Obligations.WrpgWritesThePage := by
  refine ⟨fun s a hacc hb hl hg hprompt ha hi => ?_, fun s a hacc hb hl hg hr ha hi => ?_,
    fun s v hrun hpos hh hr => ?_, fun s v hrun hpos hh => ?_⟩
  · obtain ⟨m, hm, h⟩ := exec_wrpg_of_ready hacc hb hl hg (fctlReady_of_prompt hprompt) ha hi
    refine ⟨fun hrel => ⟨(hm.of_reliable hacc.1 hrel).1,
      firstBad_none fun i _ => by simp [programmed_of_reliable hrel]⟩, ?_⟩
    by_cases hj : firstFailed (wrpgStarted a s) < pageCells s.cfg
    · refine ⟨m, hm.2, (if_pos hj).mpr ⟨hm.1, ((if_pos hj).mp h).trans ?_⟩⟩
      simp only [failOp, eraseDone, pageDone, wrpgStarted, eraseStarted, started, failed, hb, hg,
        Nat.add_zero, List.drop_one]
      rfl
    · obtain ⟨m', hs, h'⟩ := WritesCells.of_prompt (s := wrpgLoopStart m a s) ((if_neg hj).mp h) hprompt.tail rfl
        (firstUnerased_eq_iff.mpr (hm.erased hj))
      simp only [pageProgrammed_wrpgLoopStart, drawsAfter_wrpgLoopStart, firstMismatch] at h'
      have hmoves : ∀ i, s.moves.drop (1 + i) = s.moves.tail.drop i := fun i => by
        rw [List.drop_tail, Nat.add_comm]
      obtain ⟨-, -, hc, -⟩ := wf_geometry hacc.1
      refine ⟨m', hm.2.trans (hs.widen (Nat.le_refl _) (Nat.le_of_eq (congrArg (a.toNat + ·) hc))),
        (if_neg hj).mpr ?_⟩
      split
      next hk =>
        obtain ⟨hlow, hhigh, ho⟩ := (if_pos hk).mp h'
        refine ⟨hlow, hhigh, ho.trans ?_⟩
        simp only [failed, hb, hmoves]
        rfl
      next hk =>
        obtain ⟨hcells, ho⟩ := (if_neg hk).mp h'
        refine ⟨fun x hx => readByte_eq_of_cells hcells x (hc ▸ hx), ho.trans ?_⟩
        simp only [succeeded, hb, hmoves]
        rfl
  · obtain ⟨m, hm, h⟩ := exec_wrpg_of_ready hacc hb hl hg hr ha hi
    refine ⟨m, hm.1, hm.2, ?_⟩
    simp only [failed, hb]
    exact h
  · have w := v.waiting hrun
    rw [hpos] at w
    obtain ⟨ha, hp, -, -, -, ho⟩ := w.waits
    obtain ⟨m, hm, h⟩ := resumeAt_wrpgErase_of_ready (s := { s with host := hostAfter s }) v.config w.bsy hp hr
      w.unlocked ha
    refine ⟨m, hm.1, hm.2, ?_⟩
    rw [step_of_waiting v hrun hpos hh]
    simp only [failed, Instr.opcode, ← show s.opc = 0x9#4 from ho]
    exact h
  · have w := v.waiting hrun
    rw [hpos] at w
    obtain ⟨-, hi, hp, hg, -⟩ := w.waits
    rw [step_of_waiting v hrun hpos hh, resumeAt_wrpgCell (s := { s with host := hostAfter s }) w.bsy hp hg hi]
    exact wrpgCells_spec (s := { s with srBsy := false, pend := .none, host := hostAfter s }) _ rfl rfl w.unlocked hg

end Sys2Proof.Machine
end

section
/-! How `ERPG` and `WRPG` have ended after any number of polls (42_page_io.md R124, R126, R127). A property that an
operation has after the step that starts it, and that each step in which it goes on keeps, it has after any number of
steps (`exec_run_keeps`). For `ERPG` the property is `ErasedWhenOk`; for `WRPG` it is `WrpgOutcome`, which says also
how far the page is written while SEQ waits for a cell. -/

namespace Sys2Proof.Machine

/-! ### An operation over any number of steps -/

/-- An operation that starts keeps the invariant, as the step does that takes its command (R93). -/
theorem exec_keeps_inv {i : Instr} {s t : State} (v : Inv s) (h : exec i s = .next t) : Inv t := by
  have hstep := step_of_decoded (s := { s with host := .command (encode i) :: s.host }) (exec_trace h).1 rfl
    (decodeAndEncodeAreInverse.1 i)
  exact everyStepKeepsTheInvariant _ t (v.with_host _) (hstep.trans h)

/-- An idle block with nothing from HOST stays as it is (R180). -/
theorem step_of_ended {s : State} (hw : s.cfg.wf = true) (hr : s.run = false) (hh : s.host = []) :
    step s = .next s := by
  simp [step, portCommand, stepWithoutCommand, advance, hw, hr, hh]

/-- The operation `i` that `s` started waits or has ended in `t`, with no move of HOST to come, and `t` has the
property `Q`. -/
structure InOperation (i : Instr) (Q : State → Prop) (s t : State) : Prop where
  inv : Inv t
  host : t.host = []
  opc : t.opc = i.opcode
  a : t.a = i.operandA
  pbuf : t.pbuf = s.pbuf
  cfg : t.cfg = s.cfg
  kept : Q t

/-- A step in which an operation of the invariant goes on resumes it from its wait (R42, R93). -/
theorem GoesOn.resumes {s t : State} {p : Pos} (h : GoesOn s t) (v : Inv s) (hp : s.pos = p) :
    Waiting p { s with host := hostAfter s } ∧ resumeAt p { s with host := hostAfter s } = .next t := by
  obtain ⟨hr, hh, hstep⟩ := h
  subst hp
  exact ⟨(v.with_host (hostAfter s)).waiting hr, (step_of_waiting v hr rfl hh).symm.trans hstep⟩

/-- By induction on the steps: an operation that ended stays as it is. -/
theorem InOperation.run {i : Instr} {Q : State → Prop} {s t u : State} {k : Nat} (h : InOperation i Q s t)
    (hQ : ∀ t u, Inv t → t.opc = i.opcode → Q t → GoesOn t u → Q u)
    (hu : Host.Core.run core k t = .next u) : InOperation i Q s u := by
  induction k generalizing t with
  | zero =>
    cases hu
    exact h
  | succ k ih =>
    cases hr : t.run
    · rw [run_succ_of_next (step_of_ended h.inv.config hr h.host)] at hu
      exact ih h hu
    · have hreset : t.host.head? ≠ some .reset := by simp [h.host]
      obtain ⟨t', ht, -⟩ := step_endsOrPolls_of_running h.inv hr hreset
      have hgo : GoesOn t t' := ⟨hr, hreset, ht⟩
      obtain ⟨ho, ha, -, hhost, -, hcfg⟩ := (goesOn_trace hgo).keeps_latches
      rw [run_succ_of_next ht] at hu
      exact ih
        { inv := everyStepKeepsTheInvariant t t' h.inv ht
          host := hhost.trans (by simp [hostAfter, h.host])
          opc := ho.trans h.opc
          a := ha.trans h.a
          pbuf := (onlyRdpgWritesTheBuffer.2 t t' hgo).trans h.pbuf
          cfg := hcfg.trans h.cfg
          kept := hQ t t' h.inv h.opc h.kept hgo } hu

/-- What an operation has after the step that starts it, and keeps in each in which it goes on, it has after any
number of steps. -/
theorem exec_run_keeps {i : Instr} {Q : State → Prop} {s t u : State} {k : Nat} (hi : ∀ a, i ≠ .rdpg a)
    (v : Inv s) (h : exec i s = .next t) (hh : t.host = []) (hu : Host.Core.run core k t = .next u) (hexec : Q t)
    (hQ : ∀ t u, Inv t → t.opc = i.opcode → Q t → GoesOn t u → Q u) : InOperation i Q s u := by
  obtain ⟨ho, ha, -, -, -, hcfg⟩ := (exec_trace h).2.keeps_latches
  exact InOperation.run ⟨exec_keeps_inv v h, hh, ho, ha, onlyRdpgWritesTheBuffer.1 i s t hi h, hcfg, hexec⟩ hQ hu

/-! ### A property of what the parts of an erase answer -/

/-- The next state that a part of an operation answers, if it does, has the property `Q`. -/
def Yields (Q : State → Prop) (o : Host.Outcome State Fault Refusal) : Prop := ∀ t, o = .next t → Q t

theorem yields_next {Q : State → Prop} {t : State} (h : Q t) : Yields Q (.next t) := by
  rintro _ ⟨⟩
  exact h

/-- Every state that waits for its erase, and every one in which the operation failed before it wrote a cell, has the
property `Q`. -/
structure HeldUntilErased (Q : State → Prop) : Prop where
  fails : ∀ e t, e ≠ .writeVerify → Q (failOp e t)
  waits : ∀ t, t.run = true → t.pos ≠ .wrpgCell → Q t

/-- What comes after a verified erase yields `Q`. -/
def YieldsAfterErase (Q : State → Prop) (rest : State → Host.Outcome State Fault Refusal) : Prop :=
  ∀ s, Working false false s → PageOperand s → firstUnerased s = pageCells s.cfg → Yields Q (rest s)

section Erase

variable {Q : State → Prop} {rest : State → Host.Outcome State Fault Refusal} {p q : Pos} {s : State}

theorem eraseVerify_yields (hQ : HeldUntilErased Q) (w : Working false (!s.crLock) s) (ha : PageOperand s)
    (hrest : YieldsAfterErase Q rest) : Yields Q (eraseVerify rest s) := by
  have hcells := eraseVerify_of_cells rest w.bsy _ fun _ _ => rfl
  rw [hcells]
  split
  next hj =>
    refine hrest _ (w.after_clrPer.at_index (by simp)) (by simpa [PageOperand] using ha) ?_
    simpa [firstUnerased] using hj
  next => exact yields_next (hQ.fails _ _ nofun)

/-- The rest of the operation from the wait for its erase. -/
theorem Waiting.erase_yields (hQ : HeldUntilErased Q) (w : Waiting p s) (hp : p = .erpgErase ∨ p = .wrpgErase)
    (hrest : YieldsAfterErase Q rest) : Yields Q (waitNotBusy p (eraseVerify rest) s) := by
  obtain ⟨ha, hg, he⟩ : PageOperand s ∧ s.crPg = false ∧ s.crPer = true := by
    rcases hp with rfl | rfl
    · obtain ⟨ha, -, -, hg, he, -⟩ := w.waits
      exact ⟨ha, hg, he⟩
    · obtain ⟨ha, -, -, hg, he, -⟩ := w.waits
      exact ⟨ha, hg, he⟩
  cases hr : fctlReady s
  · rw [waitNotBusy_of_not_ready w.bsy hr]
    refine yields_next (hQ.waits _ w.run ?_)
    rcases hp with rfl | rfl <;> nofun
  · rw [waitNotBusy_of_complete w.bsy hr w.waits.pend_ne_none]
    have wc := w.complete
    rw [hg, he] at wc
    exact eraseVerify_yields hQ (by simpa [w.unlocked] using wc) (by simpa [PageOperand] using ha) hrest

/-- A page operation that erases, in the step that starts it, locked or not. -/
theorem pageErase_yields (hQ : HeldUntilErased Q) (w : Working false false s)
    (hp : p = .erpgErase ∧ s.opc = 0x7#4 ∨ p = .wrpgErase ∧ s.opc = 0x9#4) (hrest : YieldsAfterErase Q rest) :
    Yields Q (pageOp s.a (waitNotBusy q (eraseStart p rest)) s) := by
  have hcases := pageOp_cases s.a (waitNotBusy q (eraseStart p rest)) s
  rcases hcases with ⟨-, e⟩ | ⟨-, -, e⟩ | ⟨h1, h2, e⟩ <;> rw [e]
  · exact yields_next (hQ.fails _ _ nofun)
  · rintro t ⟨⟩
  · have ha : PageOperand s := ⟨h1, h2⟩
    rw [waitNotBusy_of_ready w.bsy]
    cases hl : s.crLock
    · rw [eraseStart_of_open p rest w.bsy hl w.pg (inFlash_pageOperand w.config ha)]
      exact (w.waiting_eraseStarted hl ha hp).erase_yields hQ (hp.imp And.left And.left) hrest
    · rw [eraseStart_of_locked p rest w.bsy hl]
      exact eraseVerify_yields (s := { s with ar := s.a }) hQ (by simpa [hl] using { w with }) ha hrest

end Erase

/-! ### `ERPG` -/

/-- Every byte of the page at `A` is `0xFF`. -/
def PageErased (s : State) : Prop := ∀ x, x < s.cfg.pageSize → readByte s.flash (s.a.toNat + x) = 0xFF#8

/-- If the operation ended with success, its page is erased. -/
def ErasedWhenOk (s : State) : Prop := s.run = false → s.ok = true → PageErased s

theorem erasedWhenOk_held : HeldUntilErased ErasedWhenOk where
  fails _ _ _ := fun _ => nofun
  waits _ hr _ := fun hr' => absurd (hr.symm.trans hr') (by decide)

theorem erpgEnd_yields : YieldsAfterErase ErasedWhenOk erpgEnd :=
  fun _ w _ he => yields_next fun _ _ => (firstBad_eq_iff_erased w.config _ _).mp he

/-- An `ERPG` that waits does so for its erase. -/
theorem WaitsFor.pos_of_erpg {s : State} (h : WaitsFor s) (ho : s.opc = 0x7#4) : s.pos = .erpgErase := by
  unfold WaitsFor at h
  split at h <;> simp_all

/-- Settles O42: `ERPG` ends with success only after the scan of its page. -/
theorem erpgSuccessMeansErased : Obligations.ErpgSuccessMeansErased := by
  intro s t u a k v h hh hu hr hok
  have hexec : ErasedWhenOk t := by
    have hacc := (exec_trace h).1
    rw [exec_erpg hacc] at h
    exact pageErase_yields erasedWhenOk_held (v.working hacc.2 (.erpg a)) (.inl ⟨rfl, rfl⟩)
      erpgEnd_yields t h
  have hrun := exec_run_keeps (by simp) v h hh hu hexec fun t u v ho _ hgo => by
    obtain ⟨w, hres⟩ := hgo.resumes v ((v.running hgo.1).1.pos_of_erpg ho)
    exact w.erase_yields erasedWhenOk_held (.inl rfl) erpgEnd_yields u hres
  have herased := hrun.kept hr hok
  rwa [PageErased, hrun.cfg, hrun.a] at herased

/-! ### `WRPG` -/

/-- What cell `i` of the page holds when the cells below `j` are written and the others erased. -/
def writtenCell (s : State) (j i : Nat) : Half := if i < j then readHalf s.pbuf (2 * i) else 0xFFFF#16

theorem writtenCell_of_lt (s : State) {j i : Nat} (h : i < j) : writtenCell s j i = readHalf s.pbuf (2 * i) :=
  if_pos h

theorem writtenCell_of_ge (s : State) {j i : Nat} (h : j ≤ i) : writtenCell s j i = 0xFFFF#16 :=
  if_neg (Nat.not_lt.mpr h)

/-- The cells of the page below `IDX` hold the buffer's values, the others are erased. -/
def WrittenToIdx (s : State) : Prop :=
  ∀ i, i < pageCells s.cfg → readHalf s.flash (s.a.toNat + 2 * i) = writtenCell s s.idx i

/-- `WRPG` stopped at cell `IDX`: the cells below hold the buffer's values, it does not, those above are erased. -/
structure StoppedAtIdx (s : State) : Prop where
  index : s.idx < pageCells s.cfg
  pg : s.crPg = false
  ok : s.ok = false
  differs : readHalf s.flash (s.a.toNat + 2 * s.idx) ≠ readHalf s.pbuf (2 * s.idx)
  others : ∀ i, i < pageCells s.cfg → i ≠ s.idx → readHalf s.flash (s.a.toNat + 2 * i) = writtenCell s s.idx i

/-- How far the page is written where `WRPG` waits for a cell, succeeded or failed at a cell. -/
structure WrpgOutcome (s : State) : Prop where
  waits : s.run = true → s.pos = .wrpgCell → WrittenToIdx s
  done : s.run = false → s.ok = true → PageOperand s ∧
    ∀ i, i < pageCells s.cfg → readHalf s.flash (s.a.toNat + 2 * i) = readHalf s.pbuf (2 * i)
  fails : s.run = false → s.err = errBits .writeVerify → StoppedAtIdx s

theorem wrpgOutcome_held : HeldUntilErased WrpgOutcome where
  fails e _ he :=
    { waits := nofun
      done := fun _ => nofun
      fails := fun _ h => by cases e <;> simp_all [errBits] }
  waits t hr hp :=
    { waits := fun _ h => absurd h hp
      done := fun h => absurd (hr.symm.trans h) (by decide)
      fails := fun h => absurd (hr.symm.trans h) (by decide) }

/-- A cell of the page after the loop of `WRPG` wrote `k` cells from cell `IDX` on, and found the buffer's value in
the first `g` of them. -/
theorem WrittenToIdx.after_cells {s : State} {m : Memory} {k g : Nat} (h : WrittenToIdx s)
    (hs : SameOutside s.flash m (s.a.toNat + 2 * s.idx) (2 * k))
    (hm : ∀ i, i < k → readHalf m (s.a.toNat + 2 * (s.idx + i)) = cellResult s i)
    (hgood : ∀ i, i < g → cellResult s i = cellValue s i) (hg : g ≤ k) {i : Nat} (hi : i < pageCells s.cfg)
    (hout : i < s.idx + g ∨ s.idx + k ≤ i) : readHalf m (s.a.toNat + 2 * i) = writtenCell s (s.idx + g) i := by
  by_cases hin : s.idx ≤ i ∧ i < s.idx + g
  · obtain ⟨d, rfl⟩ := Nat.exists_eq_add_of_le hin.1
    rw [hm d (by omega), hgood d (by omega), writtenCell_of_lt s hin.2, cellValue]
  · rw [readHalf_eq_of_outside hs (by omega), h i hi, writtenCell, writtenCell]
    exact if_congr (by omega) rfl rfl

/-- The loop of `WRPG` over the cells that are left of a page written so far to cell `IDX` (R123, R124). -/
theorem WritesCells.outcome {s : State} {n : Nat} {o : Host.Outcome State Fault Refusal} (h : WritesCells n s o)
    (hn : s.idx + n = pageCells s.cfg) (hr : s.run = true) (ha : PageOperand s) (hwritten : WrittenToIdx s) :
    Yields WrpgOutcome o := by
  obtain ⟨m, hs, hm, rfl⟩ := h
  obtain ⟨hk, hgood, hbad⟩ := firstBad_ne_spec (cellResult s) (cellValue s) n
  have hw := (firstBad_spec (fun i => !pollReady s i) n).1
  generalize firstBad (fun i => cellResult s i != cellValue s i) n = k at *
  generalize firstBad (fun i => !pollReady s i) n = w at *
  split
  next hwait =>
    rw [if_pos hwait.1] at hs hm
    have hrun : s.run ≠ false := by simp [hr]
    refine yields_next ⟨fun _ _ i hi => ?_, fun h => absurd h hrun, fun h => absurd h hrun⟩
    exact hwritten.after_cells hs hm (fun i hi => hgood i (by omega)) (Nat.le_refl w) hi (by omega)
  next hwait =>
    split
    next hlt =>
      rw [if_neg (by omega)] at hs hm
      have hdiffers := hbad hlt
      rw [← hm k (by omega)] at hdiffers
      refine yields_next ⟨nofun, fun _ => nofun, fun _ _ => ⟨?_, rfl, rfl, hdiffers, fun i hi hne => ?_⟩⟩
      · exact show s.idx + k < pageCells s.cfg by omega
      · have hne : i ≠ s.idx + k := hne
        exact hwritten.after_cells hs hm hgood (Nat.le_succ k) hi (by omega)
    next hge =>
      rw [if_pos (by omega)] at hs hm
      refine yields_next ⟨nofun, fun _ _ => ⟨ha, fun i hi => ?_⟩, nofun⟩
      have hi : i < pageCells s.cfg := hi
      have hlt : i < s.idx + w := by omega
      refine Eq.trans ?_ (writtenCell_of_lt s hlt)
      exact hwritten.after_cells hs hm (fun i hi => hgood i (by omega)) (Nat.le_refl w) hi (.inl hlt)

/-- Over an erased page with nothing enabled `WRPG` writes no cell (R123, R105). -/
theorem wrpgEnable_yields_of_locked {s : State} (w : Working false false s) (hl : s.crLock = true)
    (ha : PageOperand s) (he : firstUnerased s = pageCells s.cfg) : Yields WrpgOutcome (wrpgEnable s) := by
  have hcells := firstUnerased_eq_iff.mp he
  obtain ⟨-, hgood, hbad⟩ := firstBad_ne_spec (fun i => readHalf s.pbuf (2 * i)) (fun _ => 0xFFFF#16)
    (pageCells s.cfg)
  rw [wrpgEnable_of_locked w.bsy hl w.pg he]
  generalize firstBad (fun i => readHalf s.pbuf (2 * i) != 0xFFFF#16) (pageCells s.cfg) = k at *
  refine yields_next ?_
  split
  next hlt =>
    refine ⟨nofun, fun _ => nofun, fun _ _ => ⟨hlt, w.pg, rfl, ?_, fun i hi _ => (hcells i hi).trans ?_⟩⟩
    · exact fun h => hbad hlt (h.symm.trans (hcells k hlt))
    · rcases Nat.lt_or_ge i k with hik | hik
      · exact (hgood i hik).symm.trans (writtenCell_of_lt s hik).symm
      · exact (writtenCell_of_ge s hik).symm
  next hge =>
    refine ⟨nofun, fun _ _ => ⟨ha, fun i hi => (hcells i hi).trans (hgood i ?_).symm⟩, nofun⟩
    exact Nat.lt_of_lt_of_le hi (Nat.not_lt.mp hge)

theorem wrpgEnable_yields : YieldsAfterErase WrpgOutcome wrpgEnable := by
  intro s w ha he
  cases hl : s.crLock
  · exact (wrpgEnable_writesCells w.bsy w.pend hl w.per).outcome (Nat.zero_add _) w.run ha
      (firstUnerased_eq_iff.mp he)
  · exact wrpgEnable_yields_of_locked w hl ha he

/-- A `WRPG` that waits does so for its erase or for a cell. -/
theorem WaitsFor.pos_of_wrpg {s : State} (h : WaitsFor s) (ho : s.opc = 0x9#4) :
    s.pos = .wrpgErase ∨ s.pos = .wrpgCell := by
  unfold WaitsFor at h
  split at h <;> simp_all

/-- A `WRPG` that goes on, from either of its waits. -/
theorem wrpgOutcome_of_goesOn {t u : State} (v : Inv t) (ho : t.opc = 0x9#4) (hq : WrpgOutcome t) (hgo : GoesOn t u) :
    WrpgOutcome u := by
  rcases (v.running hgo.1).1.pos_of_wrpg ho with hp | hp <;> obtain ⟨w, hres⟩ := hgo.resumes v hp
  · exact w.erase_yields wrpgOutcome_held (.inr rfl) wrpgEnable_yields u hres
  · obtain ⟨ha, hi, hpend, hg, -, -⟩ := w.waits
    have hcells := wrpgCells_spec (s := { t with host := hostAfter t, srBsy := false, pend := .none })
      (cellsLeft t) rfl rfl w.unlocked hg
    rw [resumeAt_wrpgCell w.bsy hpend hg hi] at hres
    exact hcells.outcome (Nat.add_sub_cancel' (Nat.le_of_lt hi)) hgo.1 ha (hq.waits hgo.1 hp) u hres

/-- Every `WRPG`, after any number of steps. -/
theorem wrpg_run_outcome {s t u : State} {a : Word} {k : Nat} (v : Inv s) (h : exec (.wrpg a) s = .next t)
    (hh : t.host = []) (hu : Host.Core.run core k t = .next u) : InOperation (.wrpg a) WrpgOutcome s u := by
  refine exec_run_keeps (by simp) v h hh hu ?_ fun _ _ => wrpgOutcome_of_goesOn
  have hacc := (exec_trace h).1
  rw [exec_wrpg hacc] at h
  exact pageErase_yields wrpgOutcome_held (v.working hacc.2 (.wrpg a)) (.inr ⟨rfl, rfl⟩) wrpgEnable_yields t h

/-- Settles O46: the cells below the one where `WRPG` stopped are written, those above erased. -/
theorem wrpgAbortsAtTheFirstMismatch : Obligations.WrpgAbortsAtTheFirstMismatch := by
  intro s t u a k v h hh hu hr herr
  obtain ⟨-, -, -, (ha : u.a = a), hpbuf, hcfg, hout⟩ := wrpg_run_outcome v h hh hu
  obtain ⟨hi, hg, hok, hdiffers, hothers⟩ := hout.fails hr herr
  rw [hcfg] at hi
  rw [ha, hpbuf] at hdiffers
  rw [ha, hcfg] at hothers
  refine ⟨hi, hg, hok, fun i hlt => ?_, hdiffers, fun i hgt hin => ?_⟩
  · rw [hothers i (by omega) (by omega), writtenCell_of_lt u hlt, hpbuf]
  · exact (hothers i hin (by omega)).trans (writtenCell_of_ge u (by omega))

/-- Settles O47: `RDPG` returns the bytes of the page that `WRPG` left, which are the buffer's. -/
theorem writeThenReadReturnsTheBuffer : Obligations.WriteThenReadReturnsTheBuffer := by
  intro s t u w a k v h hh hu hr hok hacc hb hwcfg hwflash
  obtain ⟨-, -, -, (ha : u.a = a), hpbuf, hcfg, hout⟩ := wrpg_run_outcome v h hh hu
  obtain ⟨⟨hal, hi⟩, hcells⟩ := hout.done hr hok
  rw [ha, ← hwcfg] at hal hi
  rw [ha, ← hwflash, ← hwcfg, hpbuf] at hcells
  obtain ⟨p, hp, -, he⟩ := rdpgReadsThePage w a hacc hb (pageAligned_iff.mp hal) hi
  obtain ⟨-, -, hc, -⟩ := wf_geometry hacc.1
  rw [hwcfg.trans hcfg] at hp hc hcells
  exact ⟨_, he, rfl, fun x hx => (hp x hx).trans (readByte_eq_of_cells hcells x (hc ▸ hx))⟩

end Sys2Proof.Machine
end

section
/-! The CRC engine (43_crc.md): the staged reversal `reflect32` is the bit reversal (R138, R142), what the cells of a
word feed to the accumulator (R140), and why the 32 steps on that word are four times 8 steps on a byte (R145). -/

namespace Sys2Proof.Machine

/-! ### Bit reversal -/

/-- A mask for `swapGroups k`: bit `i` is set where `i` lies in the lower group of its pair, with the partner `k + i`,
and clear where it lies in the upper, with the partner `i - k`. The partner is `i ^^^ k` in both cases. -/
abbrev SelectsLowerGroups (k : Nat) (mask : Word) : Prop :=
  ∀ i, i < 32 →
    (mask.getLsbD i = true ∧ i ^^^ k = k + i ∧ (i < k ∨ mask.getLsbD (i - k) = false)) ∨
    (mask.getLsbD i = false ∧ i ^^^ k = i - k ∧ k ≤ i ∧ mask.getLsbD (i - k) = true)

theorem getLsbD_swapGroups {k : Nat} {mask : Word} (hm : SelectsLowerGroups k mask) (v : Word) {i : Nat}
    (hi : i < 32) : (swapGroups k mask v).getLsbD i = v.getLsbD (i ^^^ k) := by
  simp only [swapGroups, BitVec.getLsbD_or, BitVec.getLsbD_and, BitVec.getLsbD_ushiftRight,
    BitVec.getLsbD_shiftLeft]
  rcases hm i hi with ⟨hset, hx, hfirst | hclear⟩ | ⟨hclear, hx, hle, hset⟩
  · rw [hset, hx, decide_eq_true hfirst]
    simp
  · rw [hset, hx, hclear]
    simp
  · rw [hclear, hx, hset, decide_eq_true hi, decide_eq_false (Nat.not_lt.mpr hle)]
    simp

/-- The five stages together send bit `i` to bit `i ^^^ 31`, which is `31 - i`. -/
theorem getLsbD_reflect32 (v : Word) {i : Nat} (hi : i < 32) :
    (reflect32 v).getLsbD i = v.getLsbD (31 - i) := by
  have hlt {k j : Nat} (hk : k < 32) (hj : j < 32) : j ^^^ k < 32 := Nat.xor_lt_two_pow (n := 5) hj hk
  have h16 := hlt (k := 16) (by decide) hi
  have h8 := hlt (k := 8) (by decide) h16
  have h4 := hlt (k := 4) (by decide) h8
  have h2 := hlt (k := 2) (by decide) h4
  have hx : ∀ i, i < 32 → i ^^^ 16 ^^^ 8 ^^^ 4 ^^^ 2 ^^^ 1 = 31 - i := by decide
  rw [reflect32, getLsbD_swapGroups (by decide) _ hi,
    getLsbD_swapGroups (by decide) _ h16,
    getLsbD_swapGroups (by decide) _ h8,
    getLsbD_swapGroups (by decide) _ h4,
    getLsbD_swapGroups (by decide) _ h2, hx i hi]

theorem reflect32_eq_reverse (v : Word) : reflect32 v = v.reverse := by
  apply BitVec.eq_of_getLsbD_eq
  intro i hi
  rw [getLsbD_reflect32 v hi, BitVec.getLsbD_reverse, BitVec.getMsbD_eq_getLsbD, decide_eq_true hi, Bool.true_and]

/-- Settles O49: the staged reversal is the reversal of the library. -/
theorem reflectionIsAnInvolution : Obligations.ReflectionIsAnInvolution := by
  refine ⟨fun v _ => getLsbD_reflect32 v, fun v => ?_, by decide, by decide⟩
  rw [reflect32_eq_reverse, reflect32_eq_reverse, BitVec.reverse_reverse_eq]

/-- Settles O48: the answer is the staged reversal of the operand. -/
theorem reflReversesTheBits : Obligations.ReflReversesTheBits :=
  fun _ v hacc => ⟨reflect32 v, fun _ => getLsbD_reflect32 v, exec_refl hacc v⟩

/-! ### Input conditioning -/

theorem shiftLeft_or_eq_append {n : Nat} (x y : BitVec n) :
    x.setWidth (n + n) <<< n ||| y.setWidth (n + n) = x ++ y := by
  rw [← BitVec.setWidth_append_eq_shiftLeft_setWidth_or, BitVec.setWidth_eq]

theorem reverse_append_of_same_width {n : Nat} (x y : BitVec n) :
    (x ++ y).reverse = y.reverse ++ x.reverse :=
  BitVec.reverse_append

theorem halfOf_eq_append (lo hi : Byte) : halfOf lo hi = hi ++ lo :=
  (BitVec.or_comm _ _).trans (shiftLeft_or_eq_append hi lo)

theorem wordOf_eq_append (h0 h1 : Half) : wordOf h0 h1 = h1 ++ h0 :=
  (BitVec.or_comm _ _).trans (shiftLeft_or_eq_append h1 h0)

theorem bswap16_halfOf (lo hi : Byte) : bswap16 (halfOf lo hi) = lo ++ hi :=
  congr (congrArg HAppend.hAppend (lowByte_halfOf lo hi)) (highByte_halfOf lo hi)

theorem append_halves (b0 b1 b2 b3 : Byte) : (b0 ++ b1) ++ (b2 ++ b3) = b0 ++ b1 ++ b2 ++ b3 :=
  BitVec.append_assoc'

theorem condIn_false (b0 b1 b2 b3 : Byte) :
    condIn false (halfOf b0 b1) (halfOf b2 b3) = b0 ++ b1 ++ b2 ++ b3 := by
  rw [condIn, bswap16_halfOf, bswap16_halfOf, ← append_halves]
  exact shiftLeft_or_eq_append (b0 ++ b1) (b2 ++ b3)

theorem condIn_true (b0 b1 b2 b3 : Byte) :
    condIn true (halfOf b0 b1) (halfOf b2 b3) = b0.reverse ++ b1.reverse ++ b2.reverse ++ b3.reverse :=
  calc reflect32 (wordOf (halfOf b0 b1) (halfOf b2 b3))
    _ = ((b3 ++ b2) ++ (b1 ++ b0)).reverse := by
      rw [reflect32_eq_reverse, wordOf_eq_append, halfOf_eq_append, halfOf_eq_append]
    _ = (b1 ++ b0).reverse ++ (b3 ++ b2).reverse := reverse_append_of_same_width _ _
    _ = (b0.reverse ++ b1.reverse) ++ (b2.reverse ++ b3.reverse) :=
      congrArg₂ _ (reverse_append_of_same_width _ _) (reverse_append_of_same_width _ _)
    _ = b0.reverse ++ b1.reverse ++ b2.reverse ++ b3.reverse := append_halves ..

/-- Settles O50: with reflection the bytes are in address order too, since the low cell of the word stands in its low
half and is reversed into the high one. -/
theorem inputConditioningOrdersTheBytes : Obligations.InputConditioningOrdersTheBytes :=
  fun b0 b1 b2 b3 => ⟨condIn_false b0 b1 b2 b3, condIn_true b0 b1 b2 b3⟩

/-! ### Steps of the accumulator -/

theorem crcShifts_add (poly : Word) (m n : Nat) (c : Word) :
    crcShifts poly (m + n) c = crcShifts poly n (crcShifts poly m c) := by
  induction m generalizing c with
  | zero => rw [Nat.zero_add, crcShifts]
  | succ m ih => rw [Nat.succ_add, crcShifts, crcShifts, ih]

/-- A step looks at the top bit only, so a value without it is only shifted. -/
theorem crcShift_xor {d : Word} (hd : d.getLsbD 31 = false) (poly c : Word) :
    crcShift poly (c ^^^ d) = crcShift poly c ^^^ d <<< 1 := by
  unfold crcShift
  rw [BitVec.getLsbD_xor, hd, Bool.xor_false, BitVec.shiftLeft_xor_distrib]
  split
  · rw [BitVec.xor_assoc, BitVec.xor_assoc, BitVec.xor_comm poly]
  · rfl

/-- `n` steps look at the top `n` bits only. -/
theorem crcShifts_xor {n : Nat} {d : Word} (hd : ∀ i, 32 ≤ i + n → d.getLsbD i = false) (poly c : Word) :
    crcShifts poly n (c ^^^ d) = crcShifts poly n c ^^^ d <<< n := by
  induction n generalizing c d with
  | zero => rw [crcShifts, crcShifts, BitVec.shiftLeft_zero]
  | succ n ih =>
    have hnext : ∀ i, 32 ≤ i + n → (d <<< 1).getLsbD i = false := by
      intro i hi
      rw [BitVec.getLsbD_shiftLeft]
      by_cases h0 : i < 1
      · rw [decide_eq_true h0, Bool.not_true, Bool.and_false, Bool.false_and]
      · rw [hd (i - 1) (by omega), Bool.and_false]
    rw [crcShifts, crcShifts, crcShift_xor (hd 31 (by omega)), ih hnext, ← BitVec.shiftLeft_add, Nat.add_comm 1 n]

/-- Byte `j` of a word from the top, the order in which the accumulator takes them. -/
def wordByte (x : Word) (j : Nat) : Byte := x.extractLsb' (24 - 8 * j) 8

theorem wordByte_shiftLeft (x : Word) {j : Nat} (hj : j < 3) : wordByte (x <<< 8) j = wordByte x (j + 1) := by
  apply BitVec.eq_of_getLsbD_eq
  intro i hi
  have hrange : 24 - 8 * j + i < 32 ∧ ¬ 24 - 8 * j + i < 8 := by omega
  have hbit : 24 - 8 * j + i - 8 = 24 - 8 * (j + 1) + i := by omega
  simp only [wordByte, BitVec.getLsbD_extractLsb', BitVec.getLsbD_shiftLeft, hrange, hbit, decide_true,
    decide_false, Bool.not_false, Bool.true_and]

/-- A word is its top byte and the 24 bits below it. -/
theorem topByte_xor_rest (x : Word) :
    x = (wordByte x 0).setWidth 32 <<< 24 ^^^ (x.setWidth 24).setWidth 32 := by
  apply BitVec.eq_of_getLsbD_eq
  intro i hi
  by_cases h : i < 24
  · simp [h, hi]
  · simp [wordByte, h, hi, show i - 24 < 8 by omega, show 24 + (i - 24) = i by omega]

/-- Eight steps take the top byte of a word into the accumulator and bring the next byte to the top. -/
theorem crcShifts_eight (poly c x : Word) :
    crcShifts poly 8 (c ^^^ x) = crcByte poly false c (wordByte x 0) ^^^ x <<< 8 := by
  have hrest : ∀ i, 32 ≤ i + 8 → ((x.setWidth 24).setWidth 32).getLsbD i = false := by
    intro i hi
    simp [show ¬ i < 24 by omega]
  have hshift : (x.setWidth 24).setWidth 32 <<< 8 = x <<< 8 := by
    apply BitVec.eq_of_getLsbD_eq
    intro i hi
    simp [show i - 8 < 24 by omega, show i - 8 < 32 by omega]
  calc crcShifts poly 8 (c ^^^ x)
    _ = crcShifts poly 8 (c ^^^ (wordByte x 0).setWidth 32 <<< 24 ^^^ (x.setWidth 24).setWidth 32) := by
      rw [BitVec.xor_assoc, ← topByte_xor_rest]
    _ = crcByte poly false c (wordByte x 0) ^^^ x <<< 8 := by
      rw [crcShifts_xor hrest, hshift]
      rfl

/-- The bytes of a word, the top one first. -/
def wordBytes (x : Word) : List Byte := [wordByte x 0, wordByte x 1, wordByte x 2, wordByte x 3]

theorem extractByte_append {n : Nat} (x : BitVec n) (b : Byte) (k : Nat) :
    (x ++ b).extractLsb' (k + 8) 8 = x.extractLsb' k 8 := by
  rw [BitVec.extractLsb'_append_eq_of_le (Nat.le_add_left 8 k), Nat.add_sub_cancel]

theorem wordBytes_append (b0 b1 b2 b3 : Byte) : wordBytes (b0 ++ b1 ++ b2 ++ b3) = [b0, b1, b2, b3] := by
  have h0 : wordByte (b0 ++ b1 ++ b2 ++ b3) 0 = b0 :=
    calc wordByte (b0 ++ b1 ++ b2 ++ b3) 0
      _ = (b0 ++ b1 ++ b2).extractLsb' 16 8 := extractByte_append _ b3 16
      _ = (b0 ++ b1).extractLsb' 8 8 := extractByte_append _ b2 8
      _ = b0 := BitVec.extractLsb'_append_eq_left
  have h1 : wordByte (b0 ++ b1 ++ b2 ++ b3) 1 = b1 :=
    calc wordByte (b0 ++ b1 ++ b2 ++ b3) 1
      _ = (b0 ++ b1 ++ b2).extractLsb' 8 8 := extractByte_append _ b3 8
      _ = (b0 ++ b1).extractLsb' 0 8 := extractByte_append _ b2 0
      _ = b1 := BitVec.extractLsb'_append_eq_right
  have h2 : wordByte (b0 ++ b1 ++ b2 ++ b3) 2 = b2 :=
    calc wordByte (b0 ++ b1 ++ b2 ++ b3) 2
      _ = (b0 ++ b1 ++ b2).extractLsb' 0 8 := extractByte_append _ b3 0
      _ = b2 := BitVec.extractLsb'_append_eq_right
  have h3 : wordByte (b0 ++ b1 ++ b2 ++ b3) 3 = b3 := BitVec.extractLsb'_append_eq_right
  rw [wordBytes, h0, h1, h2, h3]

/-- The 32 steps on a word are 8 steps on each of its bytes. -/
theorem crcStep_eq_crcBytes (poly acc x : Word) :
    crcStep poly acc x = (wordBytes x).foldl (crcByte poly false) acc := by
  have hend : x <<< 8 <<< 8 <<< 8 <<< 8 = 0#32 := by
    rw [← BitVec.shiftLeft_add, ← BitVec.shiftLeft_add, ← BitVec.shiftLeft_add,
      BitVec.shiftLeft_eq_zero (by decide)]
  rw [crcStep, crcShifts_add poly 24 8, crcShifts_add poly 16 8, crcShifts_add poly 8 8]
  simp only [crcShifts_eight, wordByte_shiftLeft, hend, BitVec.xor_zero, wordBytes, List.foldl_cons, List.foldl_nil,
    Nat.reduceLT, Nat.reduceAdd]

/-! ### Words and bytes of a page -/

/-- The byte that is fed for `b` (R140, R145). -/
def fedByte (reflectIn : Bool) (b : Byte) : Byte := if reflectIn then rev8 b else b

theorem condIn_eq_append (reflectIn : Bool) (b0 b1 b2 b3 : Byte) :
    condIn reflectIn (halfOf b0 b1) (halfOf b2 b3) =
      fedByte reflectIn b0 ++ fedByte reflectIn b1 ++ fedByte reflectIn b2 ++ fedByte reflectIn b3 := by
  cases reflectIn
  · exact condIn_false b0 b1 b2 b3
  · exact condIn_true b0 b1 b2 b3

theorem foldl_crcByte_map_fedByte (poly acc : Word) (reflectIn : Bool) (bs : List Byte) :
    (bs.map (fedByte reflectIn)).foldl (crcByte poly false) acc = bs.foldl (crcByte poly reflectIn) acc :=
  List.foldl_map

/-- Four bytes in address order, starting at `a`. -/
theorem map_readByte_range'_four (m : Memory) (a k : Nat) :
    (List.range' k 4).map (fun j => readByte m (a + j)) =
      [readByte m (a + k), readByte m (a + k + 1), readByte m (a + k + 2), readByte m (a + k + 2 + 1)] := by
  simp [List.range'_succ, Nat.add_assoc]

/-- One word of the page is its four bytes in address order. -/
theorem crcStep_pageWord (poly acc : Word) (reflectIn : Bool) (m : Memory) (a k : Nat) :
    crcStep poly acc (pageWord reflectIn m a k) =
      ((List.range' (4 * k) 4).map fun j => readByte m (a + j)).foldl (crcByte poly reflectIn) acc := by
  rw [pageWord, readHalf, readHalf, condIn_eq_append, crcStep_eq_crcBytes, wordBytes_append,
    map_readByte_range'_four, ← foldl_crcByte_map_fedByte poly acc reflectIn]
  rfl

/-- The first `n` words of the page are its first `4 * n` bytes (R145). -/
theorem foldl_crcStep_pageWords (poly acc : Word) (reflectIn : Bool) (m : Memory) (a n : Nat) :
    ((List.range' 0 n).map (pageWord reflectIn m a)).foldl (crcStep poly) acc =
      ((List.range' 0 (4 * n)).map fun j => readByte m (a + j)).foldl (crcByte poly reflectIn) acc := by
  induction n with
  | zero => rfl
  | succ n ih =>
    rw [Nat.mul_succ, ← List.range'_append_1, ← List.range'_append_1, List.map_append, List.map_append,
      List.foldl_append, List.foldl_append, ih, Nat.zero_add, Nat.zero_add]
    exact crcStep_pageWord poly _ reflectIn m a n

/-! ### `PGCRC` -/

/-- Settles O51: the loop takes the words of the page into the accumulator, which is the byte-wise CRC of the page's
bytes. -/
theorem pgcrcIsTheBytewiseCrc : Obligations.PgcrcIsTheBytewiseCrc := by
  intro s a hacc hb hen ha hi
  obtain ⟨-, -, -, hwords, -⟩ := wf_geometry hacc.1
  have hloop := crcWords_spec (s := startIdx (crcReset (started (.pgcrc a) s))) hb (pageWords s.cfg)
  have hcrc := foldl_crcStep_pageWords s.cfg.poly s.cfg.crcInit s.cfg.reflectIn s.flash a.toNat (pageWords s.cfg)
  rw [hwords, ← List.range_eq_range' (n := s.cfg.pageSize)] at hcrc
  have hclock : (!(started (.pgcrc a) s).crcen) = false := congrArg not hen
  refine ⟨0 + pageWords s.cfg, ?_⟩
  rw [exec_pgcrc hacc, pageOp_of_inside (s := started _ s) (pageAligned_iff.mpr ha) hi, hclock,
    if_neg Bool.false_ne_true]
  refine (congrArg (fun t => Host.Outcome.next (endPgcrc t)) hloop).trans ?_
  rw [bytewiseCrc, pageBytes, ← hcrc]
  rfl

end Sys2Proof.Machine
end

section
/-! The errors an operation reports (60_exceptions.md R157 to R162) and the one that never answers (R168, R191). An
operation ends by `done` or by `fail`; each of its parts fails with the errors of that part only (`FailsOnlyWith`), and
what is put together from parts with the errors of those. With a stuck FCTL no poll ever lets a part go on. -/

namespace Sys2Proof.Machine

/-! ### The errors of the parts -/

/-- If the operation has ended with an error, its code is that of one of `es`. -/
def Reports (es : List ErrCode) (t : State) : Prop :=
  t.run = false → t.ok = false → ∃ e ∈ es, t.err = errBits e

/-- A part of an operation that runs ends it, if it does so with an error, with one of `es`. -/
def FailsOnlyWith (es : List ErrCode) (part : State → Host.Outcome State Fault Refusal) : Prop :=
  ∀ s, s.run = true → Yields (Reports es) (part s)

theorem yields_refused {Q : State → Prop} {r : Refusal} : Yields Q (.refused r) := by
  rintro _ ⟨⟩

theorem yields_fault {Q : State → Prop} {r : Fault} : Yields Q (.fault r) := by
  rintro _ ⟨⟩

@[simp] theorem flashRead16_run (a : Nat) (s : State) : (flashRead16 a s).2.run = s.run := by
  rcases flashRead16_state a s with e | e <;> rw [e]

@[simp] theorem eraseScan_run (n : Nat) (s : State) : (eraseScan n s).2.run = s.run := by
  induction n generalizing s with
  | zero => rfl
  | succ n ih =>
    unfold eraseScan
    split
    · simp [ih]
    · simp

theorem setPg_run {s t : State} (h : setPg s = .next t) : t.run = s.run := by
  obtain ⟨b, rfl⟩ := setPg_frame h
  rfl

theorem setPer_run {s t : State} (h : setPer s = .next t) : t.run = s.run := by
  obtain ⟨b, rfl⟩ := setPer_frame h
  rfl

theorem setStrt_run {s t : State} (h : setStrt s = .next t) : t.run = s.run := by
  obtain ⟨b, p, c, rfl⟩ := setStrt_frame h
  rfl

theorem flashWrite16_run {a : Nat} {v : Half} {s t : State} (h : flashWrite16 a v s = .next t) :
    t.run = s.run := by
  obtain ⟨p, c, rfl⟩ := flashWrite16_frame h
  rfl

section Parts

variable {es : List ErrCode} {e : ErrCode} {s : State} {rest : State → Host.Outcome State Fault Refusal}

theorem reports_doneOp (v : Word) (s : State) : Reports es (doneOp v s) := nofun

theorem reports_failOp (he : e ∈ es) (s : State) : Reports es (failOp e s) := fun _ _ => ⟨e, he, rfl⟩

theorem reports_of_running (hr : s.run = true) : Reports es s := fun h0 => by simp [hr] at h0

theorem reports_endUnlock (he : .unlock ∈ es) (s : State) : Reports es (endUnlock s) := by
  unfold endUnlock
  split
  · exact reports_failOp he s
  · exact reports_doneOp _ s

/-- A poll that finds the busy flag set ends nothing. -/
theorem FailsOnlyWith.wait (hrest : FailsOnlyWith es rest) (p : Pos) :
    FailsOnlyWith es (waitNotBusy p rest) := by
  intro s hr t h
  rcases waitNotBusy_cases h with ⟨-, h⟩ | ⟨-, -, -, h⟩ | ⟨-, -, rfl⟩
  · exact hrest s hr t h
  · exact hrest _ (by simpa using hr) t h
  · exact reports_of_running hr

theorem FailsOnlyWith.after {act : State → Host.Outcome State Fault Refusal}
    (hact : ∀ {s t}, act s = .next t → t.run = s.run) (hrest : FailsOnlyWith es rest) :
    FailsOnlyWith es fun s => andThen (act s) rest := by
  intro s hr t h
  obtain ⟨u, hu, h⟩ := andThen_eq_next.mp h
  exact hrest u ((hact hu).trans hr) t h

theorem FailsOnlyWith.wordOp (hrest : FailsOnlyWith es rest) (he : .alignHw ∈ es) (a : Word) :
    FailsOnlyWith es (wordOp a rest) := by
  intro s hr t h
  rcases wordOp_cases a rest s with ⟨-, e⟩ | ⟨-, -, e⟩ | ⟨-, -, e⟩ <;> rw [e] at h
  · cases h
    exact reports_failOp he s
  · cases h
  · exact hrest s hr t h

theorem FailsOnlyWith.pageOp (hrest : FailsOnlyWith es rest) (he : .alignPage ∈ es) (a : Word) :
    FailsOnlyWith es (pageOp a rest) := by
  intro s hr t h
  rcases pageOp_cases a rest s with ⟨-, e⟩ | ⟨-, -, e⟩ | ⟨-, -, e⟩ <;> rw [e] at h
  · cases h
    exact reports_failOp he s
  · cases h
  · exact hrest s hr t h

theorem wrhwVerify_failsOnlyWith (he : .writeVerify ∈ es) : FailsOnlyWith es wrhwVerify := by
  refine fun s _ => yields_next ?_
  split
  · exact reports_doneOp _ _
  · exact reports_failOp he _

theorem wrhwWrite_failsOnlyWith (he : .writeVerify ∈ es) : FailsOnlyWith es wrhwWrite :=
  .after setPg_run (.after flashWrite16_run ((wrhwVerify_failsOnlyWith he).wait _))

theorem FailsOnlyWith.eraseVerify (hrest : FailsOnlyWith es rest) (he : .eraseVerify ∈ es) :
    FailsOnlyWith es (eraseVerify rest) := by
  intro s hr
  unfold Machine.eraseVerify
  dsimp only
  split
  · exact hrest _ (by simpa using hr)
  · exact yields_next (reports_failOp he _)

theorem FailsOnlyWith.eraseStart (hrest : FailsOnlyWith es rest) (he : .eraseVerify ∈ es) (p : Pos) :
    FailsOnlyWith es (eraseStart p rest) :=
  .after setPer_run
    (.after (act := fun t => setStrt (writeAr t.a t)) setStrt_run ((hrest.eraseVerify he).wait p))

theorem erpgEnd_failsOnlyWith : FailsOnlyWith es erpgEnd := fun s _ => yields_next (reports_doneOp _ s)

theorem FailsOnlyWith.wrpgVerify (hrest : FailsOnlyWith es rest) (he : .writeVerify ∈ es) :
    FailsOnlyWith es (wrpgVerify rest) := by
  intro s hr
  unfold Machine.wrpgVerify
  dsimp only
  split
  · exact hrest _ (by simpa using hr)
  · exact yields_next (reports_failOp he _)

theorem wrpgCells_failsOnlyWith (he : .writeVerify ∈ es) (n : Nat) : FailsOnlyWith es (wrpgCells n) := by
  induction n with
  | zero => exact fun _ _ => yields_next (reports_doneOp _ _)
  | succ n ih => exact .after flashWrite16_run ((ih.wrpgVerify he).wait _)

theorem wrpgLoop_failsOnlyWith (he : .writeVerify ∈ es) : FailsOnlyWith es wrpgLoop :=
  fun s hr => wrpgCells_failsOnlyWith he (pageCells s.cfg) (startIdx s) hr

theorem wrpgEnable_failsOnlyWith (he : .writeVerify ∈ es) : FailsOnlyWith es wrpgEnable :=
  .after setPg_run ((wrpgLoop_failsOnlyWith he).wait _)

end Parts

/-! ### The errors of the operations -/

theorem exec_reports {s : State} (hacc : Accepting s) (i : Instr) :
    Yields (Reports (errorsOf i)) (exec i s) := by
  cases i with
  | init =>
    rw [exec_init hacc]
    exact yields_next (reports_endUnlock (.head _) _)
  | islocked =>
    rw [exec_islocked hacc]
    exact yields_next (reports_doneOp _ _)
  | unlock =>
    rw [exec_unlock hacc]
    exact yields_next (reports_endUnlock (.head _) _)
  | lock =>
    rw [exec_lock hacc]
    exact yields_next (reports_doneOp _ _)
  | rdhw a =>
    rw [exec_rdhw hacc]
    refine FailsOnlyWith.wordOp (fun _ _ => ?_) (.head _) a _ rfl
    exact yields_next (reports_doneOp _ _)
  | wrhw a v =>
    rw [exec_wrhw hacc]
    exact ((wrhwWrite_failsOnlyWith (.tail _ (.head _))).wait _).wordOp (.head _) a _ rfl
  | erpg a =>
    rw [exec_erpg hacc]
    exact ((erpgEnd_failsOnlyWith.eraseStart (.tail _ (.head _)) _).wait _).pageOp (.head _) a _ rfl
  | rdpg a =>
    rw [exec_rdpg hacc]
    refine FailsOnlyWith.pageOp (fun _ _ => ?_) (.head _) a _ rfl
    exact yields_next (reports_doneOp _ _)
  | wrpg a =>
    rw [exec_wrpg hacc]
    have hwrite := wrpgEnable_failsOnlyWith (es := errorsOf (.wrpg a)) (.tail _ (.tail _ (.head _)))
    exact ((hwrite.eraseStart (.tail _ (.head _)) _).wait _).pageOp (.head _) a _ rfl
  | pgcrc a =>
    rw [exec_pgcrc hacc]
    refine FailsOnlyWith.pageOp (fun _ _ => ?_) (.head _) a _ rfl
    split
    · exact yields_refused
    · exact yields_next (reports_doneOp _ _)
  | refl v =>
    rw [exec_refl hacc]
    exact yields_next (reports_doneOp _ _)

theorem resumeAt_reports (p : Pos) {s : State} (hr : s.run = true) :
    Yields (Reports (errorsOf (operationAt p s))) (resumeAt p s) := by
  have hhw : .writeVerify ∈ errorsOf (.wrhw s.a s.h) := .tail _ (.head _)
  have her : .eraseVerify ∈ errorsOf (.erpg s.a) := .tail _ (.head _)
  have hpe : .eraseVerify ∈ errorsOf (.wrpg s.a) := .tail _ (.head _)
  have hpw : .writeVerify ∈ errorsOf (.wrpg s.a) := .tail _ (.tail _ (.head _))
  cases p with
  | idle => exact yields_fault
  | wrhwFirst => exact (wrhwWrite_failsOnlyWith hhw).wait _ s hr
  | wrhwProgram => exact (wrhwVerify_failsOnlyWith hhw).wait _ s hr
  | erpgFirst => exact (erpgEnd_failsOnlyWith.eraseStart her _).wait _ s hr
  | erpgErase => exact (erpgEnd_failsOnlyWith.eraseVerify her).wait _ s hr
  | wrpgFirst => exact ((wrpgEnable_failsOnlyWith hpw).eraseStart hpe _).wait _ s hr
  | wrpgErase => exact ((wrpgEnable_failsOnlyWith hpw).eraseVerify hpe).wait _ s hr
  | wrpgEnable => exact (wrpgLoop_failsOnlyWith hpw).wait _ s hr
  | wrpgCell => exact ((wrpgCells_failsOnlyWith hpw _).wrpgVerify hpw).wait _ s hr

/-- The opcode says which errors an operation can report. -/
theorem errors_of_opcode (i : Instr) :
    (operationKinds.filter fun j => decide (i.opcode = j.opcode)).flatMap errorsOf = errorsOf i := by
  cases i <;> rfl

/-- The latch `OPC` holds the opcode of the operation SEQ waits in (R35). -/
theorem WaitsFor.opc_eq {s : State} (h : WaitsFor s) : s.opc = (operationAt s.pos s).opcode := by
  unfold WaitsFor at h
  cases hp : s.pos <;> simp_all [operationAt, Instr.opcode]

/-- Settles O55: each part of an operation fails with the errors of that part only, in the step that starts the
operation and in one that resumes it. -/
theorem operationsReportTheirOwnErrors : Obligations.OperationsReportTheirOwnErrors := by
  refine ⟨fun i s t h => exec_reports (exec_trace h).1 i t h, fun i s t v h ho => ?_⟩
  obtain ⟨w, hres⟩ := h.resumes v rfl
  have hop : i.opcode = (operationAt s.pos { s with host := hostAfter s }).opcode :=
    ho.symm.trans w.waits.opc_eq
  rw [← errors_of_opcode i, hop, errors_of_opcode]
  exact resumeAt_reports s.pos w.run t hres

/-! ### A stuck FCTL -/

theorem Stuck.fctlReady {s : State} (h : Stuck s) : fctlReady s = false := by
  obtain ⟨hrest, hmoves⟩ := h
  unfold Machine.fctlReady
  cases hm : s.moves with
  | nil => exact hrest
  | cons m ms => exact hmoves m (by simp [hm])

theorem Stuck.tail {s : State} (h : Stuck s) : Stuck (usePoll s) :=
  ⟨h.1, fun m hm => h.2 m (List.mem_of_mem_tail hm)⟩

/-- Settles O23, by induction on the number of steps: each is a poll that finds the busy flag set and uses up one of
FCTL's choices. -/
theorem stuckOperationNeverEnds : Obligations.StuckOperationNeverEnds := by
  obtain ⟨-, -, hpoll⟩ := operationsWaitForFctl
  intro s k v hr hh hs
  induction k generalizing s with
  | zero => exact ⟨s, rfl, hr, (v.waiting hr).bsy, rfl, rfl⟩
  | succ k ih =>
    have hstep := hpoll s v hr (by simp [hh]) hs.fctlReady
    obtain ⟨t, hrun, ht⟩ :=
      ih _ (everyStepKeepsTheInvariant _ _ v hstep) hr (by simp [hostAfter, hh]) hs.tail
    exact ⟨t, (run_succ_of_next hstep k).trans hrun, ht⟩

end Sys2Proof.Machine
end

section
/-! Reset during a program or erase, the idle block and the CRC unit's clock (70_reset_and_hazards.md R180, R181,
R190). -/

namespace Sys2Proof.Machine

/-! ### Reset -/

/-- The reset event leaves free values in the cell of a program in flight only (R181, R63). -/
theorem resetEvent_flash_of_prog {s : State} {a : Nat} {v : Half} (hp : s.pend = .prog a v) :
    SameOutside s.flash (resetEvent s).flash a 2 := by
  obtain ⟨m, d, d', p, e, -, -, -, -, hprog, -⟩ := resetEvent_spec s
  rw [e]
  exact (hprog a v hp).1

/-- The reset event leaves free values in the page of an erase in flight only (R181, R65). -/
theorem resetEvent_flash_of_erase {s : State} {a : Nat} (hw : s.cfg.wf = true) (hp : s.pend = .erase a) :
    SameOutside s.flash (resetEvent s).flash (pageBase s.cfg a) s.cfg.pageSize := by
  obtain ⟨-, -, hcells, -⟩ := wf_geometry hw
  obtain ⟨m, d, d', p, e, -, -, -, -, -, herase⟩ := resetEvent_spec s
  rw [e]
  exact hcells ▸ (herase a hp).1

/-- Settles O11: the step is the reset event, which draws the cells of what is in flight and keeps the rest of the
array. -/
theorem resetKeepsCellsNotInFlight : Obligations.ResetKeepsCellsNotInFlight := by
  intro s t rest hw hh h
  cases (step_of_reset hw hh).symm.trans h
  exact ⟨fun _ _ hp => resetEvent_flash_of_prog (s := useMove s) hp,
    fun _ hp => resetEvent_flash_of_erase (s := useMove s) hw hp⟩

/-! ### The idle block -/

theorem advance_of_not_running {s : State} (hr : s.run = false) : advance s = .next s := by
  simp [advance, hr]

/-- Settles O13: the port hands over no command, and without one a block that does not run stays as it is. -/
theorem idleBlockExecutesNothing : Obligations.IdleBlockExecutesNothing := by
  rintro s ⟨hw, hr⟩
  refine ⟨fun hh => ?_, fun rest hh => ?_⟩
  · rw [step, portCommand_of_head (by simp [hh])]
    simp [stepWithoutCommand, hw, hh, advance_of_not_running hr]
  · rw [step, portCommand_of_head (by simp [hh]), ← useMove_of_host hh]
    simp [stepWithoutCommand, hw, hh, advance_of_not_running (s := useMove s) hr]

/-! ### The clock of the CRC unit -/

/-- Settles O52: with the operand's checks passed `PGCRC` comes to the check of its clock. -/
theorem pgcrcNeedsItsClock : Obligations.PgcrcNeedsItsClock := by
  intro s a hacc hen ha hi
  have hclock : (!(started (.pgcrc a) s).crcen) = true := congrArg not hen
  rw [exec_pgcrc hacc, pageOp_of_inside (s := started _ s) (pageAligned_iff.mpr ha) hi]
  exact if_pos hclock

end Sys2Proof.Machine
end
